-- ==== Sys2Proof/Word.lean ====
section
/-!
DEFINITION. The word types: a byte of PKT or TBL (R49), a 32-bit operand or result field (R60, R64), a command word of
104 bits (R60) and a response word of 132 bits (R64).
-/

namespace Sys2Proof

/-- One byte of PKT or TBL (20_memory.md R40, R49). -/
abbrev Byte := BitVec 8

/-- One operand field of a command or one result field of a response, unsigned (30_encoding.md R60, R62, R64). -/
abbrev Word := BitVec 32

/-- One command word (30_encoding.md R60). -/
abbrev CommandWord := BitVec 104

/-- One response word (30_encoding.md R64). -/
abbrev ResponseWord := BitVec 132

end Sys2Proof
end

