-- ==== Sys2Proof/Machine/Constants.lean ====
section
/-!
DEFINITION. The fixed constants of 00_scope.md R7 that a rule names, the same in every instance of the block.
-/

namespace Sys2Proof.Machine

/-- `CODE_TOP`: the largest legal `rng` (R7, R12). -/
def codeTop : Nat := 0x80000000

/-- `CODE_BOT`: normalization runs while `rng <= CODE_BOT` (R7, R82). -/
def codeBot : Nat := 0x00800000

/-- `MAX_TOTAL`: the largest `total` of `RD.DEC` and `RD.UPD` (R7, R85, R88). -/
def maxTotal : Nat := 65536

/-- `MAX_RAW`: the largest `n` of `RD.BITS` (R7, R109). -/
def maxRaw : Nat := 25

/-- `UINT_SPLIT`: `RD.UINT` takes the direct path when `bits <= 8` (R7, R113). -/
def uintSplit : Nat := 8

/-- `MAX_FRAME`: the largest single or CBR frame, in bytes (R7, R148, R155). -/
def maxFrame : Nat := 1275

/-- `INIT_CNT`: the value `nbits_total` is primed to (R7, R80). -/
def initCnt : Nat := 9

/-- The largest `base` or `len` of a view or table operand (R44, R105). -/
def maxView : Nat := 0x1000000

/-- The largest number of bits of a power-of-two total: `bits`, `logp` and `ftb` (R86, R100, R106). -/
def maxTotalBits : Nat := 16

end Sys2Proof.Machine
end

