-- ==== Sys2Proof/Machine/Operands.lean ====
section
/-!
DEFINITION. The operand forms: the legal range each command's rule gives an operand (30_encoding.md R62, 60_exceptions.md
R191). A range that needs no register and no memory is stated here over the 32-bit operand alone; a view or a table
operand is also compared with the size of the space it names (R44, R105). An operand outside its range is refused
`OPERAND`; the meanings say where in the order of checks (R69).
-/

namespace Sys2Proof.Machine

/-- `base` and `len` are each at most 2^24: the part of R44 that needs no memory. -/
abbrev viewBounded (base len : Word) : Prop :=
  base.toNat ≤ maxView ∧ len.toNat ≤ maxView

/-- A view operand is legal (R44) in a space of `size` bytes. -/
abbrev viewLegal (base len : Word) (size : Nat) : Prop :=
  viewBounded base len ∧ base.toNat + len.toNat ≤ size

/-- `2 <= total <= 65536` (R85, and the last part of check (u1) of R88). -/
abbrev totalLegal (total : Word) : Prop :=
  2 ≤ total.toNat ∧ total.toNat ≤ maxTotal

/-- `1 <= bits <= 16` (R86). -/
abbrev binBitsLegal (bits : Word) : Prop :=
  1 ≤ bits.toNat ∧ bits.toNat ≤ maxTotalBits

/-- Check (u1) of R88: `low < high`, `high <= total` and `2 <= total <= 65536`. -/
abbrev intervalLegal (low high total : Word) : Prop :=
  (low.toNat < high.toNat ∧ high.toNat ≤ total.toNat) ∧ totalLegal total

/-- `1 <= logp <= 16` (R100). -/
abbrev logpLegal (logp : Word) : Prop :=
  1 ≤ logp.toNat ∧ logp.toNat ≤ maxTotalBits

/-- The part of R105 that needs no memory: `1 <= tbl_len`, both at most 2^24. -/
abbrev tableBounded (tblBase tblLen : Word) : Prop :=
  1 ≤ tblLen.toNat ∧ tblBase.toNat ≤ maxView ∧ tblLen.toNat ≤ maxView

/-- A table operand is legal (R105) in a table memory of `size` bytes. -/
abbrev tableLegal (tblBase tblLen : Word) (size : Nat) : Prop :=
  tableBounded tblBase tblLen ∧ tblBase.toNat + tblLen.toNat ≤ size

/-- `1 <= ftb <= 16` (R106). -/
abbrev ftbLegal (ftb : Word) : Prop :=
  1 ≤ ftb.toNat ∧ ftb.toNat ≤ maxTotalBits

/-- `0 <= n <= 25` (R109). -/
abbrev rawLegal (n : Word) : Prop :=
  n.toNat ≤ maxRaw

/-- `2 <= total <= 2^32 - 1` (R113); the upper bound is that of the field (R191). -/
abbrev uintLegal (total : Word) : Prop :=
  2 ≤ total.toNat

/-- `toc <= 255` (R143). -/
abbrev tocLegal (toc : Word) : Prop :=
  toc.toNat ≤ 255

end Sys2Proof.Machine
end

