-- ==== Sys2Proof/Syntax.lean ====
section
/-!
DEFINITION. The fourteen commands of spec/opcode_table.json, one constructor per row. The operands are the 32-bit unsigned
fields A, B, C of the command word, in that order, used as they stand (30_encoding.md R60, R62, R63).
-/

namespace Sys2Proof

/-- A command of the block (30_encoding.md R63). There are no pseudo-commands (R68). -/
inductive Instr where
  /-- `RD.INIT base, len` (R80). -/
  | rdInit (base len : Word)
  /-- `RD.DEC total` (R85). -/
  | rdDec (total : Word)
  /-- `RD.DECBIN bits` (R86). -/
  | rdDecbin (bits : Word)
  /-- `RD.UPD low, high, total` (R87). -/
  | rdUpd (low high total : Word)
  /-- `RD.BITP logp` (R100). -/
  | rdBitp (logp : Word)
  /-- `RD.ICDF tbl_base, tbl_len, ftb` (R106). -/
  | rdIcdf (tblBase tblLen ftb : Word)
  /-- `RD.BITS n` (R109). -/
  | rdBits (n : Word)
  /-- `RD.UINT total` (R113). -/
  | rdUint (total : Word)
  /-- `RD.TELL` (R121). -/
  | rdTell
  /-- `RD.TELLF` (R123). -/
  | rdTellf
  /-- `RD.TELLFF` (R125). -/
  | rdTellff
  /-- `PP.PARSE base, len` (R147). -/
  | ppParse (base len : Word)
  /-- `PP.NEXT` (R171). -/
  | ppNext
  /-- `PP.TOC toc` (R143). -/
  | ppToc (toc : Word)
  deriving DecidableEq, Repr

end Sys2Proof
end

