-- ==== Sys2Proof/WellFormed.lean ====
section
/-!
DEFINITION. A command is well formed when each of its operands is in the range its rule states without reference to any
register or memory (60_exceptions.md R191, log 22). Every 32-bit operand has an encoding, so the encoder and the decoder do
not ask for it; a command that is not well formed is a command word all the same, answered `PROTOCOL` or `OPERAND`.
-/

namespace Sys2Proof

/-- The operands are in their stated ranges (R191, column `OPERAND`, the parts that need no state). -/
def Instr.WellFormed : Instr → Bool
  | .rdInit base len => decide (Machine.viewBounded base len)
  | .rdDec total => decide (Machine.totalLegal total)
  | .rdDecbin bits => decide (Machine.binBitsLegal bits)
  | .rdUpd low high total => decide (Machine.intervalLegal low high total)
  | .rdBitp logp => decide (Machine.logpLegal logp)
  | .rdIcdf tblBase tblLen ftb => decide (Machine.tableBounded tblBase tblLen ∧ Machine.ftbLegal ftb)
  | .rdBits n => decide (Machine.rawLegal n)
  | .rdUint total => decide (Machine.uintLegal total)
  | .rdTell => true
  | .rdTellf => true
  | .rdTellff => true
  | .ppParse base len => decide (Machine.viewBounded base len)
  | .ppNext => true
  | .ppToc toc => decide (Machine.tocLegal toc)

end Sys2Proof
end

