-- ==== Sys2Proof/Decode.lean ====
section
/-!
DEFINITION. The decoder and the encoder of command words (30_encoding.md R60 to R63, R66, R67), and the rows of
spec/opcode_table.json as masks and patterns. A word is told by `op` alone, then by its unused fields being zero (R67);
every other word is rejected, by name.
-/

namespace Sys2Proof

/-- Why a word is no command (R66); the block answers either with `ILLEGAL`. -/
inductive DecodeError where
  /-- `op` is not one of the fourteen assigned opcodes. -/
  | unassignedOpcode
  /-- `op` is assigned and an operand field its format does not use is not zero. -/
  | unusedFieldNotZero
  deriving DecidableEq, Repr

/-- The four formats (R61). -/
inductive Format where
  /-- Uses no operand field. -/
  | z
  /-- Uses A. -/
  | a
  /-- Uses A and B. -/
  | ab
  /-- Uses A, B and C. -/
  | abc
  deriving DecidableEq, Repr

/-- The word with the fields `op`, `A`, `B`, `C` at bits 103:96, 95:64, 63:32, 31:0 (R60). -/
def wordOf (op : BitVec 8) (a b c : Word) : CommandWord :=
  op ++ a ++ b ++ c

/-- Field `op`, bits 103:96 (R60). -/
def fieldOp (w : CommandWord) : BitVec 8 := w.extractLsb' 96 8

/-- Field `A`, bits 95:64 (R60). -/
def fieldA (w : CommandWord) : Word := w.extractLsb' 64 32

/-- Field `B`, bits 63:32 (R60). -/
def fieldB (w : CommandWord) : Word := w.extractLsb' 32 32

/-- Field `C`, bits 31:0 (R60). -/
def fieldC (w : CommandWord) : Word := w.extractLsb' 0 32

/-- The mask of a format (R61): all of `op`, and every operand field the format does not use. -/
def Format.mask : Format → CommandWord
  | .z => 0xFFFFFFFFFFFFFFFFFFFFFFFFFF#104
  | .a => 0xFF00000000FFFFFFFFFFFFFFFF#104
  | .ab => 0xFF0000000000000000FFFFFFFF#104
  | .abc => 0xFF000000000000000000000000#104

/-- One row of spec/opcode_table.json: its mnemonic, opcode and format. -/
structure Row where
  /-- The row's mnemonic. -/
  mnemonic : String
  /-- The row's opcode (R63). -/
  op : BitVec 8
  /-- The row's format (R61, R63). -/
  format : Format
  deriving DecidableEq, Repr

/-- The row's `match`: its opcode with zero operands. -/
def Row.pattern (r : Row) : CommandWord := wordOf r.op 0 0 0

/-- A word is the command of a row iff `w & mask = match` (R61). -/
abbrev Row.Matches (r : Row) (w : CommandWord) : Prop := w &&& r.format.mask = r.pattern

/-- The opcode map (R63), one entry per row of spec/opcode_table.json. -/
def opcodeTable : List Row :=
  [ ⟨"RD.INIT", 0x10, .ab⟩, ⟨"RD.DEC", 0x11, .a⟩, ⟨"RD.DECBIN", 0x12, .a⟩, ⟨"RD.UPD", 0x13, .abc⟩,
    ⟨"RD.BITP", 0x14, .a⟩, ⟨"RD.ICDF", 0x15, .abc⟩, ⟨"RD.BITS", 0x16, .a⟩, ⟨"RD.UINT", 0x17, .a⟩,
    ⟨"RD.TELL", 0x18, .z⟩, ⟨"RD.TELLF", 0x19, .z⟩, ⟨"RD.TELLFF", 0x1A, .z⟩,
    ⟨"PP.PARSE", 0x20, .ab⟩, ⟨"PP.NEXT", 0x21, .z⟩, ⟨"PP.TOC", 0x22, .a⟩ ]

/-- The command when the fields its format leaves unused are all zero, else the rejection of R66. -/
def ifUnusedZero (unused : Word) (i : Instr) : Except DecodeError Instr :=
  if unused = 0 then .ok i else .error .unusedFieldNotZero

/-- The decoder (R66, R67): by `op` alone, then by the unused fields. It is total: a word that is no command is rejected by
name. -/
def decode (w : CommandWord) : Except DecodeError Instr :=
  match (fieldOp w).toNat with
  | 0x10 => ifUnusedZero (fieldC w) (.rdInit (fieldA w) (fieldB w))
  | 0x11 => ifUnusedZero (fieldB w ||| fieldC w) (.rdDec (fieldA w))
  | 0x12 => ifUnusedZero (fieldB w ||| fieldC w) (.rdDecbin (fieldA w))
  | 0x13 => .ok (.rdUpd (fieldA w) (fieldB w) (fieldC w))
  | 0x14 => ifUnusedZero (fieldB w ||| fieldC w) (.rdBitp (fieldA w))
  | 0x15 => .ok (.rdIcdf (fieldA w) (fieldB w) (fieldC w))
  | 0x16 => ifUnusedZero (fieldB w ||| fieldC w) (.rdBits (fieldA w))
  | 0x17 => ifUnusedZero (fieldB w ||| fieldC w) (.rdUint (fieldA w))
  | 0x18 => ifUnusedZero (fieldA w ||| fieldB w ||| fieldC w) .rdTell
  | 0x19 => ifUnusedZero (fieldA w ||| fieldB w ||| fieldC w) .rdTellf
  | 0x1A => ifUnusedZero (fieldA w ||| fieldB w ||| fieldC w) .rdTellff
  | 0x20 => ifUnusedZero (fieldC w) (.ppParse (fieldA w) (fieldB w))
  | 0x21 => ifUnusedZero (fieldA w ||| fieldB w ||| fieldC w) .ppNext
  | 0x22 => ifUnusedZero (fieldB w ||| fieldC w) (.ppToc (fieldA w))
  | _ => .error .unassignedOpcode

/-- The row of spec/opcode_table.json a command belongs to (R63). -/
def rowOf : Instr → Row
  | .rdInit _ _ => ⟨"RD.INIT", 0x10, .ab⟩
  | .rdDec _ => ⟨"RD.DEC", 0x11, .a⟩
  | .rdDecbin _ => ⟨"RD.DECBIN", 0x12, .a⟩
  | .rdUpd _ _ _ => ⟨"RD.UPD", 0x13, .abc⟩
  | .rdBitp _ => ⟨"RD.BITP", 0x14, .a⟩
  | .rdIcdf _ _ _ => ⟨"RD.ICDF", 0x15, .abc⟩
  | .rdBits _ => ⟨"RD.BITS", 0x16, .a⟩
  | .rdUint _ => ⟨"RD.UINT", 0x17, .a⟩
  | .rdTell => ⟨"RD.TELL", 0x18, .z⟩
  | .rdTellf => ⟨"RD.TELLF", 0x19, .z⟩
  | .rdTellff => ⟨"RD.TELLFF", 0x1A, .z⟩
  | .ppParse _ _ => ⟨"PP.PARSE", 0x20, .ab⟩
  | .ppNext => ⟨"PP.NEXT", 0x21, .z⟩
  | .ppToc _ => ⟨"PP.TOC", 0x22, .a⟩

/-- The encoder (R60, R63): the command word of a command, its unused fields zero. -/
def encode : Instr → CommandWord
  | .rdInit base len => wordOf 0x10 base len 0
  | .rdDec total => wordOf 0x11 total 0 0
  | .rdDecbin bits => wordOf 0x12 bits 0 0
  | .rdUpd low high total => wordOf 0x13 low high total
  | .rdBitp logp => wordOf 0x14 logp 0 0
  | .rdIcdf tblBase tblLen ftb => wordOf 0x15 tblBase tblLen ftb
  | .rdBits n => wordOf 0x16 n 0 0
  | .rdUint total => wordOf 0x17 total 0 0
  | .rdTell => wordOf 0x18 0 0 0
  | .rdTellf => wordOf 0x19 0 0 0
  | .rdTellff => wordOf 0x1A 0 0 0
  | .ppParse base len => wordOf 0x20 base len 0
  | .ppNext => wordOf 0x21 0 0 0
  | .ppToc toc => wordOf 0x22 toc 0 0

/-- The command word whose bits are `w`, of which the table gives `nbits`; the bits above are 0. A command is one word of
104 bits, numbered in the table as in R60. -/
def tableWord (nbits w : Nat) : CommandWord :=
  BitVec.ofNat 104 (w % 2 ^ nbits)

/-- What the decoder reads from a word given as the table numbers its bits. -/
def decodeTableWord (nbits w : Nat) : Option Instr :=
  match decode (tableWord nbits w) with
  | .ok i => some i
  | .error _ => none

end Sys2Proof
end

