-- ==== Sys2Proof/Config.lean ====
section
/-!
DEFINITION. What an implementation fixes: the three named parameters of 00_scope.md R8 that choose between two readings
(TELL_LOG, UNIFORM_BITS, PAD_CONT), the values this hardware takes, the suggested sizes of the two memories, and the one
free value of the model. The parameters are held in the machine's state (field `params`, log 4), so that a statement about
every state is a statement about every legal parameter value, as R8 asks.
-/

namespace Sys2Proof

/-- `TELL_LOG`: the logarithm the tell commands subtract (R8, R120). -/
inductive TellLog where
  /-- `FLOG2`: the floor of the base-2 logarithm, this hardware's value. -/
  | flog2
  /-- `ILOG`: the number of bits. -/
  | ilog
  deriving DecidableEq, Repr

/-- `UNIFORM_BITS`: how `RD.UINT` computes its bit count (R8, R112). -/
inductive UniformBits where
  /-- `ILOG`: the number of bits of `total - 1`, this hardware's value. -/
  | ilog
  /-- `CEIL`: `clog2(total - 1) + 1`. -/
  | ceil
  deriving DecidableEq, Repr

/-- `PAD_CONT`: what a padding-length byte of 255 adds (R8, R152). -/
inductive PadCont where
  /-- 255, this hardware's value. -/
  | add255
  /-- 254, the other legal value. -/
  | add254
  deriving DecidableEq, Repr

/-- The named parameters of R8 that choose between two readings; constant over a run. -/
structure Params where
  /-- `TELL_LOG`. -/
  tellLog : TellLog
  /-- `UNIFORM_BITS`. -/
  uniformBits : UniformBits
  /-- `PAD_CONT`. -/
  padCont : PadCont
  deriving DecidableEq, Repr

/-- The values this hardware takes (R8: column "This hardware"). -/
def Config.thisHardware : Params :=
  { tellLog := .flog2, uniformBits := .ilog, padCont := .add255 }

/-- `PKT_SIZE` of the reset state: the value R8 suggests; R8 leaves it open. DESIGN CHOICE, log 4: unsafe. -/
def Config.pktSize : Nat := 65536

/-- `TBL_SIZE` of the reset state: the value R8 suggests; R8 leaves it open. DESIGN CHOICE, log 4: unsafe. -/
def Config.tblSize : Nat := 4096

/-- The free value `RD.INIT` leaves in `RD.ext`, which R14 and R80 call `undef`: the `n`-th one for the `n`-th `RD.INIT`.
Nothing is known of it. DESIGN CHOICE, log 7: safe. -/
opaque Config.freeExt : Nat → BitVec 32

end Sys2Proof
end

