-- ==== Sys2Proof/Machine/State.lean ====
section
/-!
DEFINITION. The state of the block (10_state.md): the registers of the RD unit (R11 to R20, R23) and of the PP unit (R26 to
R34), the two byte memories (20_memory.md R40), the named parameters (00_scope.md R8), the command words the host has still
to issue and the responses given so far (30_encoding.md R60, R64; 60_exceptions.md R206), and the reset state (R38). No
register of one unit is a register of the other (R10). The block has no other state (R22, R35, R36, R37).
-/

namespace Sys2Proof.Machine

/-- `RD.phase`, 2 bits (R23): `IDLE` = 0, `READY` = 1, `PAIR` = 2; 3 is never held (log 14). -/
inductive RdPhase where
  /-- No `RD.INIT` since reset. -/
  | idle
  /-- Initialised, no decode pending. -/
  | ready
  /-- An `RD.DEC` or `RD.DECBIN` has answered and its `RD.UPD` has not been given. -/
  | pair
  deriving DecidableEq, Repr

/-- `PP.phase`, 1 bit (R26): `IDLE` = 0, `PARSED` = 1. -/
inductive PpPhase where
  /-- No `PP.PARSE` has completed with `OK` since reset. -/
  | idle
  /-- The PP registers hold a Packet. -/
  | parsed
  deriving DecidableEq, Repr

/-- `PP.mode`, 2 bits (R27): 0, 1, 2; 3 is never held (log 14). -/
inductive Mode where
  /-- 0. -/
  | linearPrediction
  /-- 1. -/
  | hybrid
  /-- 2. -/
  | transform
  deriving DecidableEq, Repr

/-- `PP.bw`, 3 bits (R28): 0 to 4; 5 to 7 are never held (log 14). -/
inductive Bandwidth where
  /-- 0. -/
  | narrow
  /-- 1. -/
  | medium
  /-- 2. -/
  | wide
  /-- 3. -/
  | superWide
  /-- 4. -/
  | full
  deriving DecidableEq, Repr

/-- `PP.dur`, the frame duration code, 3 bits (R29): 0 to 5; 6 and 7 are never held (log 14). -/
inductive Duration where
  /-- 0: 2.5 ms. -/
  | ms2p5
  /-- 1: 5 ms. -/
  | ms5
  /-- 2: 10 ms. -/
  | ms10
  /-- 3: 20 ms. -/
  | ms20
  /-- 4: 40 ms. -/
  | ms40
  /-- 5: 60 ms. -/
  | ms60
  deriving DecidableEq, Repr

/-- `PP.scheme`, the FrameLengthScheme variant, 3 bits (R31): 0 to 4; 5 to 7 are never held (log 14). -/
inductive Scheme where
  /-- 0: `SINGLE`. -/
  | single
  /-- 1: `DOUBLE_EQUAL`. -/
  | doubleEqual
  /-- 2: `DOUBLE_EXPLICIT`. -/
  | doubleExplicit
  /-- 3: `CBR`. -/
  | cbr
  /-- 4: `VBR`. -/
  | vbr
  deriving DecidableEq, Repr

/-- The registers of the RD unit (R11 to R20, R23). -/
structure RdUnit where
  /-- `RD.phase` (R23). -/
  phase : RdPhase
  /-- `RD.val` (R11). -/
  val : BitVec 31
  /-- `RD.rng` (R12). -/
  rng : BitVec 32
  /-- `RD.ext`, the cached divisor (R14). -/
  ext : BitVec 32
  /-- `RD.rem`, the last byte read through the forward cursor (R15). -/
  rem : Byte
  /-- `RD.nbits_total`, modulo 2^32 (R16). -/
  nbitsTotal : BitVec 32
  /-- `RD.base`, the view's first address (R17). -/
  base : BitVec 25
  /-- `RD.len`, the view's length (R17). -/
  len : BitVec 25
  /-- `RD.offs`, the forward byte cursor (R18). -/
  offs : BitVec 25
  /-- `RD.end_offs`, the backward byte cursor (R19). -/
  endOffs : BitVec 25
  /-- `RD.end_window`, the raw-bit cache (R20). -/
  endWindow : BitVec 32
  /-- `RD.nend_bits`, how many raw bits the cache holds (R20). -/
  nendBits : BitVec 6
  deriving DecidableEq, Repr

/-- The registers of the PP unit (R26 to R34). -/
structure PpUnit where
  /-- `PP.phase` (R26). -/
  phase : PpPhase
  /-- `PP.mode` (R27). -/
  mode : Mode
  /-- `PP.bw` (R28). -/
  bw : Bandwidth
  /-- `PP.dur` (R29). -/
  dur : Duration
  /-- `PP.stereo`, 1 bit (R30). -/
  stereo : Bool
  /-- `PP.scheme` (R31). -/
  scheme : Scheme
  /-- `PP.arg`, the scheme's argument (R32). -/
  arg : BitVec 25
  /-- `PP.pay_base` (R33). -/
  payBase : BitVec 25
  /-- `PP.pay_len` (R33). -/
  payLen : BitVec 25
  /-- `PP.lp_base` (R34). -/
  lpBase : BitVec 25
  /-- `PP.lp_len` (R34). -/
  lpLen : BitVec 25
  deriving DecidableEq, Repr

/-- The contents of a byte memory: (address, byte) pairs, addresses strictly rising, no byte equal to what an unlisted
address reads as (`Memory.unlisted`, log 5). -/
abbrev Memory := List Host.Cell

/-- A byte memory: its size (`PKT_SIZE` or `TBL_SIZE`, R8) and its contents (R40). -/
structure ByteSpace where
  /-- How many bytes the space has; its addresses are 0 to `size - 1`. -/
  size : Nat
  /-- The bytes it holds. -/
  bytes : Memory
  deriving DecidableEq, Repr

/-- The status of a response (R65). -/
inductive Status where
  /-- 0x0 `OK`: completed. -/
  | ok
  /-- 0x1 `END`: iteration finished, no frame. -/
  | ended
  /-- 0x2 `DTX`: the source's `Dtx`. -/
  | dtx
  /-- 0x3 `INVALID_LENGTH`: the source's `InvalidLength`. -/
  | invalidLength
  /-- 0x4 `INVALID_FORMAT`: the source's `InvalidFormat`. -/
  | invalidFormat
  /-- 0x8 `ILLEGAL`: no such command. -/
  | illegal
  /-- 0x9 `PROTOCOL`: not legal in the unit's phase. -/
  | protocol
  /-- 0xA `OPERAND`: an operand outside its range, or a checked precondition fails. -/
  | operand
  deriving DecidableEq, Repr

/-- The four result fields of a response (R64); a field a command does not define is 0. -/
structure Results where
  /-- First result. -/
  r0 : Word := 0
  /-- Second result. -/
  r1 : Word := 0
  /-- Third result. -/
  r2 : Word := 0
  /-- Fourth result. -/
  r3 : Word := 0
  deriving DecidableEq, Repr

/-- All four result fields zero (R64). -/
def Results.zero : Results := {}

/-- One response (R64). -/
structure Response where
  /-- The status (R65). -/
  status : Status
  /-- The results. -/
  results : Results
  deriving DecidableEq, Repr

/-- The block with its host interface. -/
structure State where
  /-- The RD unit's registers. -/
  rd : RdUnit
  /-- The PP unit's registers. -/
  pp : PpUnit
  /-- PKT, the packet memory (R40). -/
  pkt : ByteSpace
  /-- TBL, the table memory (R40). -/
  tbl : ByteSpace
  /-- The named parameters of R8 (log 4). -/
  params : Params
  /-- The command words the host has still to issue, the next one first (log 1). -/
  commands : List CommandWord
  /-- The responses given so far, the first one first (R206, log 3). -/
  responses : List Response
  /-- The model's own counter of free values used so far (log 8); no register of the block. -/
  freeCount : Nat
  deriving DecidableEq, Repr

/-- Why the machine stops. Every one of these is reached only from states outside the invariant of Sys2Proof/Safety.lean,
which no run from reset reaches; all are safe: the model stops where the spec says nothing. -/
inductive Fault where
  /-- A read of an address outside its space, which R40 says no rule issues. Raised by `ByteSpace.get`. Safe (log 9). -/
  | outsideSpace (addr : Nat)
  /-- A division by `ext = 0`, which R9 and R90 exclude. Raised by `RD.DEC`, `RD.DECBIN`, `RD.UPD`, `RD.UINT`. Safe
  (log 10). -/
  | divideByZero
  /-- `Normalize()` entered with `rng = 0`, where R84 (e) says the loop would never end: a stuck state. Raised by
  `normalize`. Safe (log 11). -/
  | normalizeNeverEnds
  /-- A tell command with `rng` outside `(2^23, 2^31]`, where R120 gives no logarithm. Raised by `RD.TELL`, `RD.TELLF`,
  `RD.TELLFF`. Safe (log 12). -/
  | rngNotNormalized
  /-- A length code of a VBR packet cut off by the end of the length-prefix region, which R171 says cannot be. Raised by
  `PP.NEXT`. Safe (log 13). -/
  | lengthCodeMissing
  /-- A frame longer than the payload left, which R171 says cannot be. Raised by `PP.NEXT`. Safe (log 13). -/
  | frameOutsidePayload
  deriving DecidableEq, Repr

/-- Why the model gives an instruction no meaning. Every instruction of the table has one: no arm of `exec` answers with
this. -/
inductive Refusal where
  /-- Raised by an arm of `exec` whose instruction is not modelled; none is left. Safe. -/
  | notModelled (mnemonic : String)
  deriving DecidableEq, Repr

/-- How a command ends before it completes `OK`. -/
inductive Halt where
  /-- The block answers with this status, zero results and no register written (R26, R64, R171, R190, R192). -/
  | answer (st : Status)
  /-- The model stops. -/
  | fault (f : Fault)
  deriving DecidableEq, Repr

/-- The RD registers at reset: `phase` is `IDLE` (R38); the others are `undef` in the spec and 0 here. DESIGN CHOICE,
log 6: unsafe. -/
def RdUnit.reset : RdUnit :=
  { phase := .idle, val := 0, rng := 0, ext := 0, rem := 0, nbitsTotal := 0, base := 0, len := 0, offs := 0,
    endOffs := 0, endWindow := 0, nendBits := 0 }

/-- The PP registers at reset: `phase` is `IDLE` (R38); the others are `undef` in the spec and hold code 0 here. DESIGN
CHOICE, log 6: unsafe. -/
def PpUnit.reset : PpUnit :=
  { phase := .idle, mode := .linearPrediction, bw := .narrow, dur := .ms2p5, stereo := false, scheme := .single,
    arg := 0, payBase := 0, payLen := 0, lpBase := 0, lpLen := 0 }

/-- The state after hardware reset (R38, R210): both phases `IDLE`, nothing loaded into either memory, no command issued,
no response given. The sizes are DESIGN CHOICE, log 4. -/
def State.reset : State :=
  { rd := .reset, pp := .reset, pkt := { size := Config.pktSize, bytes := [] },
    tbl := { size := Config.tblSize, bytes := [] }, params := Config.thisHardware, commands := [], responses := [],
    freeCount := 0 }

end Sys2Proof.Machine
end

