-- ==== Sys2Proof/Machine/Flags.lean ====
section
/-!
DEFINITION. The block has no flags register and no condition codes (10_state.md R36): what a command reports, it reports in
its response. This file has the codes of the enumerated registers and statuses (R23, R26 to R31, R65), the response word
(R64) and the descriptor word (R144).
-/

namespace Sys2Proof.Machine

/-- The code of `RD.phase` (R23). -/
def RdPhase.code : RdPhase → BitVec 2
  | .idle => 0
  | .ready => 1
  | .pair => 2

/-- The code of `PP.phase` (R26). -/
def PpPhase.code : PpPhase → BitVec 1
  | .idle => 0
  | .parsed => 1

/-- The code of `PP.mode` (R27). -/
def Mode.code : Mode → BitVec 2
  | .linearPrediction => 0
  | .hybrid => 1
  | .transform => 2

/-- The code of `PP.bw` (R28). -/
def Bandwidth.code : Bandwidth → BitVec 3
  | .narrow => 0
  | .medium => 1
  | .wide => 2
  | .superWide => 3
  | .full => 4

/-- The code of `PP.dur` (R29). -/
def Duration.code : Duration → BitVec 3
  | .ms2p5 => 0
  | .ms5 => 1
  | .ms10 => 2
  | .ms20 => 3
  | .ms40 => 4
  | .ms60 => 5

/-- The code of `PP.scheme` (R31). -/
def Scheme.code : Scheme → BitVec 3
  | .single => 0
  | .doubleEqual => 1
  | .doubleExplicit => 2
  | .cbr => 3
  | .vbr => 4

/-- `DurTenths(dur)`, the frame duration in tenths of a millisecond (R29). -/
def Duration.tenths : Duration → Word
  | .ms2p5 => 25
  | .ms5 => 50
  | .ms10 => 100
  | .ms20 => 200
  | .ms40 => 400
  | .ms60 => 600

/-- The status code (R65). -/
def Status.code : Status → BitVec 4
  | .ok => 0x0
  | .ended => 0x1
  | .dtx => 0x2
  | .invalidLength => 0x3
  | .invalidFormat => 0x4
  | .illegal => 0x8
  | .protocol => 0x9
  | .operand => 0xA

/-- The response word: `status` at bits 131:128, then `R0` to `R3` (R64). -/
def Response.word (r : Response) : ResponseWord :=
  r.status.code ++ r.results.r0 ++ r.results.r1 ++ r.results.r2 ++ r.results.r3

/-- The descriptor word (R144): `mode` at bits 1:0, `bw` at 4:2, `dur` at 7:5, `st` at 8, `code` at 10:9, `scheme` at
13:11, the rest 0. -/
def descriptor (mode : Mode) (bw : Bandwidth) (dur : Duration) (st : Bool) (code : BitVec 2) (scheme : BitVec 3) : Word :=
  0#18 ++ scheme ++ code ++ BitVec.ofBool st ++ dur.code ++ bw.code ++ mode.code

end Sys2Proof.Machine
end

