-- ==== Sys2Proof/Machine/Ops.lean ====
section
/-!
DEFINITION. The named operations over memory and registers: reading one byte of a space (R40), the forward and tail byte
readers of the RD unit (R45, R46), `Normalize()` (R82), the bodies of decode and update (R85, R87, R88), `RawBits(n)`
(R108); how a command ends (R64, R190, R192), which is the block's whole exception mechanism (R198); and the phase checks
(R24, R26). Arithmetic is over the natural numbers and is narrowed where a register is written (R9, log 19).
-/

namespace Sys2Proof.Machine

/-! ### Memory -/

/-- What an address that is not listed reads as. DESIGN CHOICE, log 5: unsafe for the reset state only, since every
contents of a memory is listed in one way. -/
def Memory.unlisted : Byte := 0

/-- The byte at an address. -/
def Memory.read : Memory → Nat → Byte
  | [], _ => Memory.unlisted
  | (a, b) :: rest, x => if a = x then b else Memory.read rest x

/-- Places a byte at an address, as the host does when it loads a memory (R42, R205); the block itself never writes (R41).
The canonical form is kept: writing what an unlisted address reads as removes the entry. -/
def Memory.write : Memory → Nat → Byte → Memory
  | [], x, v => if v = Memory.unlisted then [] else [(x, v)]
  | (a, b) :: rest, x, v =>
    if x < a then
      if v = Memory.unlisted then (a, b) :: rest else (x, v) :: (a, b) :: rest
    else if a = x then
      if v = Memory.unlisted then rest else (a, v) :: rest
    else (a, b) :: Memory.write rest x v

/-- Places bytes from an address on (R205). -/
def Memory.load : Memory → Nat → List Byte → Memory
  | m, _, [] => m
  | m, x, v :: vs => Memory.load (Memory.write m x v) (x + 1) vs

/-- The listed addresses rise strictly from `lo` on, and no listed byte is what an unlisted address reads as. -/
def Memory.wfFrom (lo : Nat) : Memory → Bool
  | [] => true
  | (a, b) :: rest => decide (lo ≤ a) && decide (b ≠ Memory.unlisted) && Memory.wfFrom (a + 1) rest

/-- The canonical form of a memory. -/
def Memory.wf (m : Memory) : Bool := Memory.wfFrom 0 m

/-- `MemRead(S, a, 1)` (R9, R40): one byte of a space. An address outside the space does not exist: a fault (log 9). -/
def ByteSpace.get (m : ByteSpace) (a : Nat) : Except Halt Byte :=
  if a < m.size then .ok (m.bytes.read a) else .error (.fault (.outsideSpace a))

/-! ### How a command ends -/

/-- The block answers: one response, every register as it is (R64). -/
def State.answer (s : State) (st : Status) (r : Results) : State :=
  { s with responses := s.responses ++ [{ status := st, results := r }] }

/-- A refusal, a parse failure or `END`: the response with that status and zero results, no register written (R26, R64,
R190, R192, R198). This is all there is to "taking an exception" in this block, and there is nothing to return from. -/
def State.refuse (s : State) (st : Status) : State :=
  s.answer st Results.zero

/-- Ends a command: `OK` with its results and the registers it wrote, or a refusal from the state the command found. -/
def conclude (s : State) (body : Except Halt (Results × State)) : Host.Outcome State Fault Refusal :=
  match body with
  | .ok (r, t) => .next (t.answer .ok r)
  | .error (.answer st) => .next (s.refuse st)
  | .error (.fault f) => .fault f

/-- A check: goes on if `p` holds, else ends the command with `h`. -/
def require (p : Prop) [Decidable p] (h : Halt) : Except Halt Unit :=
  if p then .ok () else .error h

/-- An operand check (R190): `OPERAND` unless `p`. -/
def requireOperand (p : Prop) [Decidable p] : Except Halt Unit :=
  require p (.answer .operand)

/-- The RD phase table (R24) for the commands legal in `READY` only. -/
def requireReady (s : State) : Except Halt Unit :=
  require (s.rd.phase = .ready) (.answer .protocol)

/-- The RD phase table (R24) for `RD.UPD`, legal in `PAIR` only. -/
def requirePair (s : State) : Except Halt Unit :=
  require (s.rd.phase = .pair) (.answer .protocol)

/-- The RD phase table (R24) for the tell commands, legal in `READY` and `PAIR`. -/
def requireInitialised (s : State) : Except Halt Unit :=
  require (s.rd.phase ≠ .idle) (.answer .protocol)

/-- The PP phase table (R26) for `PP.NEXT`, legal in `PARSED` only. -/
def requireParsed (s : State) : Except Halt Unit :=
  require (s.pp.phase = .parsed) (.answer .protocol)

/-! ### The RD unit's byte readers -/

/-- `FwdByte()` (R45): the next byte from the front of the view, or 0 with the cursor unmoved. -/
def fwdByte (m : ByteSpace) (u : RdUnit) : Except Halt (Byte × RdUnit) :=
  if u.offs.toNat < u.len.toNat then do
    let b ← m.get (u.base.toNat + u.offs.toNat)
    .ok (b, { u with offs := u.offs + 1 })
  else .ok (0, u)

/-- `EndByte()` (R46): the next byte from the tail of the view, or 0 with the cursor unmoved. -/
def endByte (m : ByteSpace) (u : RdUnit) : Except Halt (Byte × RdUnit) :=
  if u.endOffs.toNat < u.len.toNat then do
    let b ← m.get (u.base.toNat + u.len.toNat - (u.endOffs.toNat + 1))
    .ok (b, { u with endOffs := u.endOffs + 1 })
  else .ok (0, u)

/-! ### Normalization -/

/-- The normalization symbol: the carried bit `rem[0]`, then the seven high bits of the new byte (R82). -/
def codedSymbol (rem b : Byte) : Byte :=
  rem.extractLsb' 0 1 ++ b.extractLsb' 1 7

/-- One iteration of `Normalize()` (R82). -/
def normalizeStep (m : ByteSpace) (u : RdUnit) : Except Halt RdUnit := do
  let (b, v) ← fwdByte m u
  .ok { v with
    nbitsTotal := u.nbitsTotal + 8
    rng := BitVec.ofNat 32 (u.rng.toNat * 256)
    rem := b
    val := BitVec.ofNat 31 (u.val.toNat * 256 + (255 - (codedSymbol u.rem b).toNat)) }

/-- The loop of `Normalize()` with at most this many iterations left. When none is left and `rng <= 2^23` still, `rng` is
0 and the loop would never end (R84 (b), (e), log 11). -/
def normalizeLoop (m : ByteSpace) : Nat → RdUnit → Except Halt RdUnit
  | 0, u => if u.rng.toNat ≤ codeBot then .error (.fault .normalizeNeverEnds) else .ok u
  | k + 1, u =>
    if u.rng.toNat ≤ codeBot then do
      let v ← normalizeStep m u
      normalizeLoop m k v
    else .ok u

/-- `Normalize()` (R82): at most three iterations for every `rng >= 1` (R84 (b)). -/
def normalize (m : ByteSpace) (u : RdUnit) : Except Halt RdUnit :=
  normalizeLoop m 3 u

/-! ### Decode and update -/

/-- `total - min(val // ext + 1, total)` (R85, R88). -/
def offsetOf (val ext total : Nat) : Nat :=
  total - min (val / ext + 1) total

/-- The offset for the cached divisor `ext`; a division by 0 does not exist (R9, log 10). -/
def cachedOffset (total : Nat) (u : RdUnit) : Except Halt Nat :=
  if u.ext.toNat = 0 then .error (.fault .divideByZero) else .ok (offsetOf u.val.toNat u.ext.toNat total)

/-- The body of decode with the divisor already computed (R85, R86): caches it and answers the offset. -/
def cacheAndDecode (ext total : Nat) (u : RdUnit) : Except Halt (Nat × RdUnit) := do
  let v := { u with ext := BitVec.ofNat 32 ext }
  let o ← cachedOffset total v
  .ok (o, v)

/-- `Dec(total)`, the body of `RD.DEC` (R85). -/
def decodeFrequency (total : Nat) (u : RdUnit) : Except Halt (Nat × RdUnit) :=
  cacheAndDecode (u.rng.toNat / total) total u

/-- `Dec` for `total = 2^bits`, the body of `RD.DECBIN` (R86): the divisor by a shift. -/
def decodeBin (bits : Nat) (u : RdUnit) : Except Halt (Nat × RdUnit) :=
  cacheAndDecode (u.rng.toNat >>> bits) (2 ^ bits) u

/-- `Upd(low, high, total)`, the body of `RD.UPD` after its checks (R87). -/
def update (m : ByteSpace) (low high total : Nat) (u : RdUnit) : Except Halt RdUnit :=
  let excluded := u.ext.toNat * (total - high)
  normalize m { u with
    val := BitVec.ofNat 31 (u.val.toNat - excluded)
    rng := BitVec.ofNat 32
      (if 0 < low then u.ext.toNat * (high - low) else u.rng.toNat - excluded) }

/-! ### Raw bits -/

/-- One turn of the refill of `RawBits` (R108): the next tail byte above the cached bits. -/
def refillStep (m : ByteSpace) (u : RdUnit) : Except Halt RdUnit := do
  let (b, v) ← endByte m u
  .ok { v with
    endWindow := u.endWindow ||| (b.setWidth 32 <<< u.nendBits.toNat)
    nendBits := BitVec.ofNat 6 (u.nendBits.toNat + 8) }

/-- The refill loop of `RawBits` (R108): a turn, then again until the cache holds more than 24 bits. Four turns always
reach that (R220). -/
def refillLoop (m : ByteSpace) : Nat → RdUnit → Except Halt RdUnit
  | 0, u => .ok u
  | k + 1, u => do
    let v ← refillStep m u
    if 24 < v.nendBits.toNat then .ok v else refillLoop m k v

/-- The refill of `RawBits` (R108): only when the cache holds fewer than `n` bits. -/
def refill (m : ByteSpace) (n : Nat) (u : RdUnit) : Except Halt RdUnit :=
  if u.nendBits.toNat < n then refillLoop m 4 u else .ok u

/-- `RawBits(n)` (R108). -/
def rawBits (m : ByteSpace) (n : Nat) (u : RdUnit) : Except Halt (Nat × RdUnit) := do
  let v ← refill m n u
  .ok (v.endWindow.toNat % 2 ^ n,
    { v with
      endWindow := v.endWindow >>> n
      nendBits := BitVec.ofNat 6 (v.nendBits.toNat - n)
      nbitsTotal := v.nbitsTotal + BitVec.ofNat 32 n })

end Sys2Proof.Machine
end

