-- ==== Sys2Proof/Machine/PpParse.lean ====
section
/-!
DEFINITION. The packet parser (43_pp_parse.md): the TOC byte and its field decoder, the 1-or-2-byte length code, `PP.TOC`
and `PP.PARSE`.
-/

namespace Sys2Proof.Machine

/-! ### The TOC byte -/

/-- Field `cfg` of the TOC byte, bits 7:3 (R140). -/
def tocCfg (toc : Byte) : BitVec 5 := toc.extractLsb' 3 5

/-- Field `st` of the TOC byte, bit 2 (R140). -/
def tocStereo (toc : Byte) : Bool := toc.getLsbD 2

/-- Field `code` of the TOC byte, bits 1:0 (R140). -/
def tocCode (toc : Byte) : BitVec 2 := toc.extractLsb' 0 2

/-- The duration with a code from 0 to 5 (R29). -/
def durationOf : Nat → Duration
  | 0 => .ms2p5
  | 1 => .ms5
  | 2 => .ms10
  | 3 => .ms20
  | 4 => .ms40
  | _ => .ms60

/-- The bandwidth with a code from 0 to 4 (R28). -/
def bandwidthOf : Nat → Bandwidth
  | 0 => .narrow
  | 1 => .medium
  | 2 => .wide
  | 3 => .superWide
  | _ => .full

/-- The Transform mode's list of bandwidths, (0, 2, 3, 4) (R141). -/
def transformBandwidth : Nat → Bandwidth
  | 0 => .narrow
  | 1 => .wide
  | 2 => .superWide
  | _ => .full

/-- What the configuration number decodes to. -/
structure TocFields where
  /-- The mode. -/
  mode : Mode
  /-- The bandwidth. -/
  bw : Bandwidth
  /-- The frame duration. -/
  dur : Duration
  deriving DecidableEq, Repr

/-- `TocDecode(cfg)` (R141). -/
def tocDecode (cfg : BitVec 5) : TocFields :=
  if cfg.getLsbD 4 then
    { mode := .transform, bw := transformBandwidth (cfg.extractLsb' 2 2).toNat,
      dur := durationOf (cfg.extractLsb' 0 2).toNat }
  else if cfg.extractLsb' 2 2 = 3 then
    { mode := .hybrid, bw := bandwidthOf (3 + (cfg.extractLsb' 1 1).toNat),
      dur := durationOf (2 + (cfg.extractLsb' 0 1).toNat) }
  else
    { mode := .linearPrediction, bw := bandwidthOf (cfg.extractLsb' 2 2).toNat,
      dur := durationOf (2 + (cfg.extractLsb' 0 2).toNat) }

/-- The descriptor word of a TOC byte with a scheme field (R143, R144, R156). -/
def tocDescriptor (toc : Byte) (scheme : BitVec 3) : Word :=
  let f := tocDecode (tocCfg toc)
  descriptor f.mode f.bw f.dur (tocStereo toc) (tocCode toc) scheme

/-- `PP.TOC toc` (R143). It writes no register and is legal in both phases. -/
def execPpToc (toc : Word) (s : State) : Host.Outcome State Fault Refusal :=
  conclude s do
    requireOperand (tocLegal toc)
    let b := toc.setWidth 8
    .ok ({ r0 := tocDescriptor b 0, r1 := (tocDecode (tocCfg b)).dur.tenths }, s)

/-! ### The length code -/

/-- A length code: its value and how many bytes it takes (R145). -/
structure LengthCode where
  /-- The length. -/
  value : Nat
  /-- The bytes used, 1 or 2. -/
  used : Nat
  deriving DecidableEq, Repr

/-- `INVALID_LENGTH` unless `p` (R146, R148 to R155). -/
def requireLength (p : Prop) [Decidable p] : Except Halt Unit :=
  require p (.answer .invalidLength)

/-- `Varint(p, n)` (R145): the length code at address `p` of which `n` bytes remain. -/
def varint (m : ByteSpace) (p n : Nat) : Except Halt LengthCode := do
  requireLength (1 ≤ n)
  let v ← m.get p
  if v.toNat ≤ 251 then .ok { value := v.toNat, used := 1 }
  else do
    requireLength (2 ≤ n)
    let w ← m.get (p + 1)
    .ok { value := w.toNat * 4 + v.toNat, used := 2 }

/-! ### PP.PARSE -/

/-- What a `ParseCode` returns (R147): the scheme and its argument, the length-prefix view, and the payload view. -/
structure Layout where
  /-- The length scheme. -/
  scheme : Scheme
  /-- `arg`. -/
  arg : Nat
  /-- `lpb`. -/
  lpBase : Nat
  /-- `lpl`. -/
  lpLen : Nat
  /-- `p`, the first address of the payload. -/
  payBase : Nat
  /-- `n`, its length. -/
  payLen : Nat
  deriving DecidableEq, Repr

/-- `ParseCode0(p, n)` (R148). -/
def parseCode0 (p n : Nat) : Except Halt Layout := do
  requireLength (n ≤ maxFrame)
  .ok { scheme := .single, arg := 0, lpBase := 0, lpLen := 0, payBase := p, payLen := n }

/-- `ParseCode1(p, n)` (R149). -/
def parseCode1 (p n : Nat) : Except Halt Layout := do
  requireLength (n % 2 = 0 ∧ n ≤ 2 * maxFrame)
  .ok { scheme := .doubleEqual, arg := 0, lpBase := 0, lpLen := 0, payBase := p, payLen := n }

/-- `ParseCode2(p, n)` (R150). -/
def parseCode2 (m : ByteSpace) (p n : Nat) : Except Halt Layout := do
  requireLength (1 ≤ n)
  let b ← m.get p
  require (b ≠ 0) (.answer .dtx)
  let c ← varint m p n
  requireLength (c.value ≤ n - c.used)
  .ok { scheme := .doubleExplicit, arg := c.value, lpBase := 0, lpLen := 0, payBase := p + c.used,
        payLen := n - c.used }

/-- A padding chain read to its end (R152). -/
structure Padding where
  /-- `tp`, the summed padding length. -/
  total : Nat
  /-- `p` after the chain. -/
  next : Nat
  /-- `n` after the chain. -/
  left : Nat
  deriving DecidableEq, Repr

/-- What a padding-length byte of 255 adds (R152, `PAD_CONT`). -/
def padBytes : PadCont → Nat
  | .add255 => 255
  | .add254 => 254

/-- The chain loop of `StripPadding` (R152): `n` bytes remain at `p` and `tp` is summed so far. -/
def padChain (m : ByteSpace) (cont : Nat) : (n p tp : Nat) → Except Halt Padding
  | 0, _, _ => .error (.answer .invalidLength)
  | n + 1, p, tp => do
    let b ← m.get p
    if b = 255 then padChain m cont n (p + 1) (tp + cont)
    else .ok { total := tp + b.toNat, next := p + 1, left := n }

/-- `StripPadding(p, n)` (R152): the bytes after the chain, without the stripped tail. -/
def stripPadding (m : ByteSpace) (cont : Nat) (p n : Nat) : Except Halt (Nat × Nat) := do
  let c ← padChain m cont n p 0
  requireLength (c.total ≤ c.left)
  .ok (c.next, c.left - c.total)

/-- Where the length codes of a VBR packet end (R154). -/
structure CodeRun where
  /-- `sum`, of the lengths read. -/
  sum : Nat
  /-- `p` after the codes. -/
  next : Nat
  /-- `n` after the codes. -/
  left : Nat
  deriving DecidableEq, Repr

/-- The loop of `ParseVbr` (R154): reads this many length codes from `p` on. -/
def vbrCodes (m : ByteSpace) : (count p n sum : Nat) → Except Halt CodeRun
  | 0, p, n, sum => .ok { sum := sum, next := p, left := n }
  | k + 1, p, n, sum => do
    let c ← varint m p n
    vbrCodes m k (p + c.used) (n - c.used) (sum + c.value)

/-- `ParseVbr(p, n, cnt)` (R154). -/
def parseVbr (m : ByteSpace) (p n cnt : Nat) : Except Halt Layout := do
  let r ← vbrCodes m (cnt - 1) p n 0
  requireLength (r.sum ≤ r.left)
  .ok { scheme := .vbr, arg := 0, lpBase := p, lpLen := r.next - p, payBase := r.next, payLen := r.left }

/-- `ParseCbr(p, n, cnt)` (R155). -/
def parseCbr (p n cnt : Nat) : Except Halt Layout := do
  requireLength (n % cnt = 0)
  requireLength (n / cnt ≤ maxFrame)
  .ok { scheme := .cbr, arg := n / cnt, lpBase := 0, lpLen := 0, payBase := p, payLen := n }

/-- Field `cnt` of the code-3 header byte, bits 5:0 (R151). -/
def headerCount (h : Byte) : Nat := (h.extractLsb' 0 6).toNat

/-- Field `pad` of the code-3 header byte, bit 6 (R151). -/
def headerPad (h : Byte) : Bool := h.getLsbD 6

/-- Field `vbr` of the code-3 header byte, bit 7 (R151). -/
def headerVbr (h : Byte) : Bool := h.getLsbD 7

/-- What is left for the lengths and the payload of a code-3 packet whose header byte is `h` (R151): with padding, what
`StripPadding` leaves. -/
def afterPadding (m : ByteSpace) (cont : Nat) (h : Byte) (p n : Nat) : Except Halt (Nat × Nat) :=
  if headerPad h then stripPadding m cont p n else .ok (p, n)

/-- The lengths of a code-3 packet (R151): `ParseVbr` or `ParseCbr`. -/
def parseLengths (m : ByteSpace) (h : Byte) (p n : Nat) : Except Halt Layout :=
  if headerVbr h then parseVbr m p n (headerCount h) else parseCbr p n (headerCount h)

/-- `ParseCode3(p, n)` (R151). -/
def parseCode3 (m : ByteSpace) (cont : Nat) (p n : Nat) : Except Halt Layout := do
  requireLength (1 ≤ n)
  let h ← m.get p
  require (headerCount h ≠ 0) (.answer .invalidFormat)
  let (q, k) ← afterPadding m cont h (p + 1) (n - 1)
  parseLengths m h q k

/-- The case split of `PP.PARSE` on the frame-count code (R147). -/
def parseCode (m : ByteSpace) (cont : Nat) (code : BitVec 2) (p n : Nat) : Except Halt Layout :=
  match code.toNat with
  | 0 => parseCode0 p n
  | 1 => parseCode1 p n
  | 2 => parseCode2 m p n
  | _ => parseCode3 m cont p n

/-- `PP.PARSE` up to its commit (R147): the TOC byte and the layout of the view `(base, len)`. -/
def parsePacket (m : ByteSpace) (cont : Nat) (base len : Nat) : Except Halt (Byte × Layout) := do
  requireLength (len ≠ 0)
  let toc ← m.get base
  let y ← parseCode m cont (tocCode toc) (base + 1) (len - 1)
  .ok (toc, y)

/-- The register writes of `commit` (R156). -/
def commitUnit (toc : Byte) (y : Layout) : PpUnit :=
  let f := tocDecode (tocCfg toc)
  { phase := .parsed, mode := f.mode, bw := f.bw, dur := f.dur, stereo := tocStereo toc, scheme := y.scheme,
    arg := BitVec.ofNat 25 y.arg, payBase := BitVec.ofNat 25 y.payBase, payLen := BitVec.ofNat 25 y.payLen,
    lpBase := BitVec.ofNat 25 y.lpBase, lpLen := BitVec.ofNat 25 y.lpLen }

/-- The results of `commit` (R156): the descriptor, the payload view, and the length of the length-prefix view for `VBR`,
else `arg`. -/
def commitResults (toc : Byte) (y : Layout) : Results :=
  { r0 := tocDescriptor toc y.scheme.code, r1 := BitVec.ofNat 32 y.payBase, r2 := BitVec.ofNat 32 y.payLen,
    r3 := BitVec.ofNat 32 (if y.scheme = .vbr then y.lpLen else y.arg) }

/-- `PP.PARSE base, len` (R147, R156). Legal in both phases. -/
def execPpParse (base len : Word) (s : State) : Host.Outcome State Fault Refusal :=
  conclude s do
    requireOperand (viewLegal base len s.pkt.size)
    let (toc, y) ← parsePacket s.pkt (padBytes s.params.padCont) base.toNat len.toNat
    .ok (commitResults toc y, { s with pp := commitUnit toc y })

end Sys2Proof.Machine
end

