-- ==== Sys2Proof/Machine/PpFrames.lean ====
section
/-!
DEFINITION. The frame-length iterator (44_pp_frames.md): `PP.NEXT`.
-/

namespace Sys2Proof.Machine

/-- The length code at the front of the length-prefix view (R171). R171 says that it is always there: where it is not, the
model stops (log 13). -/
def nextLengthCode (m : ByteSpace) (u : PpUnit) : Except Halt LengthCode :=
  match varint m u.lpBase.toNat u.lpLen.toNat with
  | .ok c => .ok c
  | .error (.answer _) => .error (.fault .lengthCodeMissing)
  | .error (.fault f) => .error (.fault f)

/-- The length of the next frame, and the registers the scheme rewrites with it (R171, R172). -/
def nextLength (m : ByteSpace) (u : PpUnit) : Except Halt (Nat × PpUnit) :=
  match u.scheme with
  | .single => .ok (u.payLen.toNat, u)
  | .doubleEqual => .ok (u.payLen.toNat / 2, { u with scheme := .single })
  | .doubleExplicit => .ok (u.arg.toNat, { u with scheme := .single })
  | .cbr => .ok (u.arg.toNat, u)
  | .vbr =>
    if u.lpLen.toNat = 0 then .ok (u.payLen.toNat, u)
    else do
      let c ← nextLengthCode m u
      .ok (c.value, { u with
        lpBase := BitVec.ofNat 25 (u.lpBase.toNat + c.used)
        lpLen := BitVec.ofNat 25 (u.lpLen.toNat - c.used) })

/-- Hands out a frame of this length from the front of the payload (R171). A frame longer than the payload cannot be
(R171): the model stops (log 13). -/
def takeFrame (size : Nat) (u : PpUnit) : Except Halt PpUnit := do
  require (size ≤ u.payLen.toNat) (.fault .frameOutsidePayload)
  .ok { u with
    payBase := BitVec.ofNat 25 (u.payBase.toNat + size)
    payLen := BitVec.ofNat 25 (u.payLen.toNat - size) }

/-- `PP.NEXT` (R171). -/
def execPpNext (s : State) : Host.Outcome State Fault Refusal :=
  conclude s do
    requireParsed s
    require (s.pp.payLen.toNat ≠ 0) (.answer .ended)
    let (size, u) ← nextLength s.pkt s.pp
    let v ← takeFrame size u
    .ok ({ r0 := s.pp.payBase.setWidth 32, r1 := BitVec.ofNat 32 size }, { s with pp := v })

end Sys2Proof.Machine
end

