-- ==== Sys2Proof/Machine/RdCore.lean ====
section
/-!
DEFINITION. The range decoder core (40_rd_core.md): `RD.INIT`, `RD.DEC`, `RD.DECBIN`, `RD.UPD`.
-/

namespace Sys2Proof.Machine

/-- The RD registers as `RD.INIT` has them just before its first byte is read (R80): the view, the cursors and the raw-bit
cache; `ext` is a free value (log 7). The fields the rule writes after the read are 0 here and written by `startDecoder`. -/
def emptyDecoder (base len : Word) (ext : BitVec 32) : RdUnit :=
  { phase := .ready, val := 0, rng := 0, ext := ext, rem := 0, nbitsTotal := 0, base := base.setWidth 25,
    len := len.setWidth 25, offs := 0, endOffs := 0, endWindow := 0, nendBits := 0 }

/-- The rest of `RD.INIT` (R80): the first byte, `val = 127 - (b0 >> 1)`, `rng = 128`, the counter at 9, one
normalization pass. -/
def startDecoder (m : ByteSpace) (u : RdUnit) : Except Halt RdUnit := do
  let (b0, v) ← fwdByte m u
  normalize m { v with
    val := BitVec.ofNat 31 (127 - b0.toNat / 2)
    rng := 128
    rem := b0
    nbitsTotal := BitVec.ofNat 32 initCnt }

/-- `RD.INIT base, len` (R80). Legal in every phase. -/
def execRdInit (base len : Word) (s : State) : Host.Outcome State Fault Refusal :=
  conclude s do
    requireOperand (viewLegal base len s.pkt.size)
    let u ← startDecoder s.pkt (emptyDecoder base len (Config.freeExt s.freeCount))
    .ok (Results.zero, { s with rd := u, freeCount := s.freeCount + 1 })

/-- `RD.DEC total` (R85). -/
def execRdDec (total : Word) (s : State) : Host.Outcome State Fault Refusal :=
  conclude s do
    requireReady s
    requireOperand (totalLegal total)
    let (offset, u) ← decodeFrequency total.toNat s.rd
    .ok ({ r0 := BitVec.ofNat 32 offset, r1 := u.ext }, { s with rd := { u with phase := .pair } })

/-- `RD.DECBIN bits` (R86). -/
def execRdDecbin (bits : Word) (s : State) : Host.Outcome State Fault Refusal :=
  conclude s do
    requireReady s
    requireOperand (binBitsLegal bits)
    let (offset, u) ← decodeBin bits.toNat s.rd
    .ok ({ r0 := BitVec.ofNat 32 offset, r1 := u.ext }, { s with rd := { u with phase := .pair } })

/-- The checks of `RD.UPD` (R88) in their order: (u1), (u2), (u3). -/
def updateChecks (low high total : Word) (u : RdUnit) : Except Halt Unit := do
  requireOperand (intervalLegal low high total)
  requireOperand (u.ext.toNat * total.toNat ≤ u.rng.toNat)
  let off ← cachedOffset total.toNat u
  requireOperand (low.toNat ≤ off ∧ off < high.toNat)

/-- `RD.UPD low, high, total` (R87, R88). -/
def execRdUpd (low high total : Word) (s : State) : Host.Outcome State Fault Refusal :=
  conclude s do
    requirePair s
    updateChecks low high total s.rd
    let u ← update s.pkt low.toNat high.toNat total.toNat s.rd
    .ok (Results.zero, { s with rd := { u with phase := .ready } })

end Sys2Proof.Machine
end

