-- ==== Sys2Proof/Machine/RdSymbols.lean ====
section
/-!
DEFINITION. The range decoder's symbol commands (41_rd_symbols.md): `RD.BITP`, `RD.ICDF`, `RD.BITS`, `RD.UINT`.
-/

namespace Sys2Proof.Machine

/-- The outcome of `RD.BITP` with the interval `s = rng >> logp` (R100): 1 iff `val < s`. -/
def bitOutcome (part : Nat) (u : RdUnit) : Bool :=
  decide (u.val.toNat < part)

/-- The registers `RD.BITP` writes before it normalizes (R100). -/
def takeBit (part : Nat) (u : RdUnit) : RdUnit :=
  if bitOutcome part u then { u with rng := BitVec.ofNat 32 part }
  else { u with
    val := BitVec.ofNat 31 (u.val.toNat - part)
    rng := BitVec.ofNat 32 (u.rng.toNat - part) }

/-- `RD.BITP logp` (R100). -/
def execRdBitp (logp : Word) (s : State) : Host.Outcome State Fault Refusal :=
  conclude s do
    requireReady s
    requireOperand (logpLegal logp)
    let part := s.rd.rng.toNat >>> logp.toNat
    let u ← normalize s.pkt (takeBit part s.rd)
    .ok ({ r0 := if bitOutcome part s.rd then 1 else 0 }, { s with rd := u })

/-- Where the scan of an ICDF table stopped (R106). -/
structure Symbol where
  /-- The 1-based index `k + 1`. -/
  index : Nat
  /-- `s`, the lower edge of the symbol. -/
  lower : Nat
  /-- `t`, the upper edge of the symbol. -/
  upper : Nat
  deriving DecidableEq, Repr

/-- The scan of `RD.ICDF` (R106) from entry `k` on, with `left` entries left and upper edge `t`: it stops at the first
entry `e` with `val >= r * e`; an entry above `2^ftb`, or none that stops the scan, is refused. -/
def icdfScan (tbl : ByteSpace) (tblBase ftb r val : Nat) : (left k t : Nat) → Except Halt Symbol
  | 0, _, _ => .error (.answer .operand)
  | left + 1, k, t => do
    let e ← tbl.get (tblBase + k)
    requireOperand (e.toNat ≤ 2 ^ ftb)
    if r * e.toNat ≤ val then .ok { index := k + 1, lower := r * e.toNat, upper := t }
    else icdfScan tbl tblBase ftb r val left (k + 1) (r * e.toNat)

/-- The registers `RD.ICDF` writes before it normalizes (R106). -/
def takeSymbol (y : Symbol) (u : RdUnit) : RdUnit :=
  { u with
    val := BitVec.ofNat 31 (u.val.toNat - y.lower)
    rng := BitVec.ofNat 32 (y.upper - y.lower) }

/-- `RD.ICDF tbl_base, tbl_len, ftb` (R105, R106). -/
def execRdIcdf (tblBase tblLen ftb : Word) (s : State) : Host.Outcome State Fault Refusal :=
  conclude s do
    requireReady s
    requireOperand (tableLegal tblBase tblLen s.tbl.size)
    requireOperand (ftbLegal ftb)
    let y ← icdfScan s.tbl tblBase.toNat ftb.toNat (s.rd.rng.toNat >>> ftb.toNat) s.rd.val.toNat
      tblLen.toNat 0 s.rd.rng.toNat
    let u ← normalize s.pkt (takeSymbol y s.rd)
    .ok ({ r0 := BitVec.ofNat 32 y.index }, { s with rd := u })

/-- `RD.BITS n` (R109). -/
def execRdBits (n : Word) (s : State) : Host.Outcome State Fault Refusal :=
  conclude s do
    requireReady s
    requireOperand (rawLegal n)
    let (v, u) ← rawBits s.pkt n.toNat s.rd
    .ok ({ r0 := BitVec.ofNat 32 v }, { s with rd := u })

/-- `ilog(x)`: the number of bits of `x` (R9). -/
def ilog (x : Nat) : Nat :=
  if x = 0 then 0 else Nat.log2 x + 1

/-- `clog2(x) = ilog(x - 1)` for `x >= 1` (R9). -/
def clog2 (x : Nat) : Nat :=
  ilog (x - 1)

/-- `UniformBits(total)` (R112). -/
def uniformBits (p : UniformBits) (total : Nat) : Nat :=
  match p with
  | .ilog => ilog (total - 1)
  | .ceil => clog2 (total - 1) + 1

/-- The body of `RD.UINT` (R113): `Dec` and `Upd` for one symbol of width 1, direct when `bits <= 8`, else the top part
so and the low `bits - 8` bits raw, clamped to `total - 1`. `Upd` here is without the checks of R88, which always pass
(R113, log 18). -/
def decodeUniform (m : ByteSpace) (bits total : Nat) (u : RdUnit) : Except Halt (Nat × RdUnit) :=
  if bits ≤ uintSplit then do
    let (o, v) ← decodeFrequency total u
    let w ← update m o (o + 1) total v
    .ok (o, w)
  else do
    let ftb := bits - 8
    let ft := (total - 1) >>> ftb + 1
    let (o, v) ← decodeFrequency ft u
    let w ← update m o (o + 1) ft v
    let (lo, x) ← rawBits m ftb w
    .ok (min ((o <<< ftb) ||| lo) (total - 1), x)

/-- `RD.UINT total` (R113). -/
def execRdUint (total : Word) (s : State) : Host.Outcome State Fault Refusal :=
  conclude s do
    requireReady s
    requireOperand (uintLegal total)
    let (v, u) ← decodeUniform s.pkt (uniformBits s.params.uniformBits total.toNat) total.toNat s.rd
    .ok ({ r0 := BitVec.ofNat 32 v }, { s with rd := u })

end Sys2Proof.Machine
end

