-- ==== Sys2Proof/Machine/RdTell.lean ====
section
/-!
DEFINITION. The range decoder's bit accounting (42_rd_tell.md): `RD.TELL`, `RD.TELLF`, `RD.TELLFF`. They read `rng` and
`nbits_total` and write nothing.
-/

namespace Sys2Proof.Machine

/-- `rng` is where R120 and R122 give it a logarithm: `2^23 < rng <= 2^31` (log 12). -/
abbrev rngNormalized (rng : Nat) : Prop :=
  codeBot < rng ∧ rng ≤ codeTop

/-- `Lg(rng)` (R120). `flog2` is the floor of the base-2 logarithm, `ilog` the number of bits (R9). -/
def lg (p : TellLog) (rng : Nat) : Nat :=
  match p with
  | .flog2 => Nat.log2 rng
  | .ilog => Nat.log2 rng + 1

/-- The 16-bit view of `rng` (R122, R124). -/
def view16 (rng : Nat) : Nat :=
  rng >>> (Nat.log2 rng - 15)

/-- The squaring loop of `Frac3` (R122): each turn appends one bit of the fraction. -/
def squareLoop : Nat → Nat → Nat → Nat
  | 0, _, f => f
  | k + 1, r, f =>
    let q := (r * r) >>> 15
    let b := q >>> 16
    squareLoop k (q >>> b) ((f <<< 1) ||| b)

/-- `Frac3` of a 16-bit view (R122). -/
def frac3View (r : Nat) : Nat :=
  squareLoop 3 r 0

/-- `Frac3(rng)` (R122). -/
def frac3 (rng : Nat) : Nat :=
  frac3View (view16 rng)

/-- `CORR`, the correction table of `tell_frac_fast` (R124). -/
def correction : Nat → Nat
  | 0 => 35733
  | 1 => 38967
  | 2 => 42495
  | 3 => 46340
  | 4 => 50535
  | 5 => 55109
  | 6 => 60097
  | _ => 65535

/-- `Frac3Fast` of a 16-bit view (R124). -/
def frac3FastView (r : Nat) : Nat :=
  let b := r >>> 12 - 8
  if correction b < r then b + 1 else b

/-- `Frac3Fast(rng)` (R124). -/
def frac3Fast (rng : Nat) : Nat :=
  frac3FastView (view16 rng)

/-- `nbits_total - Lg(rng)`, modulo 2^32 (R121). -/
def tellWhole (p : TellLog) (u : RdUnit) : Word :=
  u.nbitsTotal - BitVec.ofNat 32 (lg p u.rng.toNat)

/-- `8 * nbits_total - (8 * Lg(rng) + frac)`, modulo 2^32 (R123, R125). -/
def tellEighths (p : TellLog) (frac : Nat) (u : RdUnit) : Word :=
  8 * u.nbitsTotal - BitVec.ofNat 32 (8 * lg p u.rng.toNat + frac)

/-- What every tell command checks: the phase (R24), and that `rng` has a logarithm (log 12). -/
def requireTellable (s : State) : Except Halt Unit := do
  requireInitialised s
  require (rngNormalized s.rd.rng.toNat) (.fault .rngNotNormalized)

/-- `RD.TELL` (R121). -/
def execRdTell (s : State) : Host.Outcome State Fault Refusal :=
  conclude s do
    requireTellable s
    .ok ({ r0 := tellWhole s.params.tellLog s.rd }, s)

/-- `RD.TELLF` (R123). -/
def execRdTellf (s : State) : Host.Outcome State Fault Refusal :=
  conclude s do
    requireTellable s
    .ok ({ r0 := tellEighths s.params.tellLog (frac3 s.rd.rng.toNat) s.rd }, s)

/-- `RD.TELLFF` (R125). -/
def execRdTellff (s : State) : Host.Outcome State Fault Refusal :=
  conclude s do
    requireTellable s
    .ok ({ r0 := tellEighths s.params.tellLog (frac3Fast s.rd.rng.toNat) s.rd }, s)

end Sys2Proof.Machine
end

