-- ==== Sys2Proof/Machine/Dispatch.lean ====
section
/-!
DEFINITION. exec: one arm per command of spec/opcode_table.json, each one direct call of its meaning.
-/

namespace Sys2Proof.Machine

def exec (i : Instr) (s : State) : Host.Outcome State Fault Refusal :=
  match i with
  | .rdInit base len => Sys2Proof.Machine.execRdInit base len s
  | .rdDec total => Sys2Proof.Machine.execRdDec total s
  | .rdDecbin bits => Sys2Proof.Machine.execRdDecbin bits s
  | .rdUpd low high total => Sys2Proof.Machine.execRdUpd low high total s
  | .rdBitp logp => Sys2Proof.Machine.execRdBitp logp s
  | .rdIcdf tblBase tblLen ftb => Sys2Proof.Machine.execRdIcdf tblBase tblLen ftb s
  | .rdBits n => Sys2Proof.Machine.execRdBits n s
  | .rdUint total => Sys2Proof.Machine.execRdUint total s
  | .rdTell => Sys2Proof.Machine.execRdTell s
  | .rdTellf => Sys2Proof.Machine.execRdTellf s
  | .rdTellff => Sys2Proof.Machine.execRdTellff s
  | .ppParse base len => Sys2Proof.Machine.execPpParse base len s
  | .ppNext => Sys2Proof.Machine.execPpNext s
  | .ppToc toc => Sys2Proof.Machine.execPpToc toc s

end Sys2Proof.Machine
end

