-- ==== Sys2Proof/Machine/Fetch.lean ====
section
/-!
DEFINITION. The host's end of the command interface (60_exceptions.md R205): issuing a command word, and the block taking the
next one. The block fetches no program (10_state.md R25): the words come from the host (log 1).
-/

namespace Sys2Proof.Machine

/-- The host issues a command word after those it has issued already (R205). -/
def State.issue (s : State) (w : CommandWord) : State :=
  { s with commands := s.commands ++ [w] }

/-- The next command word and the state without it; nothing when the host has issued none. -/
def takeCommand (s : State) : Option (CommandWord × State) :=
  match s.commands with
  | [] => none
  | w :: rest => some (w, { s with commands := rest })

/-- `s` with a command word put before those the host has still to issue. -/
def putCommand (s : State) (w : CommandWord) : State :=
  { s with commands := w :: s.commands }

end Sys2Proof.Machine
end

