-- ==== Sys2Proof/Machine/Step.lean ====
section
/-!
DEFINITION. One step: the block takes the next command word, decodes it, and answers it (00_scope.md R6, 30_encoding.md R69).
-/

namespace Sys2Proof.Machine

/-- One step. With no command issued the block holds its state and does nothing (R203, log 2). A word that is no command is
refused `ILLEGAL` and changes no register (R66, R190). A command is executed. -/
def step (s : State) : Host.Outcome State Fault Refusal :=
  match takeCommand s with
  | none => .next s
  | some (w, t) =>
    match decode w with
    | .error _ => .next (t.refuse .illegal)
    | .ok i => exec i t

/-- `s` with the command whose bits the opcode table numbers as `w` (of which it gives `nbits`) as the next one the host
issues. Nothing else changes. -/
def State.withFetchWord (s : State) (nbits w : Nat) : State :=
  putCommand s (tableWord nbits w)

end Sys2Proof.Machine
end

