-- ==== Sys2Proof/Safety.lean ====
section
/-!
DEFINITION. What counts as a safe state, and the words the statements are written in: the invariant every run from reset
keeps (10_state.md R12 to R20, R33, R34; 43_pp_parse.md R157), the bytes a view holds, what one or more iterations of
`Normalize()` amount to (R82, R84), the raw bits still to come (R108), and the frames a run of `PP.NEXT` hands out (R175).
-/

namespace Sys2Proof.Machine

/-! ### The invariant -/

/-- A byte memory is one R8 allows (1 to 2^24 bytes), in its canonical form. -/
structure ByteSpace.Legal (m : ByteSpace) : Prop where
  /-- At least one byte (R8). -/
  sizePos : 1 ≤ m.size
  /-- At most 2^24 bytes (R8). -/
  sizeMax : m.size ≤ maxView
  /-- Addresses strictly rise and no listed byte is what an unlisted one reads as (log 5). -/
  canonical : m.bytes.wf = true
  /-- Every listed address exists (R40). -/
  inside : ∀ c ∈ m.bytes, c.1 < m.size

/-- What holds of the RD registers whenever `RD.phase` is `READY` or `PAIR`. -/
structure RdUnit.Live (size : Nat) (u : RdUnit) : Prop where
  /-- R12. -/
  rngLow : codeBot < u.rng.toNat
  /-- R12. -/
  rngHigh : u.rng.toNat ≤ codeTop
  /-- R13. -/
  valBelow : u.val.toNat < u.rng.toNat
  /-- R17. -/
  viewInside : u.base.toNat + u.len.toNat ≤ size
  /-- R18. -/
  offsInside : u.offs.toNat ≤ u.len.toNat
  /-- R19. -/
  endOffsInside : u.endOffs.toNat ≤ u.len.toNat
  /-- R20. -/
  cacheSize : u.nendBits.toNat ≤ 32
  /-- R20: bits `nend_bits` and above are 0. -/
  cacheClean : u.endWindow.toNat < 2 ^ u.nendBits.toNat
  /-- R14: `2^7 <= ext <= 2^30` when written; phase `PAIR` is entered only by a command that writes it. -/
  pairExt : u.phase = .pair → 2 ^ 7 ≤ u.ext.toNat ∧ u.ext.toNat ≤ 2 ^ 30

/-- The lengths of the length codes that fill the `len` bytes from `base` on exactly, if they do (R34, R154). The first
number bounds how many codes are read. -/
def lengthCodes (m : ByteSpace) : (bound base len : Nat) → Option (List Nat)
  | _, _, 0 => some []
  | 0, _, _ + 1 => none
  | k + 1, base, len + 1 =>
    match varint m base (len + 1) with
    | .ok c => (lengthCodes m k (base + c.used) (len + 1 - c.used)).map (c.value :: ·)
    | .error _ => none

/-- What holds of the PP registers whenever `PP.phase` is `PARSED`: what `PP.PARSE` checked once (R157), for the part of
the Packet not yet handed out. -/
structure PpUnit.Held (m : ByteSpace) (u : PpUnit) : Prop where
  /-- R33. -/
  payInside : u.payBase.toNat + u.payLen.toNat ≤ m.size
  /-- R149: an even payload of at most 2550 bytes. -/
  equalHalves : u.scheme = .doubleEqual → u.payLen.toNat % 2 = 0 ∧ u.payLen.toNat ≤ 2 * maxFrame
  /-- R32, R150: the first frame's length is 1 to 1275 and fits the payload. -/
  explicitFits : u.scheme = .doubleExplicit → 1 ≤ u.arg.toNat ∧ u.arg.toNat ≤ maxFrame ∧ u.arg.toNat ≤ u.payLen.toNat
  /-- R32, R155: the payload is a whole number of frames of `arg` bytes. -/
  wholeFrames : u.scheme = .cbr → u.payLen.toNat % u.arg.toNat = 0 ∧ u.arg.toNat ≤ maxFrame
  /-- R34, R154: the length-prefix view holds whole length codes, before the payload, that sum to no more than it. -/
  codesFit : u.scheme = .vbr → u.lpBase.toNat + u.lpLen.toNat ≤ u.payBase.toNat ∧
    ∃ ls, lengthCodes m u.lpLen.toNat u.lpBase.toNat u.lpLen.toNat = some ls ∧ ls.sum ≤ u.payLen.toNat
  /-- R34: for other schemes both are 0. -/
  noCodes : u.scheme ≠ .vbr → u.lpBase.toNat = 0 ∧ u.lpLen.toNat = 0

/-- The invariant of the block: it holds at reset and every step keeps it. -/
structure Inv (s : State) : Prop where
  /-- PKT is a legal memory. -/
  pkt : s.pkt.Legal
  /-- TBL is a legal memory. -/
  tbl : s.tbl.Legal
  /-- The RD registers, once initialised. -/
  rd : s.rd.phase ≠ .idle → s.rd.Live s.pkt.size
  /-- The PP registers, once they hold a Packet. -/
  pp : s.pp.phase = .parsed → s.pp.Held s.pkt
  /-- R64: whenever `status` is not `OK`, `R0` to `R3` are all 0. -/
  responses : ∀ r ∈ s.responses, r.status ≠ .ok → r.results = Results.zero

/-! ### Words the statements are written in -/

/-- Which commands are executed by the RD unit (R63). -/
def isRdCommand : Instr → Bool
  | .rdInit _ _ => true
  | .rdDec _ => true
  | .rdDecbin _ => true
  | .rdUpd _ _ _ => true
  | .rdBitp _ => true
  | .rdIcdf _ _ _ => true
  | .rdBits _ => true
  | .rdUint _ => true
  | .rdTell => true
  | .rdTellf => true
  | .rdTellff => true
  | .ppParse _ _ => false
  | .ppNext => false
  | .ppToc _ => false

/-- The table of R24: the phase of the RD unit after a command that completes `OK` in this phase; nothing where the command is
refused `PROTOCOL`. The commands of the PP unit leave it as it is. -/
def rdPhaseAfter : Instr → RdPhase → Option RdPhase
  | .rdInit _ _, _ => some .ready
  | .rdDec _, .ready => some .pair
  | .rdDec _, _ => none
  | .rdDecbin _, .ready => some .pair
  | .rdDecbin _, _ => none
  | .rdUpd _ _ _, .pair => some .ready
  | .rdUpd _ _ _, _ => none
  | .rdBitp _, .ready => some .ready
  | .rdBitp _, _ => none
  | .rdIcdf _ _ _, .ready => some .ready
  | .rdIcdf _ _ _, _ => none
  | .rdBits _, .ready => some .ready
  | .rdBits _, _ => none
  | .rdUint _, .ready => some .ready
  | .rdUint _, _ => none
  | .rdTell, .idle => none
  | .rdTell, p => some p
  | .rdTellf, .idle => none
  | .rdTellf, p => some p
  | .rdTellff, .idle => none
  | .rdTellff, p => some p
  | .ppParse _ _, p => some p
  | .ppNext, p => some p
  | .ppToc _, p => some p

/-- The table of R26, in the same way; the commands of the RD unit leave the phase of the PP unit as it is. -/
def ppPhaseAfter : Instr → PpPhase → Option PpPhase
  | .ppParse _ _, _ => some .parsed
  | .ppNext, .parsed => some .parsed
  | .ppNext, .idle => none
  | .ppToc _, p => some p
  | .rdInit _ _, p => some p
  | .rdDec _, p => some p
  | .rdDecbin _, p => some p
  | .rdUpd _ _ _, p => some p
  | .rdBitp _, p => some p
  | .rdIcdf _ _ _, p => some p
  | .rdBits _, p => some p
  | .rdUint _, p => some p
  | .rdTell, p => some p
  | .rdTellf, p => some p
  | .rdTellff, p => some p

/-- The command is legal in the phase its unit is in (R24, R26). -/
def phaseAllows (i : Instr) (s : State) : Prop :=
  (rdPhaseAfter i s.rd.phase).isSome = true ∧ (ppPhaseAfter i s.pp.phase).isSome = true

/-- Everything but the registers of the two units and the responses is as it was: every byte of both memories reads the same,
and the parameters and the commands still to be issued are the same. -/
structure SameSurroundings (s t : State) : Prop where
  /-- PKT has the same addresses. -/
  pktSize : t.pkt.size = s.pkt.size
  /-- TBL has the same addresses. -/
  tblSize : t.tbl.size = s.tbl.size
  /-- Every byte of PKT reads as before. -/
  pktBytes : ∀ a, t.pkt.bytes.read a = s.pkt.bytes.read a
  /-- Every byte of TBL reads as before. -/
  tblBytes : ∀ a, t.tbl.bytes.read a = s.tbl.bytes.read a
  /-- The parameters are those of the run. -/
  params : t.params = s.params
  /-- The commands still to be issued. -/
  commands : t.commands = s.commands

/-- The response a state was left with last, if any. -/
def State.lastResponse (s : State) : Option Response := s.responses.getLast?

/-- The outcome with `f` applied to its next state. -/
def mapNext (f : State → State) : Host.Outcome State Fault Refusal → Host.Outcome State Fault Refusal
  | .next s => .next (f s)
  | .fault r => .fault r
  | .refused r => .refused r

/-- Which commands take coded bits and leave the raw-bit reader alone (R110). -/
def isCodedCommand : Instr → Bool
  | .rdDec _ => true
  | .rdDecbin _ => true
  | .rdUpd _ _ _ => true
  | .rdBitp _ => true
  | .rdIcdf _ _ _ => true
  | .rdInit _ _ => false
  | .rdBits _ => false
  | .rdUint _ => false
  | .rdTell => false
  | .rdTellf => false
  | .rdTellff => false
  | .ppParse _ _ => false
  | .ppNext => false
  | .ppToc _ => false

/-- `s` with other contents of the raw-bit reader (R19, R20), and the counter moved by `d`. -/
def State.withRawReader (endOffs : BitVec 25) (endWindow : BitVec 32) (nendBits : BitVec 6) (d : BitVec 32) (s : State) :
    State :=
  { s with rd := { s.rd with endOffs := endOffs, endWindow := endWindow, nendBits := nendBits,
                             nbitsTotal := s.rd.nbitsTotal + d } }

/-- `s` with other contents of the coded-bit registers (R11, R12, R14, R15, R18), and the counter moved by `d`. -/
def State.withCoder (val : BitVec 31) (rng ext : BitVec 32) (rem : Byte) (offs : BitVec 25) (d : BitVec 32) (s : State) :
    State :=
  { s with rd := { s.rd with val := val, rng := rng, ext := ext, rem := rem, offs := offs,
                             nbitsTotal := s.rd.nbitsTotal + d } }

/-- `s` after a `PP.PARSE` that completes with this TOC byte and layout (R156). -/
def State.parsed (s : State) (toc : Byte) (y : Layout) : State :=
  { s with pp := commitUnit toc y }.answer .ok (commitResults toc y)

/-- The `k` bytes from `q` on hold the lengths and the payload of the code-3 packet `(base, len)`: all that follows its header
byte, or with padding what is left after the chain (`j` bytes 255 and the byte that ends it) and without the tail the chain
counts (R151 to R153). -/
def Code3Body (m : ByteSpace) (cont base len q k : Nat) : Prop :=
  ((m.bytes.read (base + 1)).toNat / 64 % 2 = 0 ∧ q = base + 2 ∧ k = len - 2) ∨
  ((m.bytes.read (base + 1)).toNat / 64 % 2 = 1 ∧ ∃ j, j < len - 2 ∧
    (∀ i, i < j → m.bytes.read (base + 2 + i) = 255) ∧ m.bytes.read (base + 2 + j) ≠ 255 ∧
    j * cont + (m.bytes.read (base + 2 + j)).toNat ≤ len - 3 - j ∧ q = base + 3 + j ∧
    k = len - 3 - j - (j * cont + (m.bytes.read (base + 2 + j)).toNat))

/-- The number of the byte at forward position `j` of the view of `u`, 0 past its end (R45). -/
def viewByte (m : ByteSpace) (u : RdUnit) (j : Nat) : Nat :=
  if j < u.len.toNat then (m.bytes.read (u.base.toNat + j)).toNat else 0

/-- The next `k` forward bytes of `u` as one number, the first byte highest (R50). -/
def nextBytes (m : ByteSpace) (u : RdUnit) : Nat → Nat
  | 0 => 0
  | k + 1 => nextBytes m u k * 256 + viewByte m u (u.offs.toNat + k)

/-- `v` is `u` with `val` and `rng` written and then normalized by `k` iterations (R82): the `8 k` new symbol bits are the
carried bit and the next `k` bytes without their last bit, complemented. -/
def NormalizedBy (m : ByteSpace) (k : Nat) (u : RdUnit) (val rng : Nat) (v : RdUnit) : Prop :=
  v = { u with
    rng := BitVec.ofNat 32 (rng * 256 ^ k)
    val := BitVec.ofNat 31 (val * 256 ^ k + (256 ^ k - 1 - (u.rem.toNat % 2 * 256 ^ k + nextBytes m u k) / 2))
    rem := if k = 0 then u.rem else BitVec.ofNat 8 (viewByte m u (u.offs.toNat + k - 1))
    nbitsTotal := u.nbitsTotal + BitVec.ofNat 32 (8 * k)
    offs := BitVec.ofNat 25 (min (u.offs.toNat + k) u.len.toNat) }

/-- `v` is `u` with `val` and `rng` written and then normalized (R82, R84 (b)): by the least number of iterations that
brings `rng` above 2^23. -/
def Normalized (m : ByteSpace) (u : RdUnit) (val rng : Nat) (v : RdUnit) : Prop :=
  ∃ k, k ≤ 3 ∧ codeBot < rng * 256 ^ k ∧ (∀ j, j < k → rng * 256 ^ j ≤ codeBot) ∧ NormalizedBy m k u val rng v

/-- The first `k` bytes from `base` on as one number, the last byte lowest. -/
def viewNumber (m : ByteSpace) (base : Nat) : Nat → Nat
  | 0 => 0
  | k + 1 => viewNumber m base k * 256 + (m.bytes.read (base + k)).toNat

/-- The raw bits still to come, the next one lowest (R51, R108): the cached bits, then the tail bytes not yet read. -/
def rawStream (m : ByteSpace) (u : RdUnit) : Nat :=
  u.endWindow.toNat + 2 ^ u.nendBits.toNat * viewNumber m u.base.toNat (u.len.toNat - u.endOffs.toNat)

/-- `v` is `u` after `n` raw bits have been taken (R108): only the tail cursor, the cache and the counter differ, and the
raw bits still to come are those of `u` without the first `n`. -/
def RawTaken (m : ByteSpace) (n : Nat) (u v : RdUnit) : Prop :=
  rawStream m v = rawStream m u / 2 ^ n ∧
    v = { u with endOffs := v.endOffs, endWindow := v.endWindow, nendBits := v.nendBits,
                 nbitsTotal := u.nbitsTotal + BitVec.ofNat 32 n }

/-- Entry `k` of the ICDF table at `tblBase` (R104, R105). -/
def tableEntry (m : ByteSpace) (tblBase : Word) (k : Nat) : Nat :=
  (m.bytes.read (tblBase.toNat + k)).toNat

/-- `k` commands `PP.NEXT` one after another. -/
def runNext : Nat → State → Host.Outcome State Fault Refusal
  | 0, s => .next s
  | k + 1, s =>
    match exec .ppNext s with
    | .next t => runNext k t
    | .fault f => .fault f
    | .refused r => .refused r

/-- The responses are `OK` frame views that tile `len` bytes from `base` on in order, with no gap and no overlap (R175). -/
def Tiles : (base len : Nat) → List Response → Prop
  | _, len, [] => len = 0
  | base, len, r :: rest =>
    r.status = .ok ∧ r.results.r0.toNat = base ∧ r.results.r1.toNat ≤ len ∧
      Tiles (base + r.results.r1.toNat) (len - r.results.r1.toNat) rest

/-- The length codes `ls` stand one after another from `p` on, within `n` bytes, and take `used` bytes (R145, R154). -/
def CodesAt (m : ByteSpace) : (p n : Nat) → (ls : List Nat) → (used : Nat) → Prop
  | _, _, [], used => used = 0
  | p, n, l :: ls, used =>
    ∃ c : LengthCode, varint m p n = .ok c ∧ c.value = l ∧ c.used ≤ used ∧
      CodesAt m (p + c.used) (n - c.used) ls (used - c.used)

end Sys2Proof.Machine
end

