-- ==== Sys2Proof/Certificates/Slice0/Obligations.lean ====
section
/-!
DEFINITION. The statements for the provers. Each says of the model what the rules of spec/ named in its docstring say of the
block. `Inv` (Sys2Proof/Safety.lean) rules out register contents that no run reaches.
-/

section
open Sys2Proof Sys2Proof.Machine

/-! ### Encoding -/

/-- Decoding the word of a command gives the command back, with every operand at every value (R60 to R63). -/
def Obligations.DecodingAnEncodedCommandGivesItBack : Prop :=
  ∀ i : Instr, decode (encode i) = .ok i

/-- A word that decodes to a command is that command's one encoding: no bit of it is dropped (R60, R61, R67). -/
def Obligations.ACommandWordIsTheEncodingOfItsCommand : Prop :=
  ∀ (w : CommandWord) (i : Instr), decode w = .ok i → encode i = w

/-- R61: the masks of the four formats; a word is the command of a row iff `w & mask = match`, and no word matches two
rows. -/
def Obligations.AWordIsTheCommandOfTheRowItMatches : Prop :=
  [Format.z, .a, .ab, .abc].map Format.mask = [0xFFFFFFFFFFFFFFFFFFFFFFFFFF#104, 0xFF00000000FFFFFFFFFFFFFFFF#104,
    0xFF0000000000000000FFFFFFFF#104, 0xFF000000000000000000000000#104] ∧
  ∀ w : CommandWord,
    (∀ r ∈ opcodeTable, (∃ i, decode w = .ok i ∧ rowOf i = r) ↔ w &&& r.format.mask = wordOf r.op 0 0 0) ∧
    ∀ r ∈ opcodeTable, ∀ r' ∈ opcodeTable, r.Matches w → r'.Matches w → r = r'

/-- One word per command, written out from the tables of R60 and R63, decodes to the command it stands for. -/
def Obligations.WordsOfTheSpecDecode : Prop :=
  decode 0x10000000000000001000000000#104 = .ok (.rdInit 0 16) ∧
  decode 0x110000000A0000000000000000#104 = .ok (.rdDec 10) ∧
  decode 0x12000000040000000000000000#104 = .ok (.rdDecbin 4) ∧
  decode 0x1300000006000000070000000A#104 = .ok (.rdUpd 6 7 10) ∧
  decode 0x14000000030000000000000000#104 = .ok (.rdBitp 3) ∧
  decode 0x15000000000000000800000008#104 = .ok (.rdIcdf 0 8 8) ∧
  decode 0x16000000190000000000000000#104 = .ok (.rdBits 25) ∧
  decode 0x17000003E80000000000000000#104 = .ok (.rdUint 1000) ∧
  decode 0x18000000000000000000000000#104 = .ok .rdTell ∧
  decode 0x19000000000000000000000000#104 = .ok .rdTellf ∧
  decode 0x1A000000000000000000000000#104 = .ok .rdTellff ∧
  decode 0x20000000040000000A00000000#104 = .ok (.ppParse 4 10) ∧
  decode 0x21000000000000000000000000#104 = .ok .ppNext ∧
  decode 0x220000007C0000000000000000#104 = .ok (.ppToc 0x7C)

/-- R66: a word that matches no row is answered `ILLEGAL` with zero results, and no register changes. Those words are the
ones with an unassigned opcode and the ones with an assigned opcode and a non-zero unused field; the all-zero and the all-ones
word are among them. -/
def Obligations.IllegalWordsAreRefused : Prop :=
  (∀ (s : State) (w : CommandWord) (rest : List CommandWord), s.commands = w :: rest →
    (∀ r ∈ opcodeTable, ¬ r.Matches w) → step s = .next ({ s with commands := rest }.refuse .illegal)) ∧
  (∀ w : CommandWord, (∀ r ∈ opcodeTable, ¬ r.Matches w) ↔
    ((fieldOp w).toNat ≤ 0x0F ∨ (0x1B ≤ (fieldOp w).toNat ∧ (fieldOp w).toNat ≤ 0x1F) ∨ 0x23 ≤ (fieldOp w).toNat) ∨
    (fieldOp w ∈ [0x10, 0x20] ∧ fieldC w ≠ 0) ∨
    (fieldOp w ∈ [0x11, 0x12, 0x14, 0x16, 0x17, 0x22] ∧ (fieldB w ≠ 0 ∨ fieldC w ≠ 0)) ∨
    (fieldOp w ∈ [0x18, 0x19, 0x1A, 0x21] ∧ (fieldA w ≠ 0 ∨ fieldB w ≠ 0 ∨ fieldC w ≠ 0))) ∧
  (∀ r ∈ opcodeTable, ¬ r.Matches 0 ∧ ¬ r.Matches (BitVec.allOnes 104))

/-- A step takes the next command word: when it decodes to a command, the step is that command's execution on the state
without the word (R69); with no word left the block holds its state (R203; log 2, DEDUCED). -/
def Obligations.AStepRunsTheDecodedCommand : Prop :=
  (∀ (s : State) (w : CommandWord) (rest : List CommandWord) (i : Instr), s.commands = w :: rest → decode w = .ok i →
    step s = exec i { s with commands := rest }) ∧
  (∀ s : State, s.commands = [] → step s = .next s)

/-! ### Reset, the invariant, the outcomes -/

/-- R38: after hardware reset both phase registers are `IDLE`, and no rule reads a register that holds no value. While a
unit is `IDLE`, whatever its other registers hold, every command gives the same responses, and the same registers once the
unit is initialised. -/
def Obligations.IdleRegistersAreNeverRead : Prop :=
  (State.reset.rd.phase = .idle ∧ State.reset.pp.phase = .idle) ∧
  ∀ (i : Instr) (s : State),
    (∀ u : RdUnit, s.rd.phase = .idle → u.phase = .idle →
      exec i { s with rd := u } = mapNext (fun t => { t with rd := if t.rd.phase = .idle then u else t.rd }) (exec i s)) ∧
    (∀ v : PpUnit, s.pp.phase = .idle → v.phase = .idle →
      exec i { s with pp := v } = mapNext (fun t => { t with pp := if t.pp.phase = .idle then v else t.pp }) (exec i s))

/-- The invariant holds at reset, with the memory sizes and contents the model chose there (log 4, log 5). -/
def Obligations.ResetMeetsTheInvariant : Prop :=
  Inv State.reset

/-- Every step keeps the invariant: R12, R13, R14, R17 to R20, R33, R34, R157 and the canonical form of both memories. -/
def Obligations.EveryStepKeepsTheInvariant : Prop :=
  ∀ s t : State, Inv s → step s = .next t → Inv t

/-- Under the invariant every step answers: no command stops the machine, whatever the words, the operands and the packet
bytes (R190, R194, R220). -/
def Obligations.EveryStepAnswers : Prop :=
  ∀ s : State, Inv s → ∃ t, step s = .next t

/-- R41: the block never writes PKT or TBL; nor does it touch the parameters of the run (R8). -/
def Obligations.NoStepWritesMemory : Prop :=
  (∀ (i : Instr) (s t : State), exec i s = .next t → SameSurroundings s t) ∧
  ∀ s t : State, step s = .next t → t.pkt.size = s.pkt.size ∧ t.tbl.size = s.tbl.size ∧ t.params = s.params ∧
    (∀ a, t.pkt.bytes.read a = s.pkt.bytes.read a) ∧ ∀ a, t.tbl.bytes.read a = s.tbl.bytes.read a

/-- R10: no `RD.*` command reads or writes a PP register, and no `PP.*` command reads or writes an RD register. -/
def Obligations.TheUnitsAreIndependent : Prop :=
  ∀ (i : Instr) (s : State),
    (isRdCommand i = true → ∀ q : PpUnit, exec i { s with pp := q } = mapNext (fun t => { t with pp := q }) (exec i s)) ∧
    (isRdCommand i = false → ∀ (u : RdUnit) (n : Nat),
      exec i { s with rd := u, freeCount := n } = mapNext (fun t => { t with rd := u, freeCount := n }) (exec i s))

/-- Every command is answered by exactly one response; when its status is not `OK` its results are zero and nothing else of
the state changes (R64, R190, R192, R198). -/
def Obligations.EveryCommandIsAnsweredOnce : Prop :=
  ∀ (i : Instr) (s t : State), exec i s = .next t →
    (∃ st, st ≠ Status.ok ∧ t = s.refuse st) ∨
    (∃ r, t.responses = s.responses ++ [{ status := .ok, results := r }])

/-- The response word (R64) and the status codes (R65). -/
def Obligations.ResponseWordFields : Prop :=
  (∀ r : Response, r.word.extractLsb' 128 4 = r.status.code ∧ r.word.extractLsb' 96 32 = r.results.r0 ∧
    r.word.extractLsb' 64 32 = r.results.r1 ∧ r.word.extractLsb' 32 32 = r.results.r2 ∧
    r.word.extractLsb' 0 32 = r.results.r3) ∧
  [Status.ok, .ended, .dtx, .invalidLength, .invalidFormat, .illegal, .protocol, .operand].map Status.code =
    [0x0, 0x1, 0x2, 0x3, 0x4, 0x8, 0x9, 0xA]

/-- Which statuses and which result fields a command may answer with (the tables of R64 and R65; R192, R195). -/
def Obligations.StatusesAndResultsByCommand : Prop :=
  ∀ (i : Instr) (s t : State) (r : Response), exec i s = .next t → t.lastResponse = some r →
    r.status ≠ .illegal ∧ (r.status = .ended → i = .ppNext) ∧
    (r.status = .dtx ∨ r.status = .invalidLength ∨ r.status = .invalidFormat → ∃ base len, i = .ppParse base len) ∧
    match i with
    | .rdInit _ _ => r.results = .zero ∧ r.status ≠ .protocol
    | .rdUpd _ _ _ => r.results = .zero
    | .rdDec _ => r.results.r2 = 0 ∧ r.results.r3 = 0
    | .rdDecbin _ => r.results.r2 = 0 ∧ r.results.r3 = 0
    | .rdBitp _ => r.results.r0.toNat ≤ 1 ∧ r.results.r1 = 0 ∧ r.results.r2 = 0 ∧ r.results.r3 = 0
    | .rdIcdf _ _ _ => r.results.r1 = 0 ∧ r.results.r2 = 0 ∧ r.results.r3 = 0
    | .rdBits _ => r.results.r1 = 0 ∧ r.results.r2 = 0 ∧ r.results.r3 = 0
    | .rdUint _ => r.results.r1 = 0 ∧ r.results.r2 = 0 ∧ r.results.r3 = 0
    | .rdTell => r.results.r1 = 0 ∧ r.results.r2 = 0 ∧ r.results.r3 = 0 ∧ r.status ≠ .operand
    | .rdTellf => r.results.r1 = 0 ∧ r.results.r2 = 0 ∧ r.results.r3 = 0 ∧ r.status ≠ .operand
    | .rdTellff => r.results.r1 = 0 ∧ r.results.r2 = 0 ∧ r.results.r3 = 0 ∧ r.status ≠ .operand
    | .ppParse _ _ => r.status ≠ .protocol
    | .ppNext => r.results.r2 = 0 ∧ r.results.r3 = 0 ∧ r.status ≠ .operand
    | .ppToc _ => r.results.r2 = 0 ∧ r.results.r3 = 0 ∧ r.status ≠ .protocol

/-- R24: the RD phase machine. A command the table does not allow is refused `PROTOCOL` and changes nothing; after an allowed
one the phase is the table's if it completes `OK`, else as it was. -/
def Obligations.RdPhaseMachine : Prop :=
  ∀ (i : Instr) (s : State), isRdCommand i = true →
    match rdPhaseAfter i s.rd.phase with
    | none => exec i s = .next (s.refuse .protocol)
    | some p => ∀ (t : State) (r : Response), exec i s = .next t → t.lastResponse = some r →
        r.status ≠ .protocol ∧ t.rd.phase = if r.status = .ok then p else s.rd.phase

/-- R26: the PP phase machine. A `PP.PARSE` that fails or is refused, and a `PP.NEXT` that ends, leave every PP register as it
was. -/
def Obligations.PpPhaseMachine : Prop :=
  ∀ (i : Instr) (s : State), isRdCommand i = false →
    match ppPhaseAfter i s.pp.phase with
    | none => exec i s = .next (s.refuse .protocol)
    | some p => ∀ (t : State) (r : Response), exec i s = .next t → t.lastResponse = some r →
        r.status ≠ .protocol ∧ (r.status = .ok → t.pp.phase = p) ∧ (r.status ≠ .ok → t.pp = s.pp)

/-- R44, R105 and the operand ranges of R191: in a phase that allows the command, an operand outside its range is refused
`OPERAND` and changes nothing; a legal view is never refused so. -/
def Obligations.OperandsOutsideTheirRangeAreRefused : Prop :=
  (∀ (i : Instr) (s : State), phaseAllows i s → i.WellFormed = false → exec i s = .next (s.refuse .operand)) ∧
  (∀ (base len : Word) (s : State),
    (¬ (base.toNat ≤ 2 ^ 24 ∧ len.toNat ≤ 2 ^ 24 ∧ base.toNat + len.toNat ≤ s.pkt.size) →
      exec (.rdInit base len) s = .next (s.refuse .operand) ∧ exec (.ppParse base len) s = .next (s.refuse .operand)) ∧
    (base.toNat ≤ 2 ^ 24 → len.toNat ≤ 2 ^ 24 → base.toNat + len.toNat ≤ s.pkt.size →
      exec (.rdInit base len) s ≠ .next (s.refuse .operand) ∧ exec (.ppParse base len) s ≠ .next (s.refuse .operand))) ∧
  (∀ (tblBase tblLen ftb : Word) (s : State), s.rd.phase = .ready →
    ¬ (1 ≤ tblLen.toNat ∧ tblBase.toNat ≤ 2 ^ 24 ∧ tblLen.toNat ≤ 2 ^ 24 ∧ tblBase.toNat + tblLen.toNat ≤ s.tbl.size) →
    exec (.rdIcdf tblBase tblLen ftb) s = .next (s.refuse .operand))

/-! ### The range decoder core -/

/-- R83: the state after `RD.INIT` in closed form, for every legal view, from every state. `ext` and the
model's own counter of free values are left open (log 7, log 8). -/
def Obligations.RdInitStartsTheDecoder : Prop :=
  ∀ (base len : Word) (s : State), base.toNat ≤ 2 ^ 24 → len.toNat ≤ 2 ^ 24 → base.toNat + len.toNat ≤ s.pkt.size →
    let b := fun j : Nat => if j < len.toNat then (s.pkt.bytes.read (base.toNat + j)).toNat else 0
    let w := ((b 0 * 256 + b 1) * 256 + b 2) * 256 + b 3
    ∃ (e : BitVec 32) (n : Nat), exec (.rdInit base len) s = .next ({ s with
      rd := { phase := .ready, val := BitVec.ofNat 31 (0x7FFFFFFF - w / 2), rng := 0x80000000, ext := e,
              rem := BitVec.ofNat 8 (b 3), nbitsTotal := 33, base := BitVec.ofNat 25 base.toNat,
              len := BitVec.ofNat 25 len.toNat, offs := BitVec.ofNat 25 (min len.toNat 4), endOffs := 0, endWindow := 0,
              nendBits := 0 }
      freeCount := n }.answer .ok .zero)

/-- R212: `RD.INIT` and a `PP.PARSE` completing `OK` are complete re-initialisations of their unit: the state after does not
depend on the unit's registers before. -/
def Obligations.ReinitialisationForgetsTheUnit : Prop :=
  (∀ (base len : Word) (s : State) (u : RdUnit), viewLegal base len s.pkt.size →
    exec (.rdInit base len) { s with rd := u } = exec (.rdInit base len) s) ∧
  (∀ (base len : Word) (s t : State) (v : PpUnit) (r : Response), exec (.ppParse base len) s = .next t →
    t.lastResponse = some r → r.status = .ok → exec (.ppParse base len) { s with pp := v } = .next t)

/-- R82: `Normalize()` is the loop the rule writes, for every `rng >= 1`; and one turn of it in numbers. -/
def Obligations.NormalizeIsTheLoop : Prop :=
  (∀ (m : ByteSpace) (u : RdUnit), 1 ≤ u.rng.toNat →
    normalize m u = if u.rng.toNat ≤ 0x00800000 then (do let v ← normalizeStep m u; normalize m v) else .ok u) ∧
  (∀ (m : ByteSpace) (u : RdUnit), u.base.toNat + u.len.toNat ≤ m.size → u.rng.toNat ≤ 0x00800000 →
    let b : Byte := if u.offs.toNat < u.len.toNat then m.bytes.read (u.base.toNat + u.offs.toNat) else 0
    let sym := (u.rem.toNat * 256 + b.toNat) / 2 % 256
    normalizeStep m u = .ok { u with
      nbitsTotal := u.nbitsTotal + 8
      rng := u.rng <<< 8
      rem := b
      val := BitVec.ofNat 31 (u.val.toNat * 256 + (255 - sym))
      offs := if u.offs.toNat < u.len.toNat then u.offs + 1 else u.offs })

/-- R85: `RD.DEC`, whole: what it writes and answers, the bounds of the divisor and the offset, and its refusals. -/
def Obligations.RdDecAnswersTheOffset : Prop :=
  ∀ (total : Word) (s : State),
    (s.rd.phase ≠ .ready → exec (.rdDec total) s = .next (s.refuse .protocol)) ∧
    (s.rd.phase = .ready → ¬ (2 ≤ total.toNat ∧ total.toNat ≤ 65536) →
      exec (.rdDec total) s = .next (s.refuse .operand)) ∧
    (Inv s → s.rd.phase = .ready → 2 ≤ total.toNat → total.toNat ≤ 65536 →
      let ext := s.rd.rng.toNat / total.toNat
      let offset := total.toNat - min (s.rd.val.toNat / ext + 1) total.toNat
      exec (.rdDec total) s = .next ({ s with rd := { s.rd with ext := BitVec.ofNat 32 ext, phase := .pair } }.answer .ok
        { r0 := BitVec.ofNat 32 offset, r1 := BitVec.ofNat 32 ext }) ∧
      2 ^ 7 ≤ ext ∧ ext ≤ 2 ^ 30 ∧ offset ≤ total.toNat - 1 ∧ (offset = total.toNat - 1 ↔ s.rd.val.toNat < ext))

/-- R86: `RD.DECBIN`, whole: it is `RD.DEC 2^bits`, with its own operand range. -/
def Obligations.RdDecbinAnswersTheOffset : Prop :=
  ∀ (bits : Word) (s : State),
    (s.rd.phase ≠ .ready → exec (.rdDecbin bits) s = .next (s.refuse .protocol)) ∧
    (s.rd.phase = .ready → ¬ (1 ≤ bits.toNat ∧ bits.toNat ≤ 16) → exec (.rdDecbin bits) s = .next (s.refuse .operand)) ∧
    (1 ≤ bits.toNat → bits.toNat ≤ 16 → exec (.rdDecbin bits) s = exec (.rdDec (BitVec.ofNat 32 (2 ^ bits.toNat))) s) ∧
    (Inv s → s.rd.phase = .ready → 1 ≤ bits.toNat → bits.toNat ≤ 16 →
      let ext := s.rd.rng.toNat / 2 ^ bits.toNat
      exec (.rdDecbin bits) s = .next ({ s with rd := { s.rd with ext := BitVec.ofNat 32 ext, phase := .pair } }.answer .ok
        { r0 := BitVec.ofNat 32 (2 ^ bits.toNat - min (s.rd.val.toNat / ext + 1) (2 ^ bits.toNat)),
          r1 := BitVec.ofNat 32 ext }))

/-- R87: `RD.UPD`, whole: it is legal in `PAIR` only; where a check of R88 fails it is refused; else it takes the excluded
tail from `val`, shrinks `rng` to the symbol's part, normalizes and leaves `PAIR`; `0, total, total` leaves `val` and `rng` as
they are. -/
def Obligations.RdUpdNarrowsToTheSymbol : Prop :=
  ∀ (low high total : Word) (s : State),
    (s.rd.phase ≠ .pair → exec (.rdUpd low high total) s = .next (s.refuse .protocol)) ∧
    (Inv s → s.rd.phase = .pair →
      let ext := s.rd.ext.toNat
      let off := total.toNat - min (s.rd.val.toNat / ext + 1) total.toNat
      let part := ext * (total.toNat - high.toNat)
      let checks := (low.toNat < high.toNat ∧ high.toNat ≤ total.toNat ∧ 2 ≤ total.toNat ∧ total.toNat ≤ 65536) ∧
        ext * total.toNat ≤ s.rd.rng.toNat ∧ low.toNat ≤ off ∧ off < high.toNat
      (¬ checks → exec (.rdUpd low high total) s = .next (s.refuse .operand)) ∧
      (checks → ∃ u, Normalized s.pkt s.rd (s.rd.val.toNat - part)
          (if 0 < low.toNat then ext * (high.toNat - low.toNat) else s.rd.rng.toNat - part) u ∧
        exec (.rdUpd low high total) s = .next ({ s with rd := { u with phase := .ready } }.answer .ok .zero)) ∧
      (checks → low = 0 → high = total →
        exec (.rdUpd low high total) s = .next ({ s with rd := { s.rd with phase := .ready } }.answer .ok .zero)))

/-- R88: the checks of `RD.UPD`: where one fails it is refused `OPERAND` and the phase stays `PAIR`; (u3) is the pair of
conditions on `val`; and the checks bound the new `rng`. -/
def Obligations.RdUpdChecks : Prop :=
  ∀ (low high total : Word) (s : State), Inv s → s.rd.phase = .pair →
    let ext := s.rd.ext.toNat
    let off := total.toNat - min (s.rd.val.toNat / ext + 1) total.toNat
    let part := ext * (total.toNat - high.toNat)
    let rng := if 0 < low.toNat then ext * (high.toNat - low.toNat) else s.rd.rng.toNat - part
    let u1 := low.toNat < high.toNat ∧ high.toNat ≤ total.toNat ∧ 2 ≤ total.toNat ∧ total.toNat ≤ 65536
    let u2 := ext * total.toNat ≤ s.rd.rng.toNat
    let u3 := low.toNat ≤ off ∧ off < high.toNat
    (¬ (u1 ∧ u2 ∧ u3) → exec (.rdUpd low high total) s = .next (s.refuse .operand)) ∧
    (u1 → u2 → (u3 ↔ part ≤ s.rd.val.toNat ∧ s.rd.val.toNat - part < rng)) ∧
    (u1 → u2 → u3 → 1 ≤ rng ∧ rng ≤ s.rd.rng.toNat)

/-- R89: the pairing contract. After an `RD.DEC` or `RD.DECBIN` that answered the offset `o`, `RD.UPD low, high, total` with
`low <= o < high <= total` and the same `total` is never refused; and until then every other decoding command is. -/
def Obligations.PairedUpdateIsNeverRefused : Prop :=
  (∀ (s : State) (x y z : Word), s.rd.phase = .pair →
    exec (.rdDec x) s = .next (s.refuse .protocol) ∧ exec (.rdDecbin x) s = .next (s.refuse .protocol) ∧
    exec (.rdBitp x) s = .next (s.refuse .protocol) ∧ exec (.rdIcdf x y z) s = .next (s.refuse .protocol) ∧
    exec (.rdBits x) s = .next (s.refuse .protocol) ∧ exec (.rdUint x) s = .next (s.refuse .protocol)) ∧
  (∀ (total o ext low high : Word) (s t : State), Inv s → exec (.rdDec total) s = .next t →
    t.lastResponse = some { status := .ok, results := { r0 := o, r1 := ext } } →
    low.toNat ≤ o.toNat → o.toNat < high.toNat → high.toNat ≤ total.toNat →
    ∃ v, exec (.rdUpd low high total) t = .next v ∧ v.lastResponse = some { status := .ok, results := .zero }) ∧
  (∀ (bits o ext low high : Word) (s t : State), Inv s → exec (.rdDecbin bits) s = .next t →
    t.lastResponse = some { status := .ok, results := { r0 := o, r1 := ext } } →
    low.toNat ≤ o.toNat → o.toNat < high.toNat → high.toNat ≤ 2 ^ bits.toNat →
    ∃ v, exec (.rdUpd low high (BitVec.ofNat 32 (2 ^ bits.toNat))) t = .next v ∧
      v.lastResponse = some { status := .ok, results := .zero })

/-! ### The symbol commands -/

/-- R100: `RD.BITP`, whole: the outcome, the registers, the bounds of the part, and its refusals. -/
def Obligations.RdBitpDecodesOneBit : Prop :=
  ∀ (logp : Word) (s : State),
    (s.rd.phase ≠ .ready → exec (.rdBitp logp) s = .next (s.refuse .protocol)) ∧
    (s.rd.phase = .ready → ¬ (1 ≤ logp.toNat ∧ logp.toNat ≤ 16) → exec (.rdBitp logp) s = .next (s.refuse .operand)) ∧
    (Inv s → s.rd.phase = .ready → 1 ≤ logp.toNat → logp.toNat ≤ 16 →
      let part := s.rd.rng.toNat / 2 ^ logp.toNat
      2 ^ 7 ≤ part ∧ part ≤ 2 ^ 30 ∧
      (s.rd.val.toNat < part → ∃ u, Normalized s.pkt s.rd s.rd.val.toNat part u ∧
        exec (.rdBitp logp) s = .next ({ s with rd := u }.answer .ok { r0 := 1 })) ∧
      (part ≤ s.rd.val.toNat → ∃ u, Normalized s.pkt s.rd (s.rd.val.toNat - part) (s.rd.rng.toNat - part) u ∧
        exec (.rdBitp logp) s = .next ({ s with rd := u }.answer .ok { r0 := 0 })))

/-- R101: `RD.BITP logp` has the effect of `RD.DECBIN logp` and the `RD.UPD` that goes with its outcome, but for `ext`. -/
def Obligations.RdBitpIsDecbinThenUpd : Prop :=
  ∀ (logp : Word) (s : State), Inv s → s.rd.phase = .ready → 1 ≤ logp.toNat → logp.toNat ≤ 16 →
    ∃ (t₁ t₂ t₃ : State) (bit o ext : Word),
      exec (.rdBitp logp) s = .next t₁ ∧ t₁.lastResponse = some { status := .ok, results := { r0 := bit } } ∧
      exec (.rdDecbin logp) s = .next t₂ ∧ t₂.lastResponse = some { status := .ok, results := { r0 := o, r1 := ext } } ∧
      exec (.rdUpd (if o.toNat = 2 ^ logp.toNat - 1 then BitVec.ofNat 32 (2 ^ logp.toNat - 1) else 0)
        (if o.toNat = 2 ^ logp.toNat - 1 then BitVec.ofNat 32 (2 ^ logp.toNat) else BitVec.ofNat 32 (2 ^ logp.toNat - 1))
        (BitVec.ofNat 32 (2 ^ logp.toNat))) t₂ = .next t₃ ∧
      t₃.lastResponse = some { status := .ok, results := .zero } ∧
      t₃.rd = { t₁.rd with ext := t₃.rd.ext } ∧ t₁.rd.ext = s.rd.ext ∧
      bit = if o.toNat = 2 ^ logp.toNat - 1 then 1 else 0

/-- R106: `RD.ICDF` returns the first entry that `val` reaches, 1-based, and narrows to it. -/
def Obligations.RdIcdfReturnsTheFirstEntryReached : Prop :=
  ∀ (tblBase tblLen ftb : Word) (s : State) (k : Nat), Inv s → s.rd.phase = .ready →
    tableLegal tblBase tblLen s.tbl.size → 1 ≤ ftb.toNat → ftb.toNat ≤ 16 → k < tblLen.toNat →
    let e := tableEntry s.tbl tblBase
    let r := s.rd.rng.toNat / 2 ^ ftb.toNat
    (∀ j, j ≤ k → e j ≤ 2 ^ ftb.toNat) → (∀ j, j < k → s.rd.val.toNat < r * e j) → r * e k ≤ s.rd.val.toNat →
    ∃ u, Normalized s.pkt s.rd (s.rd.val.toNat - r * e k)
        ((if k = 0 then s.rd.rng.toNat else r * e (k - 1)) - r * e k) u ∧
      exec (.rdIcdf tblBase tblLen ftb) s = .next ({ s with rd := u }.answer .ok { r0 := BitVec.ofNat 32 (k + 1) })

/-- R106: `RD.ICDF` is refused `OPERAND`, and changes nothing, where the scan meets an entry above `2^ftb` or the end of the
table before an entry that `val` reaches. -/
def Obligations.RdIcdfRefusesABadTable : Prop :=
  ∀ (tblBase tblLen ftb : Word) (s : State) (k : Nat), s.rd.phase = .ready →
    tableLegal tblBase tblLen s.tbl.size → 1 ≤ ftb.toNat → ftb.toNat ≤ 16 → k ≤ tblLen.toNat →
    let e := tableEntry s.tbl tblBase
    (∀ j, j < k → e j ≤ 2 ^ ftb.toNat ∧ s.rd.val.toNat < s.rd.rng.toNat / 2 ^ ftb.toNat * e j) →
    (k = tblLen.toNat ∨ 2 ^ ftb.toNat < e k) →
    exec (.rdIcdf tblBase tblLen ftb) s = .next (s.refuse .operand)

/-- R107 (a), (b), (d): a completed `RD.ICDF` answers an index from 1 to `tbl_len`; with a table that ends in 0 and has no
entry above `2^ftb` it always completes; with a table whose first entry is 0 it answers 1 and leaves `val` and `rng` alone. -/
def Obligations.ATerminatedTableAlwaysDecodes : Prop :=
  ∀ (tblBase tblLen ftb : Word) (s : State), Inv s → s.rd.phase = .ready →
    (∀ (t : State) (r : Response), exec (.rdIcdf tblBase tblLen ftb) s = .next t → t.lastResponse = some r →
      r.status = .ok → 1 ≤ r.results.r0.toNat ∧ r.results.r0.toNat ≤ tblLen.toNat) ∧
    (tableLegal tblBase tblLen s.tbl.size → 1 ≤ ftb.toNat → ftb.toNat ≤ 16 →
      (∀ j, j < tblLen.toNat → tableEntry s.tbl tblBase j ≤ 2 ^ ftb.toNat) →
      tableEntry s.tbl tblBase (tblLen.toNat - 1) = 0 →
      ∃ (t : State) (k : Word), exec (.rdIcdf tblBase tblLen ftb) s = .next t ∧
        t.lastResponse = some { status := .ok, results := { r0 := k } }) ∧
    (tableLegal tblBase tblLen s.tbl.size → 1 ≤ ftb.toNat → ftb.toNat ≤ 16 → tableEntry s.tbl tblBase 0 = 0 →
      exec (.rdIcdf tblBase tblLen ftb) s = .next (s.answer .ok { r0 := 1 }))

/-- R107 (c): an `RD.ICDF` that answers index `k + 1` has the effect of `RD.DECBIN ftb` and `RD.UPD` with the interval of that
entry, but for `ext`. The entry before it, and for `k = 0` the entry itself, is below `2^ftb`: else the interval starts at 0
without being the first one, where `RD.UPD` adds the remainder of `rng` and `RD.ICDF` does not (R87, R106), or is empty, where
(u1) of R88 refuses the `RD.UPD` (R107 (d)). -/
def Obligations.RdIcdfIsDecbinThenUpd : Prop :=
  ∀ (tblBase tblLen ftb : Word) (s t₁ : State) (k : Nat), Inv s → s.rd.phase = .ready →
    exec (.rdIcdf tblBase tblLen ftb) s = .next t₁ →
    t₁.lastResponse = some { status := .ok, results := { r0 := BitVec.ofNat 32 (k + 1) } } → k < tblLen.toNat →
    tableEntry s.tbl tblBase (k - 1) < 2 ^ ftb.toNat →
    let prev := if k = 0 then 2 ^ ftb.toNat else tableEntry s.tbl tblBase (k - 1)
    ∃ (t₂ t₃ : State), exec (.rdDecbin ftb) s = .next t₂ ∧
      exec (.rdUpd (BitVec.ofNat 32 (2 ^ ftb.toNat - prev))
        (BitVec.ofNat 32 (2 ^ ftb.toNat - tableEntry s.tbl tblBase k)) (BitVec.ofNat 32 (2 ^ ftb.toNat))) t₂ = .next t₃ ∧
      t₃.lastResponse = some { status := .ok, results := .zero } ∧
      t₃.rd = { t₁.rd with ext := t₃.rd.ext } ∧ t₁.rd.ext = s.rd.ext

/-- R108, R109: `RD.BITS n` answers the next `n` raw bits, the first one lowest, and leaves those after them; `n = 0` changes
nothing; and its refusals. -/
def Obligations.RdBitsTakesTheNextRawBits : Prop :=
  ∀ (n : Word) (s : State),
    (s.rd.phase ≠ .ready → exec (.rdBits n) s = .next (s.refuse .protocol)) ∧
    (s.rd.phase = .ready → 25 < n.toNat → exec (.rdBits n) s = .next (s.refuse .operand)) ∧
    (s.rd.phase = .ready → n = 0 → exec (.rdBits n) s = .next (s.answer .ok {})) ∧
    (Inv s → s.rd.phase = .ready → n.toNat ≤ 25 →
      ∃ u, RawTaken s.pkt n.toNat s.rd u ∧
        exec (.rdBits n) s = .next ({ s with rd := u }.answer .ok
          { r0 := BitVec.ofNat 32 (rawStream s.pkt s.rd % 2 ^ n.toNat) }))

/-- R108: the raw-bit reader in its registers. A cache of fewer than `n` bits is refilled by `k` tail bytes, which brings it to
25 to 32 bits; then the low `n` bits of the cache are the answer and are shifted out, and the counter advances by `n`. -/
def Obligations.RawBitsRefillTheCache : Prop :=
  ∀ (n : Word) (s : State), Inv s → s.rd.phase = .ready → n.toNat ≤ 25 →
    let k := if s.rd.nendBits.toNat < n.toNat then (32 - s.rd.nendBits.toNat) / 8 else 0
    let held := s.rd.nendBits.toNat + 8 * k
    let cache := rawStream s.pkt s.rd % 2 ^ held
    exec (.rdBits n) s = .next ({ s with rd := { s.rd with
        endOffs := BitVec.ofNat 25 (min (s.rd.endOffs.toNat + k) s.rd.len.toNat)
        endWindow := BitVec.ofNat 32 (cache / 2 ^ n.toNat)
        nendBits := BitVec.ofNat 6 (held - n.toNat)
        nbitsTotal := s.rd.nbitsTotal + BitVec.ofNat 32 n.toNat } }.answer .ok
      { r0 := BitVec.ofNat 32 (cache % 2 ^ n.toNat) }) ∧
    n.toNat ≤ held ∧ held ≤ 32 ∧
    (s.rd.nendBits.toNat < n.toNat → 1 ≤ k ∧ k ≤ 4 ∧ 24 < held)

/-- R51, R108: the raw bits of a new view are the bits of its bytes from the last to the first, in each byte from bit 0 up,
then zeros. -/
def Obligations.RawBitsComeFromTheTail : Prop :=
  ∀ (base len : Word) (s : State), viewLegal base len s.pkt.size →
    ∃ t, exec (.rdInit base len) s = .next t ∧
      (∀ q j : Nat, q < len.toNat → j < 8 → (rawStream t.pkt t.rd).testBit (8 * q + j) =
        (s.pkt.bytes.read (base.toNat + len.toNat - 1 - q)).getLsbD j) ∧
      ∀ j : Nat, 8 * len.toNat ≤ j → (rawStream t.pkt t.rd).testBit j = false

/-- R110: the coded bits and the raw bits share only the view and the counter. A command on coded bits gives the same outcome
whatever the raw-bit reader holds, which it leaves alone; `RD.BITS` gives the same outcome whatever the coded-bit registers
hold, which it leaves alone; and each only adds to the counter. -/
def Obligations.RawAndCodedBitsDoNotMeet : Prop :=
  (∀ (i : Instr) (s : State) (a : BitVec 25) (w : BitVec 32) (k : BitVec 6) (d : BitVec 32), isCodedCommand i = true →
    exec i (s.withRawReader a w k d) = mapNext (State.withRawReader a w k d) (exec i s)) ∧
  (∀ (n : Word) (s : State) (val : BitVec 31) (rng ext : BitVec 32) (rem : Byte) (offs : BitVec 25) (d : BitVec 32),
    exec (.rdBits n) (s.withCoder val rng ext rem offs d) =
      mapNext (State.withCoder val rng ext rem offs d) (exec (.rdBits n) s))

/-- R112: `UniformBits` under both values of the parameter. -/
def Obligations.UniformBitsCountsBits : Prop :=
  ∀ total : Nat, 2 ≤ total → total < 2 ^ 32 →
    2 ^ (uniformBits .ilog total - 1) ≤ total - 1 ∧ total - 1 < 2 ^ uniformBits .ilog total ∧
    1 ≤ uniformBits .ilog total ∧ uniformBits .ilog total ≤ 32 ∧
    ((∃ k, total - 1 = 2 ^ k) → uniformBits .ceil total = uniformBits .ilog total) ∧
    ((¬ ∃ k, total - 1 = 2 ^ k) → uniformBits .ceil total = uniformBits .ilog total + 1)

/-- R113: `RD.UINT` on its direct path (at most 8 bits): one symbol of width 1 out of `total`. -/
def Obligations.RdUintDirect : Prop :=
  ∀ (total : Word) (s : State), Inv s → s.rd.phase = .ready → 2 ≤ total.toNat →
    uniformBits s.params.uniformBits total.toNat ≤ 8 →
    let ext := s.rd.rng.toNat / total.toNat
    let o := total.toNat - min (s.rd.val.toNat / ext + 1) total.toNat
    o < total.toNat ∧
    ∃ u, Normalized s.pkt { s.rd with ext := BitVec.ofNat 32 ext } (s.rd.val.toNat - ext * (total.toNat - (o + 1)))
        (if 0 < o then ext else s.rd.rng.toNat - ext * (total.toNat - 1)) u ∧
      exec (.rdUint total) s = .next ({ s with rd := u }.answer .ok { r0 := BitVec.ofNat 32 o })

/-- R113: `RD.UINT` on its split path: the top part as one symbol out of `ft`, the low bits raw, the result clamped to
`total - 1`. -/
def Obligations.RdUintSplit : Prop :=
  ∀ (total : Word) (s : State), Inv s → s.rd.phase = .ready → 2 ≤ total.toNat →
    8 < uniformBits s.params.uniformBits total.toNat →
    let ftb := uniformBits s.params.uniformBits total.toNat - 8
    let ft := (total.toNat - 1) / 2 ^ ftb + 1
    let ext := s.rd.rng.toNat / ft
    let o := ft - min (s.rd.val.toNat / ext + 1) ft
    65 ≤ ft ∧ ft ≤ 256 ∧ ftb ≤ 25 ∧
    ∃ u v, Normalized s.pkt { s.rd with ext := BitVec.ofNat 32 ext } (s.rd.val.toNat - ext * (ft - (o + 1)))
        (if 0 < o then ext else s.rd.rng.toNat - ext * (ft - 1)) u ∧
      RawTaken s.pkt ftb u v ∧
      exec (.rdUint total) s = .next ({ s with rd := v }.answer .ok
        { r0 := BitVec.ofNat 32 (min (o * 2 ^ ftb + rawStream s.pkt u % 2 ^ ftb) (total.toNat - 1)) })

/-! ### The tell commands -/

/-- R120, R121: `RD.TELL` answers the counter less the whole logarithm of `rng`, modulo 2^32, and writes nothing. -/
def Obligations.RdTellCountsWholeBits : Prop :=
  ∀ s : State, (s.rd.phase = .idle → exec .rdTell s = .next (s.refuse .protocol)) ∧
    (Inv s → s.rd.phase ≠ .idle → ∀ l : Nat, 2 ^ l ≤ s.rd.rng.toNat → s.rd.rng.toNat < 2 ^ (l + 1) →
      let lg := match s.params.tellLog with | .flog2 => l | .ilog => l + 1
      exec .rdTell s = .next (s.answer .ok { r0 := s.rd.nbitsTotal - BitVec.ofNat 32 lg }))

/-- R122, R123: `RD.TELLF` answers eight times the counter less the logarithm in eighths; the eighths are how many of the
seven thresholds of R122 the 16-bit view of `rng` exceeds. -/
def Obligations.RdTellfCountsEighths : Prop :=
  ∀ s : State, (s.rd.phase = .idle → exec .rdTellf s = .next (s.refuse .protocol)) ∧
    (Inv s → s.rd.phase ≠ .idle → ∀ l : Nat, 2 ^ l ≤ s.rd.rng.toNat → s.rd.rng.toNat < 2 ^ (l + 1) →
      let eighths := ([35733, 38967, 42495, 46340, 50535, 55109, 60097].filter
        (· < s.rd.rng.toNat / 2 ^ (l - 15))).length
      let lg := match s.params.tellLog with | .flog2 => l | .ilog => l + 1
      exec .rdTellf s = .next (s.answer .ok { r0 := 8 * s.rd.nbitsTotal - BitVec.ofNat 32 (8 * lg + eighths) }))

/-- R124, R125: `RD.TELLFF` answers by its table, and the same as `RD.TELLF` in every state. -/
def Obligations.RdTellffAgreesWithTellf : Prop :=
  ∀ s : State, exec .rdTellff s = exec .rdTellf s ∧
    (Inv s → s.rd.phase ≠ .idle → ∀ l : Nat, 2 ^ l ≤ s.rd.rng.toNat → s.rd.rng.toNat < 2 ^ (l + 1) →
      let r := s.rd.rng.toNat / 2 ^ (l - 15)
      let b := r / 4096 - 8
      let corr := [35733, 38967, 42495, 46340, 50535, 55109, 60097, 65535].getD b 0
      let lg := match s.params.tellLog with | .flog2 => l | .ilog => l + 1
      let eighths := if corr < r then b + 1 else b
      exec .rdTellff s = .next (s.answer .ok { r0 := 8 * s.rd.nbitsTotal - BitVec.ofNat 32 (8 * lg + eighths) }))

/-- R121, R123: right after `RD.INIT`, for every view, the tell commands answer 2 and 16 (1 and 8 under `ILOG`). -/
def Obligations.TellAfterInit : Prop :=
  ∀ (base len : Word) (s : State), viewLegal base len s.pkt.size →
    ∃ t, exec (.rdInit base len) s = .next t ∧
      exec .rdTell t = .next (t.answer .ok { r0 := match s.params.tellLog with | .flog2 => 2 | .ilog => 1 }) ∧
      exec .rdTellf t = .next (t.answer .ok { r0 := match s.params.tellLog with | .flog2 => 16 | .ilog => 8 }) ∧
      exec .rdTellff t = .next (t.answer .ok { r0 := match s.params.tellLog with | .flog2 => 16 | .ilog => 8 })

/-! ### The packet parser -/

/-- R143: `PP.TOC`, whole: the descriptor word of R144 with scheme 0 and the duration in tenths, no register written, legal
in both phases, and its refusal. -/
def Obligations.PpTocDecodesTheByte : Prop :=
  ∀ (toc : Word) (s : State),
    (255 < toc.toNat → exec (.ppToc toc) s = .next (s.refuse .operand)) ∧
    (toc.toNat ≤ 255 →
      let f := tocDecode (BitVec.ofNat 5 (toc.toNat / 8))
      exec (.ppToc toc) s = .next (s.answer .ok
        { r0 := BitVec.ofNat 32 (f.mode.code.toNat + 4 * f.bw.code.toNat + 32 * f.dur.code.toNat +
            256 * (toc.toNat / 4 % 2) + 512 * (toc.toNat % 4)),
          r1 := f.dur.tenths }))

/-- R142: the 32 rows of the configuration table: mode, bandwidth, duration, tenths of a millisecond, and the low eight bits
of the descriptor word. -/
def Obligations.TocTable : Prop :=
  (List.range 32).map (fun c => ((tocDecode (BitVec.ofNat 5 c)).mode, (tocDecode (BitVec.ofNat 5 c)).bw,
      (tocDecode (BitVec.ofNat 5 c)).dur, (tocDecode (BitVec.ofNat 5 c)).dur.tenths,
      (tocDescriptor (BitVec.ofNat 8 (8 * c)) 0).setWidth 8)) =
    [(Mode.linearPrediction, Bandwidth.narrow, Duration.ms10, 100#32, 0x40#8),
      (.linearPrediction, .narrow, .ms20, 200, 0x60), (.linearPrediction, .narrow, .ms40, 400, 0x80),
      (.linearPrediction, .narrow, .ms60, 600, 0xA0), (.linearPrediction, .medium, .ms10, 100, 0x44),
      (.linearPrediction, .medium, .ms20, 200, 0x64), (.linearPrediction, .medium, .ms40, 400, 0x84),
      (.linearPrediction, .medium, .ms60, 600, 0xA4)] ++
    [(.linearPrediction, .wide, .ms10, 100, 0x48), (.linearPrediction, .wide, .ms20, 200, 0x68),
      (.linearPrediction, .wide, .ms40, 400, 0x88), (.linearPrediction, .wide, .ms60, 600, 0xA8),
      (.hybrid, .superWide, .ms10, 100, 0x4D), (.hybrid, .superWide, .ms20, 200, 0x6D),
      (.hybrid, .full, .ms10, 100, 0x51), (.hybrid, .full, .ms20, 200, 0x71)] ++
    [(.transform, .narrow, .ms2p5, 25, 0x02), (.transform, .narrow, .ms5, 50, 0x22),
      (.transform, .narrow, .ms10, 100, 0x42), (.transform, .narrow, .ms20, 200, 0x62),
      (.transform, .wide, .ms2p5, 25, 0x0A), (.transform, .wide, .ms5, 50, 0x2A),
      (.transform, .wide, .ms10, 100, 0x4A), (.transform, .wide, .ms20, 200, 0x6A)] ++
    [(.transform, .superWide, .ms2p5, 25, 0x0E), (.transform, .superWide, .ms5, 50, 0x2E),
      (.transform, .superWide, .ms10, 100, 0x4E), (.transform, .superWide, .ms20, 200, 0x6E),
      (.transform, .full, .ms2p5, 25, 0x12), (.transform, .full, .ms5, 50, 0x32),
      (.transform, .full, .ms10, 100, 0x52), (.transform, .full, .ms20, 200, 0x72)]

/-- R145: the 1-or-2-byte length code, whole: its value, its size, its failures, its range, and that each value has exactly
one encoding. -/
def Obligations.LengthCode : Prop :=
  (∀ (m : ByteSpace) (p n : Nat), p + n ≤ m.size →
    let v := (m.bytes.read p).toNat
    let w := (m.bytes.read (p + 1)).toNat
    (n = 0 → varint m p n = .error (.answer .invalidLength)) ∧
    (1 ≤ n → v ≤ 251 → varint m p n = .ok { value := v, used := 1 }) ∧
    (n = 1 → 252 ≤ v → varint m p n = .error (.answer .invalidLength)) ∧
    (2 ≤ n → 252 ≤ v → varint m p n = .ok { value := w * 4 + v, used := 2 }) ∧
    (∀ c, varint m p n = .ok c → c.value ≤ 1275 ∧ (c.used = 1 ∨ c.used = 2) ∧ (c.used = 1 ↔ c.value ≤ 251))) ∧
  (∀ x v w : Nat, 252 ≤ x → x ≤ 1275 →
    ((252 ≤ v ∧ v ≤ 255 ∧ w ≤ 255 ∧ w * 4 + v = x) ↔ (v = 252 + x % 4 ∧ w = (x - v) / 4)))

/-- R148, R149: codes 0 and 1: one frame of at most 1275 bytes, or two equal ones. -/
def Obligations.ParseOfCodes0And1 : Prop :=
  ∀ (base len : Word) (s : State), viewLegal base len s.pkt.size → len.toNat ≠ 0 →
    let toc := s.pkt.bytes.read base.toNat
    let n := len.toNat - 1
    (toc.toNat % 4 = 0 → n ≤ 1275 → exec (.ppParse base len) s = .next (s.parsed toc
      { scheme := .single, arg := 0, lpBase := 0, lpLen := 0, payBase := base.toNat + 1, payLen := n })) ∧
    (toc.toNat % 4 = 0 → 1275 < n → exec (.ppParse base len) s = .next (s.refuse .invalidLength)) ∧
    (toc.toNat % 4 = 1 → n % 2 = 0 → n ≤ 2550 → exec (.ppParse base len) s = .next (s.parsed toc
      { scheme := .doubleEqual, arg := 0, lpBase := 0, lpLen := 0, payBase := base.toNat + 1, payLen := n })) ∧
    (toc.toNat % 4 = 1 → n % 2 = 1 ∨ 2550 < n → exec (.ppParse base len) s = .next (s.refuse .invalidLength))

/-- R150: code 2: `DTX` on a zero first length byte before every other check, then the length code and its failures. -/
def Obligations.ParseOfCode2 : Prop :=
  ∀ (base len : Word) (s : State), viewLegal base len s.pkt.size → len.toNat ≠ 0 →
    (s.pkt.bytes.read base.toNat).toNat % 4 = 2 →
    let toc := s.pkt.bytes.read base.toNat
    let p := base.toNat + 1
    let n := len.toNat - 1
    (n = 0 → exec (.ppParse base len) s = .next (s.refuse .invalidLength)) ∧
    (1 ≤ n → s.pkt.bytes.read p = 0 → exec (.ppParse base len) s = .next (s.refuse .dtx)) ∧
    (1 ≤ n → s.pkt.bytes.read p ≠ 0 →
      (∀ h, varint s.pkt p n = .error h → exec (.ppParse base len) s = .next (s.refuse .invalidLength)) ∧
      (∀ c, varint s.pkt p n = .ok c →
        (n - c.used < c.value → exec (.ppParse base len) s = .next (s.refuse .invalidLength)) ∧
        (c.value ≤ n - c.used → exec (.ppParse base len) s = .next (s.parsed toc
          { scheme := .doubleExplicit, arg := c.value, lpBase := 0, lpLen := 0, payBase := p + c.used,
            payLen := n - c.used }))))

/-- R147, R151, R152: the failures before the lengths of a packet are looked at: the empty view; code 3 with no header byte,
with a frame count of 0, with a padding chain that runs off the data or counts more than is left. -/
def Obligations.HeaderAndPaddingFailures : Prop :=
  ∀ (base len : Word) (s : State), viewLegal base len s.pkt.size →
    (len.toNat = 0 → exec (.ppParse base len) s = .next (s.refuse .invalidLength)) ∧
    (len.toNat ≠ 0 → (s.pkt.bytes.read base.toNat).toNat % 4 = 3 →
      (len.toNat = 1 → exec (.ppParse base len) s = .next (s.refuse .invalidLength)) ∧
      (2 ≤ len.toNat →
        let h := (s.pkt.bytes.read (base.toNat + 1)).toNat
        (h % 64 = 0 → exec (.ppParse base len) s = .next (s.refuse .invalidFormat)) ∧
        (h % 64 ≠ 0 → h / 64 % 2 = 1 →
          ∀ j, (∀ i, i < j → s.pkt.bytes.read (base.toNat + 2 + i) = 255) →
            (j = len.toNat - 2 → exec (.ppParse base len) s = .next (s.refuse .invalidLength)) ∧
            (j < len.toNat - 2 → s.pkt.bytes.read (base.toNat + 2 + j) ≠ 255 →
              len.toNat - 3 - j < j * padBytes s.params.padCont + (s.pkt.bytes.read (base.toNat + 2 + j)).toNat →
              exec (.ppParse base len) s = .next (s.refuse .invalidLength)))))

/-- R151 to R154: code 3 with explicit lengths. The `cnt - 1` length codes stand at the front of what the header and the
padding leave; the payload follows them and must hold their sum. -/
def Obligations.ParseOfVbr : Prop :=
  ∀ (base len : Word) (s : State) (q k : Nat), viewLegal base len s.pkt.size → 2 ≤ len.toNat →
    let toc := s.pkt.bytes.read base.toNat
    let h := (s.pkt.bytes.read (base.toNat + 1)).toNat
    toc.toNat % 4 = 3 → h % 64 ≠ 0 → h / 128 = 1 → Code3Body s.pkt (padBytes s.params.padCont) base.toNat len.toNat q k →
    (∀ (ls : List Nat) (used : Nat), ls.length = h % 64 - 1 → CodesAt s.pkt q k ls used →
      (ls.sum ≤ k - used → exec (.ppParse base len) s = .next (s.parsed toc
        { scheme := .vbr, arg := 0, lpBase := q, lpLen := used, payBase := q + used, payLen := k - used })) ∧
      (k - used < ls.sum → exec (.ppParse base len) s = .next (s.refuse .invalidLength))) ∧
    ((¬ ∃ (ls : List Nat) (used : Nat), ls.length = h % 64 - 1 ∧ CodesAt s.pkt q k ls used) →
      exec (.ppParse base len) s = .next (s.refuse .invalidLength))

/-- R151 to R153, R155: code 3 without explicit lengths: equal frames of at most 1275 bytes. -/
def Obligations.ParseOfCbr : Prop :=
  ∀ (base len : Word) (s : State) (q k : Nat), viewLegal base len s.pkt.size → 2 ≤ len.toNat →
    let toc := s.pkt.bytes.read base.toNat
    let h := (s.pkt.bytes.read (base.toNat + 1)).toNat
    toc.toNat % 4 = 3 → h % 64 ≠ 0 → h / 128 = 0 → Code3Body s.pkt (padBytes s.params.padCont) base.toNat len.toNat q k →
    (k % (h % 64) = 0 → k / (h % 64) ≤ 1275 → exec (.ppParse base len) s = .next (s.parsed toc
      { scheme := .cbr, arg := k / (h % 64), lpBase := 0, lpLen := 0, payBase := q, payLen := k })) ∧
    (k % (h % 64) ≠ 0 ∨ 1275 < k / (h % 64) → exec (.ppParse base len) s = .next (s.refuse .invalidLength))

/-- R156: what a `PP.PARSE` that completes leaves in the registers and answers, and that it writes nothing else. -/
def Obligations.PpParseCommits : Prop :=
  ∀ (base len : Word) (s t : State) (r : Response), Inv s → exec (.ppParse base len) s = .next t →
    t.lastResponse = some r → r.status = .ok →
    let toc := (s.pkt.bytes.read base.toNat).toNat
    let f := tocDecode (BitVec.ofNat 5 (toc / 8))
    t.pp.phase = .parsed ∧ t.pp.mode = f.mode ∧ t.pp.bw = f.bw ∧ t.pp.dur = f.dur ∧
    t.pp.stereo = decide (toc / 4 % 2 = 1) ∧
    r.results.r0.toNat = f.mode.code.toNat + 4 * f.bw.code.toNat + 32 * f.dur.code.toNat + 256 * (toc / 4 % 2) +
      512 * (toc % 4) + 2048 * t.pp.scheme.code.toNat ∧
    r.results.r1.toNat = t.pp.payBase.toNat ∧ r.results.r2.toNat = t.pp.payLen.toNat ∧
    r.results.r3.toNat = (if t.pp.scheme = .vbr then t.pp.lpLen.toNat else t.pp.arg.toNat) ∧
    t = { s with pp := t.pp, responses := t.responses }

/-- R147, R157: the payload and the length codes of a parsed Packet lie inside the view given to `PP.PARSE`, and the frames
its scheme announces fit the payload. -/
def Obligations.AParsedPacketStaysInItsView : Prop :=
  ∀ (base len : Word) (s t : State) (r : Response), Inv s → exec (.ppParse base len) s = .next t →
    t.lastResponse = some r → r.status = .ok →
    base.toNat + 1 ≤ t.pp.payBase.toNat ∧ t.pp.payBase.toNat + t.pp.payLen.toNat ≤ base.toNat + len.toNat ∧
    (t.pp.scheme = .single → t.pp.payLen.toNat ≤ 1275) ∧
    (t.pp.scheme = .doubleEqual → t.pp.payLen.toNat % 2 = 0 ∧ t.pp.payLen.toNat ≤ 2550) ∧
    (t.pp.scheme = .doubleExplicit → 1 ≤ t.pp.arg.toNat ∧ t.pp.arg.toNat ≤ 1275 ∧ t.pp.arg.toNat ≤ t.pp.payLen.toNat) ∧
    (t.pp.scheme = .cbr → t.pp.arg.toNat ≤ 1275 ∧ ∃ cnt, 1 ≤ cnt ∧ cnt ≤ 63 ∧ cnt * t.pp.arg.toNat = t.pp.payLen.toNat) ∧
    (t.pp.scheme = .vbr → base.toNat + 2 ≤ t.pp.lpBase.toNat ∧
      t.pp.lpBase.toNat + t.pp.lpLen.toNat = t.pp.payBase.toNat ∧
      ∃ ls, CodesAt s.pkt t.pp.lpBase.toNat t.pp.lpLen.toNat ls t.pp.lpLen.toNat ∧ ls.length ≤ 62 ∧
        ls.sum ≤ t.pp.payLen.toNat)

/-- R159: the answer of `PP.PARSE` is a function of the bytes of its view alone; at another `base` only the addresses move. -/
def Obligations.PpParseReadsOnlyItsView : Prop :=
  ∀ (base base' len : Word) (s s' : State), s.pkt.Legal → s'.pkt.Legal → viewLegal base len s.pkt.size →
    viewLegal base' len s'.pkt.size → s'.params.padCont = s.params.padCont →
    (∀ i, i < len.toNat → s'.pkt.bytes.read (base'.toNat + i) = s.pkt.bytes.read (base.toNat + i)) →
    ∃ (t t' : State) (r r' : Response), exec (.ppParse base len) s = .next t ∧ exec (.ppParse base' len) s' = .next t' ∧
      t.lastResponse = some r ∧ t'.lastResponse = some r' ∧ r'.status = r.status ∧ r'.results.r0 = r.results.r0 ∧
      r'.results.r2 = r.results.r2 ∧ r'.results.r3 = r.results.r3 ∧
      (r.status = .ok →
        r'.results.r1.toNat + base.toNat = r.results.r1.toNat + base'.toNat ∧
        t'.pp = { t.pp with payBase := t'.pp.payBase, lpBase := t'.pp.lpBase } ∧
        t'.pp.payBase.toNat + base.toNat = t.pp.payBase.toNat + base'.toNat ∧
        (t.pp.scheme = .vbr → t'.pp.lpBase.toNat + base.toNat = t.pp.lpBase.toNat + base'.toNat) ∧
        (t.pp.scheme ≠ .vbr → t'.pp.lpBase = t.pp.lpBase))

/-! ### The frame iterator -/

/-- R171 to R173: `PP.NEXT`: its refusal, its `END`, and the frame it hands out in each scheme with the registers it leaves. -/
def Obligations.PpNextHandsOutTheNextFrame : Prop :=
  ∀ s : State,
    (s.pp.phase ≠ .parsed → exec .ppNext s = .next (s.refuse .protocol)) ∧
    (s.pp.phase = .parsed → s.pp.payLen.toNat = 0 → exec .ppNext s = .next (s.refuse .ended)) ∧
    (Inv s → s.pp.phase = .parsed → s.pp.payLen.toNat ≠ 0 →
      let frame := fun (size : Nat) (u : PpUnit) => size ≤ s.pp.payLen.toNat ∧
        exec .ppNext s = .next ({ s with pp := { u with
            payBase := BitVec.ofNat 25 (s.pp.payBase.toNat + size)
            payLen := BitVec.ofNat 25 (s.pp.payLen.toNat - size) } }.answer .ok
          { r0 := BitVec.ofNat 32 s.pp.payBase.toNat, r1 := BitVec.ofNat 32 size })
      (s.pp.scheme = .single → frame s.pp.payLen.toNat s.pp) ∧
      (s.pp.scheme = .doubleEqual → s.pp.payLen.toNat % 2 = 0 ∧
        frame (s.pp.payLen.toNat / 2) { s.pp with scheme := .single }) ∧
      (s.pp.scheme = .doubleExplicit → frame s.pp.arg.toNat { s.pp with scheme := .single }) ∧
      (s.pp.scheme = .cbr → frame s.pp.arg.toNat s.pp) ∧
      (s.pp.scheme = .vbr → s.pp.lpLen.toNat = 0 → frame s.pp.payLen.toNat s.pp) ∧
      (s.pp.scheme = .vbr → s.pp.lpLen.toNat ≠ 0 →
        ∃ c, varint s.pkt s.pp.lpBase.toNat s.pp.lpLen.toNat = .ok c ∧ frame c.value { s.pp with
          lpBase := BitVec.ofNat 25 (s.pp.lpBase.toNat + c.used)
          lpLen := BitVec.ofNat 25 (s.pp.lpLen.toNat - c.used) }))

/-- R174, R175: from a held Packet, at most `pay_len + lp_len` commands `PP.NEXT` answer `OK`; their frames tile the payload
in order with no gap and no overlap; then `END`, and every further one answers `END` and changes nothing. -/
def Obligations.FramesTileThePayload : Prop :=
  ∀ s : State, Inv s → s.pp.phase = .parsed →
    ∃ (k : Nat) (t : State) (rs : List Response), k ≤ s.pp.payLen.toNat + s.pp.lpLen.toNat ∧
      runNext k s = .next t ∧ t.responses = s.responses ++ rs ∧ rs.length = k ∧
      Tiles s.pp.payBase.toNat s.pp.payLen.toNat rs ∧
      exec .ppNext t = .next (t.refuse .ended) ∧
      ∀ j : Nat, runNext j t = .next { t with
        responses := t.responses ++ List.replicate j { status := .ended, results := .zero } }

/-! ### What each command leaves unchanged -/

/-- The tell commands and `PP.TOC` write no register: the state after differs in its responses only (R121, R123, R125,
R143). -/
def Obligations.FrameOfTheQueries : Prop :=
  ∀ (s t : State) (toc : Word),
    (exec .rdTell s = .next t → t = { s with responses := t.responses } ∧ SameSurroundings s t) ∧
    (exec .rdTellf s = .next t → t = { s with responses := t.responses } ∧ SameSurroundings s t) ∧
    (exec .rdTellff s = .next t → t = { s with responses := t.responses } ∧ SameSurroundings s t) ∧
    (exec (.ppToc toc) s = .next t → t = { s with responses := t.responses } ∧ SameSurroundings s t)

/-- The commands on coded bits write no register but these: `RD.DEC` and `RD.DECBIN` `ext` and `phase`; `RD.UPD` `val`, `rng`,
`rem`, `nbits_total`, `offs` and `phase`; `RD.BITP` and `RD.ICDF` the same without `phase` (R81, R85 to R87, R100, R106). -/
def Obligations.FrameOfTheCodedCommands : Prop :=
  ∀ (s t : State) (a b c : Word),
    ((exec (.rdDec a) s = .next t ∨ exec (.rdDecbin a) s = .next t) →
      t.rd = { s.rd with ext := t.rd.ext, phase := t.rd.phase } ∧ t.pp = s.pp ∧ t.freeCount = s.freeCount ∧
        SameSurroundings s t) ∧
    (exec (.rdUpd a b c) s = .next t →
      t.rd = { s.rd with val := t.rd.val, rng := t.rd.rng, rem := t.rd.rem, nbitsTotal := t.rd.nbitsTotal,
                         offs := t.rd.offs, phase := t.rd.phase } ∧
        t.pp = s.pp ∧ t.freeCount = s.freeCount ∧ SameSurroundings s t) ∧
    ((exec (.rdBitp a) s = .next t ∨ exec (.rdIcdf a b c) s = .next t) →
      t.rd = { s.rd with val := t.rd.val, rng := t.rd.rng, rem := t.rd.rem, nbitsTotal := t.rd.nbitsTotal,
                         offs := t.rd.offs } ∧
        t.pp = s.pp ∧ t.freeCount = s.freeCount ∧ SameSurroundings s t)

/-- `RD.BITS` writes the raw-bit registers and the counter only (R109); `RD.UINT` writes neither the view nor the phase
(R113). -/
def Obligations.FrameOfTheRawAndUniformCommands : Prop :=
  ∀ (s t : State) (n : Word),
    (exec (.rdBits n) s = .next t →
      t.rd = { s.rd with endOffs := t.rd.endOffs, endWindow := t.rd.endWindow, nendBits := t.rd.nendBits,
                         nbitsTotal := t.rd.nbitsTotal } ∧
        t.pp = s.pp ∧ t.freeCount = s.freeCount ∧ SameSurroundings s t) ∧
    (exec (.rdUint n) s = .next t →
      t.rd.base = s.rd.base ∧ t.rd.len = s.rd.len ∧ t.rd.phase = s.rd.phase ∧
        t.pp = s.pp ∧ t.freeCount = s.freeCount ∧ SameSurroundings s t)

/-- `RD.INIT` and `PP.PARSE` write their own unit only; `PP.NEXT` writes no register but `scheme`, `pay_base`, `pay_len`,
`lp_base`, `lp_len` (R80, R156, R170, R171). -/
def Obligations.FrameOfTheInitialisersAndNext : Prop :=
  ∀ (s t : State) (base len : Word),
    (exec (.rdInit base len) s = .next t → t.pp = s.pp ∧ SameSurroundings s t) ∧
    (exec (.ppParse base len) s = .next t → t.rd = s.rd ∧ t.freeCount = s.freeCount ∧ SameSurroundings s t) ∧
    (exec .ppNext s = .next t →
      t.pp = { s.pp with scheme := t.pp.scheme, payBase := t.pp.payBase, payLen := t.pp.payLen, lpBase := t.pp.lpBase,
                         lpLen := t.pp.lpLen } ∧
        t.rd = s.rd ∧ t.freeCount = s.freeCount ∧ SameSurroundings s t)

end
end

