-- ==== Sys2Proof/Laws/Decode.lean ====
section
/-!
SUPPORT. The fields of an encoded word, a word from its fields, and what the decoder can answer (R60, R61, R67).
-/

namespace Sys2Proof

theorem fieldOp_wordOf (op : BitVec 8) (a b c : Word) : fieldOp (wordOf op a b c) = op := by
  unfold fieldOp wordOf
  ext i hi
  simp only [BitVec.getElem_extractLsb', BitVec.getLsbD_append]
  simp [show ¬ 96 + i < 32 by omega, show ¬ 96 + i - 32 < 32 by omega, show ¬ 96 + i - 32 - 32 < 32 by omega,
    show 96 + i - 32 - 32 - 32 = i by omega, BitVec.getLsbD_eq_getElem hi]

theorem fieldA_wordOf (op : BitVec 8) (a b c : Word) : fieldA (wordOf op a b c) = a := by
  unfold fieldA wordOf
  ext i hi
  simp only [BitVec.getElem_extractLsb', BitVec.getLsbD_append]
  simp [show ¬ 64 + i < 32 by omega, show ¬ 64 + i - 32 < 32 by omega,
    show 64 + i - 32 - 32 = i by omega, hi]

theorem fieldB_wordOf (op : BitVec 8) (a b c : Word) : fieldB (wordOf op a b c) = b := by
  unfold fieldB wordOf
  ext i hi
  simp only [BitVec.getElem_extractLsb', BitVec.getLsbD_append]
  simp [show ¬ 32 + i < 32 by omega, show 32 + i - 32 = i by omega, hi]

theorem fieldC_wordOf (op : BitVec 8) (a b c : Word) : fieldC (wordOf op a b c) = c := by
  unfold fieldC wordOf
  ext i hi
  simp only [BitVec.getElem_extractLsb', BitVec.getLsbD_append]
  simp [hi]

/-- A word is its four fields (R60). -/
theorem wordOf_fields (w : CommandWord) : wordOf (fieldOp w) (fieldA w) (fieldB w) (fieldC w) = w := by
  unfold fieldOp fieldA fieldB fieldC wordOf
  ext i hi
  rw [← BitVec.getLsbD_eq_getElem, ← BitVec.getLsbD_eq_getElem]
  simp only [BitVec.getLsbD_append, BitVec.getLsbD_extractLsb']
  by_cases h1 : i < 32
  · simp [h1]
  · by_cases h2 : i < 64
    · simp [h1, show i - 32 < 32 by omega, show 32 + (i - 32) = i by omega]
    · by_cases h3 : i < 96
      · simp [h1, show ¬ i - 32 < 32 by omega, show i - 32 - 32 < 32 by omega, show 64 + (i - 32 - 32) = i by omega]
      · simp [h1, show ¬ i - 32 < 32 by omega, show ¬ i - 32 - 32 < 32 by omega,
          show i - 32 - 32 - 32 < 8 by omega, show 96 + (i - 32 - 32 - 32) = i by omega]

/-- Words are equal when their fields are. -/
theorem wordOf_inj {op op' : BitVec 8} {a a' b b' c c' : Word} (h : wordOf op a b c = wordOf op' a' b' c') :
    op = op' ∧ a = a' ∧ b = b' ∧ c = c' := by
  refine ⟨?_, ?_, ?_, ?_⟩
  · rw [← fieldOp_wordOf op a b c, h, fieldOp_wordOf]
  · rw [← fieldA_wordOf op a b c, h, fieldA_wordOf]
  · rw [← fieldB_wordOf op a b c, h, fieldB_wordOf]
  · rw [← fieldC_wordOf op a b c, h, fieldC_wordOf]

theorem wordOf_and (op op' : BitVec 8) (a a' b b' c c' : Word) :
    wordOf op a b c &&& wordOf op' a' b' c' = wordOf (op &&& op') (a &&& a') (b &&& b') (c &&& c') := by
  unfold wordOf
  ext i hi
  simp only [← BitVec.getLsbD_eq_getElem, BitVec.getLsbD_append, BitVec.getLsbD_and]
  split <;> [rfl; (split <;> [rfl; (split <;> rfl)])]

/-- The mask of a format, field by field (R61). -/
theorem mask_z : Format.z.mask = wordOf 0xFF 0xFFFFFFFF 0xFFFFFFFF 0xFFFFFFFF := by decide
theorem mask_a : Format.a.mask = wordOf 0xFF 0 0xFFFFFFFF 0xFFFFFFFF := by decide
theorem mask_ab : Format.ab.mask = wordOf 0xFF 0 0 0xFFFFFFFF := by decide
theorem mask_abc : Format.abc.mask = wordOf 0xFF 0 0 0 := by decide

theorem allOnes_word (x : Word) : x &&& 0xFFFFFFFF = x := by
  have : (0xFFFFFFFF : Word) = BitVec.allOnes 32 := by decide
  rw [this, BitVec.and_allOnes]

theorem allOnes_byte (x : BitVec 8) : x &&& 0xFF = x := by
  have : (0xFF : BitVec 8) = BitVec.allOnes 8 := by decide
  rw [this, BitVec.and_allOnes]

theorem zero_word (x : Word) : x &&& 0 = 0 := by simp

/-- A word of fields matches a row iff it has the row's opcode and its unused fields are zero (R61). -/
theorem matches_wordOf (r : Row) (op : BitVec 8) (a b c : Word) :
    r.Matches (wordOf op a b c) ↔ op = r.op ∧
      (match r.format with
        | .z => a = 0 ∧ b = 0 ∧ c = 0
        | .a => b = 0 ∧ c = 0
        | .ab => c = 0
        | .abc => True) := by
  obtain ⟨n, o, f⟩ := r
  cases f <;>
    simp only [Row.Matches, Row.pattern, mask_z, mask_a, mask_ab, mask_abc, wordOf_and, allOnes_word, allOnes_byte,
      zero_word] <;>
    constructor <;> intro h
  · obtain ⟨rfl, rfl, rfl, rfl⟩ := wordOf_inj h; simp
  · obtain ⟨rfl, rfl, rfl, rfl⟩ := h; rfl
  · obtain ⟨rfl, -, rfl, rfl⟩ := wordOf_inj h; simp
  · obtain ⟨rfl, rfl, rfl⟩ := h; rfl
  · obtain ⟨rfl, -, -, rfl⟩ := wordOf_inj h; simp
  · obtain ⟨rfl, rfl⟩ := h; rfl
  · obtain ⟨rfl, -, -, -⟩ := wordOf_inj h; simp
  · obtain ⟨rfl, -⟩ := h; rfl

theorem ifUnusedZero_eq_ok {x : Word} {i j : Instr} : ifUnusedZero x i = .ok j ↔ x = 0 ∧ i = j := by
  unfold ifUnusedZero; split <;> simp_all

/-- Two fields or-ed are zero when both are. -/
theorem or_eq_zero_word {x y : Word} : x ||| y = 0 ↔ x = 0 ∧ y = 0 := by
  constructor
  · intro h
    have h' : ∀ i (hi : i < 32), x[i] = false ∧ y[i] = false := by
      intro i hi
      have := congrArg (fun z => z[i]) h
      simpa using this
    exact ⟨BitVec.eq_of_getElem_eq fun i hi => by simpa using (h' i hi).1,
      BitVec.eq_of_getElem_eq fun i hi => by simpa using (h' i hi).2⟩
  · rintro ⟨rfl, rfl⟩; rfl

end Sys2Proof
end

