-- ==== Sys2Proof/Laws/Memory.lean ====
section
/-!
SUPPORT. The memory laws: a read after a write, and that every memory operation keeps the canonical form (log 5); reading a
byte of a space.
-/

namespace Sys2Proof.Machine

/-- A weaker lower bound is met too. -/
theorem Memory.wfFrom_mono {lo lo' : Nat} (h : lo' ≤ lo) : ∀ {m : Memory}, Memory.wfFrom lo m = true → Memory.wfFrom lo' m = true
  | [], _ => rfl
  | (a, b) :: rest, hw => by
    simp only [Memory.wfFrom, Bool.and_eq_true, decide_eq_true_eq] at hw ⊢
    exact ⟨⟨h.trans hw.1.1, hw.1.2⟩, hw.2⟩

/-- An address below all listed ones reads as unlisted. -/
theorem Memory.read_below {m : Memory} {lo x : Nat} (hw : Memory.wfFrom lo m = true) (hx : x < lo) :
    m.read x = Memory.unlisted := by
  induction m generalizing lo with
  | nil => rfl
  | cons c rest ih =>
    obtain ⟨a, b⟩ := c
    simp only [Memory.wfFrom, Bool.and_eq_true, decide_eq_true_eq] at hw
    rw [Memory.read, if_neg (by omega)]
    exact ih hw.2 (by omega)

/-- The byte written is the byte read. -/
theorem Memory.read_write_same {m : Memory} {lo x : Nat} {v : Byte} (hw : Memory.wfFrom lo m = true) :
    (m.write x v).read x = v := by
  induction m generalizing lo with
  | nil => unfold Memory.write; split <;> simp_all [Memory.read]
  | cons c rest ih =>
    obtain ⟨a, b⟩ := c
    simp only [Memory.wfFrom, Bool.and_eq_true, decide_eq_true_eq] at hw
    unfold Memory.write
    split
    · split
      · rename_i hxa hv
        rw [Memory.read, if_neg (by omega), Memory.read_below hw.2 (by omega), hv]
      · simp [Memory.read]
    · split
      · rename_i hxa hax
        subst hax
        split
        · rename_i hv
          rw [Memory.read_below hw.2 (by omega), hv]
        · simp [Memory.read]
      · rename_i hxa hax
        rw [Memory.read, if_neg hax]
        exact ih hw.2

/-- Every other byte is as before. -/
theorem Memory.read_write_other {m : Memory} {x y : Nat} {v : Byte} (hxy : y ≠ x) : (m.write x v).read y = m.read y := by
  induction m with
  | nil => unfold Memory.write; split <;> simp_all [Memory.read, Ne.symm hxy]
  | cons c rest ih =>
    obtain ⟨a, b⟩ := c
    unfold Memory.write
    split
    · split <;> simp [Memory.read, Ne.symm hxy]
    · split
      · rename_i hxa hax
        subst hax
        split <;> simp [Memory.read, Ne.symm hxy]
      · simp only [Memory.read, ih]

/-- A write keeps the canonical form from any bound at or below the address written. -/
theorem Memory.write_wfFrom {m : Memory} {lo x : Nat} {v : Byte} (hw : Memory.wfFrom lo m = true) (hx : lo ≤ x) :
    Memory.wfFrom lo (m.write x v) = true := by
  induction m generalizing lo with
  | nil => unfold Memory.write; split <;> simp_all [Memory.wfFrom]
  | cons c rest ih =>
    obtain ⟨a, b⟩ := c
    have hw' := hw
    simp only [Memory.wfFrom, Bool.and_eq_true, decide_eq_true_eq] at hw
    unfold Memory.write
    split
    · split
      · exact hw'
      · simp only [Memory.wfFrom, Bool.and_eq_true, decide_eq_true_eq]
        exact ⟨⟨hx, ‹_›⟩, ⟨by omega, hw.1.2⟩, hw.2⟩
    · split
      · split
        · exact Memory.wfFrom_mono (by omega) hw.2
        · simp only [Memory.wfFrom, Bool.and_eq_true, decide_eq_true_eq]
          exact ⟨⟨hw.1.1, ‹_›⟩, hw.2⟩
      · simp only [Memory.wfFrom, Bool.and_eq_true, decide_eq_true_eq]
        exact ⟨hw.1, ih hw.2 (by omega)⟩

/-- A write keeps the canonical form. -/
theorem Memory.write_wf {m : Memory} {x : Nat} {v : Byte} (hw : m.wf = true) : (m.write x v).wf = true :=
  Memory.write_wfFrom hw (Nat.zero_le x)

/-- Loading keeps the canonical form. -/
theorem Memory.load_wf {m : Memory} {x : Nat} {vs : List Byte} (hw : m.wf = true) : (m.load x vs).wf = true := by
  induction vs generalizing m x with
  | nil => exact hw
  | cons v vs ih => exact ih (Memory.write_wf hw)

/-- A write lists no address but the one written and those listed. -/
theorem Memory.write_inside {m : Memory} {x : Nat} {v : Byte} {c : Host.Cell} (h : c ∈ m.write x v) : c ∈ m ∨ c.1 = x := by
  induction m with
  | nil => unfold Memory.write at h; split at h <;> simp_all
  | cons d rest ih =>
    obtain ⟨a, b⟩ := d
    unfold Memory.write at h
    split at h
    · split at h
      · exact .inl h
      · rcases List.mem_cons.1 h with rfl | h
        · exact .inr rfl
        · exact .inl h
    · split at h
      · rename_i hax
        split at h
        · exact .inl (List.mem_cons_of_mem _ h)
        · rcases List.mem_cons.1 h with rfl | h
          · exact .inr hax
          · exact .inl (List.mem_cons_of_mem _ h)
      · rcases List.mem_cons.1 h with rfl | h
        · exact .inl List.mem_cons_self
        · exact (ih h).imp (List.mem_cons_of_mem _) id

/-- A read inside the space answers its byte (R40). -/
theorem ByteSpace.get_inside {m : ByteSpace} {a : Nat} (h : a < m.size) : m.get a = .ok (m.bytes.read a) := if_pos h

/-- A read answers only inside the space. -/
theorem ByteSpace.get_eq_ok {m : ByteSpace} {a : Nat} {b : Byte} : m.get a = .ok b ↔ a < m.size ∧ m.bytes.read a = b := by
  unfold ByteSpace.get; split <;> simp_all

/-- A read ends early only with the fault of an address outside the space. -/
theorem ByteSpace.get_eq_error {m : ByteSpace} {a : Nat} {e : Halt} :
    m.get a = .error e ↔ m.size ≤ a ∧ .fault (.outsideSpace a) = e := by
  unfold ByteSpace.get; split <;> simp_all

/-- The reset memories are legal (R38, log 4, log 5). -/
theorem reset_pkt_legal : State.reset.pkt.Legal := ⟨by decide, by decide, by decide, by decide⟩

theorem reset_tbl_legal : State.reset.tbl.Legal := ⟨by decide, by decide, by decide, by decide⟩

end Sys2Proof.Machine
end

