-- ==== Sys2Proof/Laws/State.lean ====
section
/-!
SUPPORT. One lemma per field for each named update of the state, so that no proof unfolds a record update; and what ending a
command (`conclude`) and a check (`require`) can do, said once.
-/

namespace Sys2Proof.Machine

@[simp] theorem State.answer_rd (s : State) (st r) : (s.answer st r).rd = s.rd := rfl
@[simp] theorem State.answer_pp (s : State) (st r) : (s.answer st r).pp = s.pp := rfl
@[simp] theorem State.answer_pkt (s : State) (st r) : (s.answer st r).pkt = s.pkt := rfl
@[simp] theorem State.answer_tbl (s : State) (st r) : (s.answer st r).tbl = s.tbl := rfl
@[simp] theorem State.answer_params (s : State) (st r) : (s.answer st r).params = s.params := rfl
@[simp] theorem State.answer_commands (s : State) (st r) : (s.answer st r).commands = s.commands := rfl
@[simp] theorem State.answer_freeCount (s : State) (st r) : (s.answer st r).freeCount = s.freeCount := rfl
@[simp] theorem State.answer_responses (s : State) (st r) :
    (s.answer st r).responses = s.responses ++ [{ status := st, results := r }] := rfl

@[simp] theorem State.refuse_rd (s : State) (st) : (s.refuse st).rd = s.rd := rfl
@[simp] theorem State.refuse_pp (s : State) (st) : (s.refuse st).pp = s.pp := rfl
@[simp] theorem State.refuse_pkt (s : State) (st) : (s.refuse st).pkt = s.pkt := rfl
@[simp] theorem State.refuse_tbl (s : State) (st) : (s.refuse st).tbl = s.tbl := rfl
@[simp] theorem State.refuse_params (s : State) (st) : (s.refuse st).params = s.params := rfl
@[simp] theorem State.refuse_commands (s : State) (st) : (s.refuse st).commands = s.commands := rfl
@[simp] theorem State.refuse_freeCount (s : State) (st) : (s.refuse st).freeCount = s.freeCount := rfl
@[simp] theorem State.refuse_responses (s : State) (st) :
    (s.refuse st).responses = s.responses ++ [{ status := st, results := Results.zero }] := rfl

@[simp] theorem putCommand_rd (s : State) (w) : (putCommand s w).rd = s.rd := rfl
@[simp] theorem putCommand_pp (s : State) (w) : (putCommand s w).pp = s.pp := rfl
@[simp] theorem putCommand_pkt (s : State) (w) : (putCommand s w).pkt = s.pkt := rfl
@[simp] theorem putCommand_tbl (s : State) (w) : (putCommand s w).tbl = s.tbl := rfl
@[simp] theorem putCommand_params (s : State) (w) : (putCommand s w).params = s.params := rfl
@[simp] theorem putCommand_commands (s : State) (w) : (putCommand s w).commands = w :: s.commands := rfl
@[simp] theorem putCommand_responses (s : State) (w) : (putCommand s w).responses = s.responses := rfl
@[simp] theorem putCommand_freeCount (s : State) (w) : (putCommand s w).freeCount = s.freeCount := rfl

/-- Taking a command put in front gives it back, and the state as it was. -/
@[simp] theorem takeCommand_putCommand (s : State) (w) : takeCommand (putCommand s w) = some (w, s) := rfl

/-- A sequence of two answers `ok` when both do. -/
theorem bind_eq_ok {ε α β : Type} {x : Except ε α} {f : α → Except ε β} {b : β} :
    (x >>= f) = .ok b ↔ ∃ a, x = .ok a ∧ f a = .ok b := by
  cases x <;> simp [bind, Except.bind]

/-- A sequence of two ends early when either does. -/
theorem bind_eq_error {ε α β : Type} {x : Except ε α} {f : α → Except ε β} {e : ε} :
    (x >>= f) = .error e ↔ x = .error e ∨ ∃ a, x = .ok a ∧ f a = .error e := by
  cases x <;> simp [bind, Except.bind]

/-- What comes after a result. -/
theorem ok_bind {ε α β : Type} {a : α} {f : α → Except ε β} : ((.ok a : Except ε α) >>= f) = f a := rfl

/-- What comes after an early end. -/
theorem error_bind {ε α β : Type} {e : ε} {f : α → Except ε β} : ((.error e : Except ε α) >>= f) = .error e := rfl

theorem require_eq_ok {p : Prop} [Decidable p] {h : Halt} {u : Unit} : require p h = .ok u ↔ p := by
  unfold require; split <;> simp_all

theorem require_eq_error {p : Prop} [Decidable p] {h e : Halt} : require p h = .error e ↔ ¬p ∧ h = e := by
  unfold require; split <;> simp_all

/-- A check that holds goes on. -/
theorem require_of {p : Prop} [Decidable p] {h : Halt} (hp : p) : require p h = .ok () := if_pos hp

/-- A check that fails ends the command. -/
theorem require_not {p : Prop} [Decidable p] {h : Halt} (hp : ¬p) : require p h = .error h := if_neg hp

/-- A passed check drops out of a sequence. -/
theorem require_bind {p : Prop} [Decidable p] {h : Halt} {β : Type} {f : Unit → Except Halt β} (hp : p) :
    (require p h >>= f) = f () := by rw [require_of hp]; rfl

/-- A failed check ends a sequence. -/
theorem require_bind_not {p : Prop} [Decidable p] {h : Halt} {β : Type} {f : Unit → Except Halt β} (hp : ¬p) :
    (require p h >>= f) = .error h := by rw [require_not hp]; rfl

/-- Everything a command can do that goes on: it completes `OK` with what its body computed, or it is refused and writes no
register. -/
theorem conclude_eq_next {s t : State} {body : Except Halt (Results × State)} :
    conclude s body = .next t ↔
      (∃ r u, body = .ok (r, u) ∧ t = u.answer .ok r) ∨ (∃ st, body = .error (.answer st) ∧ t = s.refuse st) := by
  unfold conclude
  rcases body with (st | f) | ⟨r, u⟩ <;> simp [eq_comm]

/-- A command stops only with the fault of its body. -/
theorem conclude_eq_fault {s : State} {body : Except Halt (Results × State)} {f : Fault} :
    conclude s body = .fault f ↔ body = .error (.fault f) := by
  unfold conclude
  rcases body with (st | f) | ⟨r, u⟩ <;> simp

/-- No command is without a meaning. -/
theorem conclude_ne_refused {s : State} {body : Except Halt (Results × State)} {r : Refusal} :
    conclude s body ≠ .refused r := by
  unfold conclude
  rcases body with (st | f) | ⟨r, u⟩ <;> simp

theorem conclude_ok (s t : State) (r : Results) : conclude s (.ok (r, t)) = .next (t.answer .ok r) := rfl

theorem conclude_answer (s : State) (st : Status) : conclude s (.error (.answer st)) = .next (s.refuse st) := rfl

theorem conclude_fault (s : State) (f : Fault) : conclude s (.error (.fault f)) = .fault f := rfl

end Sys2Proof.Machine
end

