-- ==== Sys2Proof/Laws/Parse.lean ====
section
/-!
SUPPORT. The length code, the padding chain, the length codes of a VBR packet, and what a completed parse has checked (R145 to
R157): everything the parser's operations do, said once. A parse of bytes that lie inside the memory never stops the machine.
-/

namespace Sys2Proof.Machine

/-- The ends a parse may come to: a failure of R192. -/
def ParseFailure (e : Halt) : Prop :=
  e = .answer .dtx ∨ e = .answer .invalidLength ∨ e = .answer .invalidFormat

theorem requireLength_eq_error {p : Prop} [Decidable p] {e : Halt} (h : requireLength p = .error e) : ParseFailure e :=
  .inr (.inl (require_eq_error.1 h).2.symm)

/-! ### The length code -/

/-- A length code of one byte (R145). -/
theorem varint_short {m : ByteSpace} {p n : Nat} (hin : p + n ≤ m.size) (hn : 1 ≤ n)
    (hv : (m.bytes.read p).toNat ≤ 251) : varint m p n = .ok { value := (m.bytes.read p).toNat, used := 1 } := by
  rw [varint, requireLength, require_bind hn, ByteSpace.get_inside (by omega), ok_bind, if_pos hv]

/-- A length code of two bytes (R145). -/
theorem varint_long {m : ByteSpace} {p n : Nat} (hin : p + n ≤ m.size) (hn : 2 ≤ n)
    (hv : 251 < (m.bytes.read p).toNat) :
    varint m p n = .ok { value := (m.bytes.read (p + 1)).toNat * 4 + (m.bytes.read p).toNat, used := 2 } := by
  rw [varint, requireLength, require_bind (show 1 ≤ n by omega), ByteSpace.get_inside (by omega), ok_bind,
    if_neg (by omega), requireLength, require_bind hn, ByteSpace.get_inside (by omega), ok_bind]

/-- A length code that is cut off (R145, R146). -/
theorem varint_missing {m : ByteSpace} {p n : Nat} (hin : p + n ≤ m.size)
    (h : n = 0 ∨ (n = 1 ∧ 251 < (m.bytes.read p).toNat)) : varint m p n = .error (.answer .invalidLength) := by
  rcases h with rfl | ⟨rfl, hv⟩
  · rw [varint, requireLength, require_bind_not (by omega)]
  · rw [varint, requireLength, require_bind (le_refl 1), ByteSpace.get_inside (by omega), ok_bind, if_neg (by omega),
      requireLength, require_bind_not (by omega)]

/-- What a length code that was read satisfies (R145). -/
theorem varint_ok_bounds {m : ByteSpace} {p n : Nat} {c : LengthCode} (h : varint m p n = .ok c) :
    1 ≤ c.used ∧ c.used ≤ n ∧ c.used ≤ 2 ∧ c.value ≤ maxFrame := by
  have hmf : maxFrame = 1275 := rfl
  unfold varint at h
  obtain ⟨_, h1, h⟩ := bind_eq_ok.1 h
  have h1 := require_eq_ok.1 h1
  obtain ⟨v, -, h⟩ := bind_eq_ok.1 h
  have hv := v.isLt
  split at h
  · cases h; exact ⟨by simp, by simpa using h1, by simp, by simp only; omega⟩
  · obtain ⟨_, h2, h⟩ := bind_eq_ok.1 h
    have h2 := require_eq_ok.1 h2
    obtain ⟨w, -, h⟩ := bind_eq_ok.1 h
    have hw := w.isLt
    cases h
    exact ⟨by simp, by simpa using h2, by simp, by simp only; omega⟩

/-- A length code inside the memory is read or fails with `INVALID_LENGTH` (R146). -/
theorem varint_cases {m : ByteSpace} {p n : Nat} (hin : p + n ≤ m.size) :
    varint m p n = .error (.answer .invalidLength) ∨ ∃ c, varint m p n = .ok c := by
  by_cases h0 : n = 0
  · exact .inl (varint_missing hin (.inl h0))
  · by_cases hv : (m.bytes.read p).toNat ≤ 251
    · exact .inr ⟨_, varint_short hin (by omega) hv⟩
    · by_cases h1 : n = 1
      · exact .inl (varint_missing hin (.inr ⟨h1, by omega⟩))
      · exact .inr ⟨_, varint_long hin (by omega) (by omega)⟩

/-- A length code read with `n` bytes left is read with any number left that holds it. -/
theorem varint_shrink {m : ByteSpace} {p n k : Nat} {c : LengthCode} (h : varint m p n = .ok c) (hk : c.used ≤ k) :
    varint m p k = .ok c := by
  have hb := varint_ok_bounds h
  unfold varint at h ⊢
  obtain ⟨_, h1, h⟩ := bind_eq_ok.1 h
  obtain ⟨v, hv, h⟩ := bind_eq_ok.1 h
  rw [requireLength, require_bind (show 1 ≤ k by omega), hv, ok_bind]
  split at h
  · rename_i hle; rw [if_pos hle]; exact h
  · rename_i hle
    obtain ⟨_, h2, h⟩ := bind_eq_ok.1 h
    obtain ⟨w, hw, h⟩ := bind_eq_ok.1 h
    cases h
    rw [if_neg hle, requireLength, require_bind (show 2 ≤ k from hk), hw, ok_bind]

/-! ### The length-prefix region -/

/-- More reading steps than bytes change nothing. -/
theorem lengthCodes_bound {m : ByteSpace} : ∀ {b b' base len : Nat} {ls : List Nat},
    lengthCodes m b base len = some ls → len ≤ b' → lengthCodes m b' base len = some ls := by
  intro b
  induction b with
  | zero =>
    intro b' base len ls h hb
    cases len with
    | zero => unfold lengthCodes at h ⊢; simpa using h
    | succ len => simp [lengthCodes] at h
  | succ b ih =>
    intro b' base len ls h hb
    cases len with
    | zero => unfold lengthCodes at h ⊢; simpa using h
    | succ len =>
      obtain ⟨b', rfl⟩ : ∃ i, b' = i + 1 := ⟨b' - 1, by omega⟩
      rw [lengthCodes] at h ⊢
      split at h
      · rename_i c hc
        have hcb := varint_ok_bounds hc
        rw [Option.map_eq_some_iff] at h ⊢
        obtain ⟨l, hl, rfl⟩ := h
        exact ⟨l, ih hl (by omega), rfl⟩
      · cases h

/-- The first code of a region that holds whole codes, and the rest of the region (R171). -/
theorem lengthCodes_head {m : ByteSpace} {base len : Nat} {ls : List Nat}
    (h : lengthCodes m len base len = some ls) (hlen : len ≠ 0) :
    ∃ c ls', varint m base len = .ok c ∧ ls = c.value :: ls' ∧
      lengthCodes m (len - c.used) (base + c.used) (len - c.used) = some ls' := by
  obtain ⟨k, rfl⟩ : ∃ k, len = k + 1 := ⟨len - 1, by omega⟩
  rw [lengthCodes] at h
  split at h
  · rename_i c hc
    rw [Option.map_eq_some_iff] at h
    obtain ⟨l, hl, rfl⟩ := h
    exact ⟨c, l, hc, rfl, lengthCodes_bound hl (le_refl _)⟩
  · cases h

/-- Codes that stand one after another fill their bytes exactly. -/
theorem CodesAt.lengthCodes {m : ByteSpace} : ∀ {ls : List Nat} {p n used : Nat}, CodesAt m p n ls used →
    lengthCodes m used p used = some ls := by
  intro ls
  induction ls with
  | nil => intro p n used h; obtain rfl : used = 0 := h; simp [Machine.lengthCodes]
  | cons l ls ih =>
    intro p n used h
    obtain ⟨c, hc, rfl, hu, h⟩ := h
    have hb := varint_ok_bounds hc
    obtain ⟨k, rfl⟩ : ∃ k, used = k + 1 := ⟨used - 1, by omega⟩
    rw [Machine.lengthCodes, varint_shrink hc hu]
    simp only
    rw [lengthCodes_bound (ih h) (by omega)]
    rfl

/-- Codes that stand within `n` bytes take no more. -/
theorem CodesAt.used_le {m : ByteSpace} : ∀ {ls : List Nat} {p n used : Nat}, CodesAt m p n ls used → used ≤ n := by
  intro ls
  induction ls with
  | nil => intro p n used h; obtain rfl : used = 0 := h; omega
  | cons l ls ih =>
    intro p n used h
    obtain ⟨c, hc, -, hu, h⟩ := h
    have := ih h
    have := varint_ok_bounds hc
    omega

/-- The length-code loop reads codes that stand one after another (R154). -/
theorem vbrCodes_of_codesAt {m : ByteSpace} : ∀ {ls : List Nat} {p n used sum : Nat}, CodesAt m p n ls used →
    vbrCodes m ls.length p n sum = .ok { sum := sum + ls.sum, next := p + used, left := n - used } := by
  intro ls
  induction ls with
  | nil => intro p n used sum h; obtain rfl : used = 0 := h; rfl
  | cons l ls ih =>
    intro p n used sum h
    obtain ⟨c, hc, rfl, hu, h⟩ := h
    rw [List.length_cons, vbrCodes, hc, ok_bind, ih h]
    congr 2
    · rw [List.sum_cons]; ring
    · omega
    · omega

/-- What the length-code loop has read when it ends (R154). -/
theorem vbrCodes_ok {m : ByteSpace} : ∀ {k p n sum : Nat} {r : CodeRun}, vbrCodes m k p n sum = .ok r →
    ∃ ls used, ls.length = k ∧ CodesAt m p n ls used ∧ r = { sum := sum + ls.sum, next := p + used, left := n - used } := by
  intro k
  induction k with
  | zero => intro p n sum r h; cases h; exact ⟨[], 0, rfl, rfl, rfl⟩
  | succ k ih =>
    intro p n sum r h
    rw [vbrCodes] at h
    obtain ⟨c, hc, h⟩ := bind_eq_ok.1 h
    obtain ⟨ls, used, hlen, hat, rfl⟩ := ih h
    have hb := varint_ok_bounds hc
    refine ⟨c.value :: ls, c.used + used, by simp [hlen], ⟨c, hc, rfl, by omega, by simpa using hat⟩, ?_⟩
    congr 1
    · rw [List.sum_cons]; ring
    · omega
    · omega

/-- The length-code loop inside the memory ends or fails with `INVALID_LENGTH` (R146, R154). -/
theorem vbrCodes_cases {m : ByteSpace} : ∀ {k p n sum : Nat}, p + n ≤ m.size →
    vbrCodes m k p n sum = .error (.answer .invalidLength) ∨ ∃ r, vbrCodes m k p n sum = .ok r := by
  intro k
  induction k with
  | zero => intro p n sum _; exact .inr ⟨_, rfl⟩
  | succ k ih =>
    intro p n sum hin
    rw [vbrCodes]
    rcases varint_cases hin with h | ⟨c, h⟩
    · rw [h]; exact .inl rfl
    · have hb := varint_ok_bounds h
      rw [h, ok_bind]
      exact ih (by omega)

/-! ### The padding chain -/

/-- A chain of `j` bytes 255 ended by another byte (R152). -/
theorem padChain_ends {m : ByteSpace} {cont : Nat} : ∀ {j n p tp : Nat}, j < n → p + n ≤ m.size →
    (∀ i, i < j → m.bytes.read (p + i) = 255) → m.bytes.read (p + j) ≠ 255 →
    padChain m cont n p tp = .ok
      { total := tp + j * cont + (m.bytes.read (p + j)).toNat, next := p + j + 1, left := n - j - 1 } := by
  intro j
  induction j with
  | zero =>
    intro n p tp hj hin _ hb
    obtain ⟨n, rfl⟩ : ∃ i, n = i + 1 := ⟨n - 1, by omega⟩
    rw [Nat.add_zero] at hb
    rw [padChain, ByteSpace.get_inside (by omega), ok_bind, if_neg hb]
    simp
  | succ j ih =>
    intro n p tp hj hin hall hb
    obtain ⟨n, rfl⟩ : ∃ i, n = i + 1 := ⟨n - 1, by omega⟩
    have h0 := hall 0 (by omega)
    rw [Nat.add_zero] at h0
    rw [padChain, ByteSpace.get_inside (by omega), ok_bind, if_pos h0]
    have e : ∀ i, p + 1 + i = p + (i + 1) := fun i => by omega
    rw [ih (by omega) (by omega) (fun i hi => by rw [e]; exact hall (i + 1) (by omega)) (by rw [e]; exact hb), e]
    congr 2
    · ring
    · omega

/-- A chain that runs off the data (R146, R152). -/
theorem padChain_runs_off {m : ByteSpace} {cont : Nat} : ∀ {n p tp : Nat}, p + n ≤ m.size →
    (∀ i, i < n → m.bytes.read (p + i) = 255) → padChain m cont n p tp = .error (.answer .invalidLength) := by
  intro n
  induction n with
  | zero => intro p tp _ _; rfl
  | succ n ih =>
    intro p tp hin hall
    have h0 := hall 0 (by omega)
    rw [Nat.add_zero] at h0
    rw [padChain, ByteSpace.get_inside (by omega), ok_bind, if_pos h0]
    exact ih (by omega) fun i hi => by
      have := hall (i + 1) (by omega)
      rwa [show p + 1 + i = p + (i + 1) by omega]

/-- A chain inside the memory ends, within the data, or fails with `INVALID_LENGTH` (R152). -/
theorem padChain_cases {m : ByteSpace} {cont : Nat} : ∀ {n p tp : Nat}, p + n ≤ m.size →
    padChain m cont n p tp = .error (.answer .invalidLength) ∨
      ∃ c, padChain m cont n p tp = .ok c ∧ p < c.next ∧ c.next + c.left = p + n := by
  intro n
  induction n with
  | zero => intro p tp _; exact .inl rfl
  | succ n ih =>
    intro p tp hin
    rw [padChain, ByteSpace.get_inside (by omega), ok_bind]
    split
    · rcases ih (p := p + 1) (tp := tp + cont) (by omega) with h | ⟨c, h, h1, h2⟩
      · exact .inl h
      · exact .inr ⟨c, h, by omega, by omega⟩
    · exact .inr ⟨_, rfl, by simp, by simp only; omega⟩

/-! ### A completed parse -/

/-- What a parse of the bytes from `lo` to `hi` has checked when it completes (R147 to R157). -/
structure LayoutOk (m : ByteSpace) (lo hi : Nat) (y : Layout) : Prop where
  payLow : lo ≤ y.payBase
  payHigh : y.payBase + y.payLen ≤ hi
  equalHalves : y.scheme = .doubleEqual → y.payLen % 2 = 0 ∧ y.payLen ≤ 2 * maxFrame
  explicitFits : y.scheme = .doubleExplicit → 1 ≤ y.arg ∧ y.arg ≤ maxFrame ∧ y.arg ≤ y.payLen
  wholeFrames : y.scheme = .cbr → y.payLen % y.arg = 0 ∧ y.arg ≤ maxFrame
  codesFit : y.scheme = .vbr → lo ≤ y.lpBase ∧ y.lpBase + y.lpLen = y.payBase ∧
    ∃ ls, lengthCodes m y.lpLen y.lpBase y.lpLen = some ls ∧ ls.sum ≤ y.payLen
  noCodes : y.scheme ≠ .vbr → y.lpBase = 0 ∧ y.lpLen = 0
  argSmall : y.arg ≤ maxFrame

theorem parseCode0_cases {m : ByteSpace} {p n : Nat} :
    (∃ e, parseCode0 p n = .error e ∧ ParseFailure e) ∨ ∃ y, parseCode0 p n = .ok y ∧ LayoutOk m p (p + n) y := by
  unfold parseCode0
  by_cases h : n ≤ maxFrame
  · rw [requireLength, require_bind h]
    exact .inr ⟨_, rfl, by constructor <;> simp⟩
  · rw [requireLength, require_bind_not h]
    exact .inl ⟨_, rfl, .inr (.inl rfl)⟩

theorem parseCode1_cases {m : ByteSpace} {p n : Nat} :
    (∃ e, parseCode1 p n = .error e ∧ ParseFailure e) ∨ ∃ y, parseCode1 p n = .ok y ∧ LayoutOk m p (p + n) y := by
  unfold parseCode1
  by_cases h : n % 2 = 0 ∧ n ≤ 2 * maxFrame
  · rw [requireLength, require_bind h]
    exact .inr ⟨_, rfl, by constructor <;> simp [h]⟩
  · rw [requireLength, require_bind_not h]
    exact .inl ⟨_, rfl, .inr (.inl rfl)⟩

theorem parseCode2_cases {m : ByteSpace} {p n : Nat} (hin : p + n ≤ m.size) :
    (∃ e, parseCode2 m p n = .error e ∧ ParseFailure e) ∨ ∃ y, parseCode2 m p n = .ok y ∧ LayoutOk m p (p + n) y := by
  unfold parseCode2
  by_cases h1 : 1 ≤ n
  · rw [requireLength, require_bind h1, ByteSpace.get_inside (by omega), ok_bind]
    by_cases h0 : m.bytes.read p ≠ 0
    · rw [require_bind h0]
      rcases varint_cases hin with h | ⟨c, h⟩
      · rw [h]; exact .inl ⟨_, rfl, .inr (.inl rfl)⟩
      · have hb := varint_ok_bounds h
        have hpos : 1 ≤ c.value := by
          have hne : (m.bytes.read p).toNat ≠ 0 := fun hc => h0 (BitVec.eq_of_toNat_eq hc)
          by_cases hs : (m.bytes.read p).toNat ≤ 251
          · rw [varint_short hin h1 hs] at h; cases h; simp only; omega
          · by_cases hn2 : 2 ≤ n
            · rw [varint_long hin hn2 (by omega)] at h; cases h; simp only; omega
            · rw [varint_missing hin (.inr ⟨by omega, by omega⟩)] at h; cases h
        rw [h, ok_bind]
        by_cases hl : c.value ≤ n - c.used
        · rw [requireLength, require_bind hl]
          refine .inr ⟨_, rfl, ?_⟩
          constructor <;> simp <;> omega
        · rw [requireLength, require_bind_not hl]
          exact .inl ⟨_, rfl, .inr (.inl rfl)⟩
    · rw [require_bind_not h0]
      exact .inl ⟨_, rfl, .inl rfl⟩
  · rw [requireLength, require_bind_not h1]
    exact .inl ⟨_, rfl, .inr (.inl rfl)⟩

theorem parseVbr_cases {m : ByteSpace} {p n cnt : Nat} (hin : p + n ≤ m.size) :
    (∃ e, parseVbr m p n cnt = .error e ∧ ParseFailure e) ∨
      ∃ y, parseVbr m p n cnt = .ok y ∧ LayoutOk m p (p + n) y := by
  unfold parseVbr
  rcases vbrCodes_cases (k := cnt - 1) (sum := 0) hin with h | ⟨r, h⟩
  · rw [h]; exact .inl ⟨_, rfl, .inr (.inl rfl)⟩
  · obtain ⟨ls, used, -, hat, rfl⟩ := vbrCodes_ok h
    have hu := hat.used_le
    have hl := hat.lengthCodes
    rw [h, ok_bind]
    by_cases hs : 0 + ls.sum ≤ n - used
    · rw [requireLength, require_bind hs]
      refine .inr ⟨_, rfl, ?_⟩
      constructor <;> simp
      · omega
      · exact ⟨ls, hl, by omega⟩
    · rw [requireLength, require_bind_not hs]
      exact .inl ⟨_, rfl, .inr (.inl rfl)⟩

theorem parseCbr_cases {m : ByteSpace} {p n cnt : Nat} :
    (∃ e, parseCbr p n cnt = .error e ∧ ParseFailure e) ∨
      ∃ y, parseCbr p n cnt = .ok y ∧ LayoutOk m p (p + n) y := by
  unfold parseCbr
  by_cases h0 : n % cnt = 0
  · rw [requireLength, require_bind h0]
    by_cases hs : n / cnt ≤ maxFrame
    · rw [requireLength, require_bind hs]
      have hmod : n % (n / cnt) = 0 := by
        obtain ⟨k, rfl⟩ := Nat.dvd_of_mod_eq_zero h0
        rcases Nat.eq_zero_or_pos cnt with rfl | hc
        · simp
        · rw [Nat.mul_div_cancel_left _ hc]; simp
      refine .inr ⟨_, rfl, ?_⟩
      constructor <;> simp [hmod, hs]
    · rw [requireLength, require_bind_not hs]
      exact .inl ⟨_, rfl, .inr (.inl rfl)⟩
  · rw [requireLength, require_bind_not h0]
    exact .inl ⟨_, rfl, .inr (.inl rfl)⟩

theorem LayoutOk.widen {m : ByteSpace} {lo lo' hi hi' : Nat} {y : Layout} (h : LayoutOk m lo hi y) (hl : lo' ≤ lo)
    (hh : hi ≤ hi') : LayoutOk m lo' hi' y :=
  { h with
    payLow := hl.trans h.payLow
    payHigh := h.payHigh.trans hh
    codesFit := fun hs => ⟨hl.trans (h.codesFit hs).1, (h.codesFit hs).2⟩ }

theorem afterPadding_cases {m : ByteSpace} {cont p n : Nat} {h : Byte} (hin : p + n ≤ m.size) :
    (∃ e, afterPadding m cont h p n = .error e ∧ ParseFailure e) ∨
      ∃ q k, afterPadding m cont h p n = .ok (q, k) ∧ p ≤ q ∧ q + k ≤ p + n := by
  unfold afterPadding
  split
  · unfold stripPadding
    rcases padChain_cases (cont := cont) (tp := 0) hin with h | ⟨c, h, h1, h2⟩
    · rw [h]; exact .inl ⟨_, rfl, .inr (.inl rfl)⟩
    · rw [h, ok_bind]
      by_cases hc : c.total ≤ c.left
      · rw [requireLength, require_bind hc]
        exact .inr ⟨_, _, rfl, by omega, by omega⟩
      · rw [requireLength, require_bind_not hc]
        exact .inl ⟨_, rfl, .inr (.inl rfl)⟩
  · exact .inr ⟨_, _, rfl, le_refl _, le_refl _⟩

theorem parseCode3_cases {m : ByteSpace} {cont p n : Nat} (hin : p + n ≤ m.size) :
    (∃ e, parseCode3 m cont p n = .error e ∧ ParseFailure e) ∨
      ∃ y, parseCode3 m cont p n = .ok y ∧ LayoutOk m p (p + n) y := by
  unfold parseCode3
  by_cases h1 : 1 ≤ n
  · rw [requireLength, require_bind h1, ByteSpace.get_inside (by omega), ok_bind]
    by_cases h0 : headerCount (m.bytes.read p) ≠ 0
    · rw [require_bind h0]
      rcases afterPadding_cases (m := m) (cont := cont) (h := m.bytes.read p) (p := p + 1) (n := n - 1) (by omega) with
        ⟨e, h, he⟩ | ⟨q, k, h, hq, hk⟩
      · rw [h]; exact .inl ⟨_, rfl, he⟩
      · rw [h, ok_bind]
        unfold parseLengths
        have hw : ∀ y, LayoutOk m q (q + k) y → LayoutOk m p (p + n) y := fun y hy => hy.widen (by omega) (by omega)
        simp only
        split
        · rcases parseVbr_cases (cnt := headerCount (m.bytes.read p)) (show q + k ≤ m.size by omega) with
            h | ⟨y, hy, hok⟩
          · exact .inl h
          · exact .inr ⟨y, hy, hw y hok⟩
        · rcases parseCbr_cases (m := m) (p := q) (n := k) (cnt := headerCount (m.bytes.read p)) with h | ⟨y, hy, hok⟩
          · exact .inl h
          · exact .inr ⟨y, hy, hw y hok⟩
    · rw [require_bind_not h0]
      exact .inl ⟨_, rfl, .inr (.inr rfl)⟩
  · rw [requireLength, require_bind_not h1]
    exact .inl ⟨_, rfl, .inr (.inl rfl)⟩

/-- Everything a parse of bytes inside the memory can do: fail with a status of R192, or complete with a layout that R157
holds of. -/
theorem parsePacket_cases {m : ByteSpace} {cont base len : Nat} (hin : base + len ≤ m.size) :
    (∃ e, parsePacket m cont base len = .error e ∧ ParseFailure e) ∨
      ∃ y, parsePacket m cont base len = .ok (m.bytes.read base, y) ∧ len ≠ 0 ∧
        LayoutOk m (base + 1) (base + len) y := by
  unfold parsePacket
  by_cases h0 : len ≠ 0
  · rw [requireLength, require_bind h0, ByteSpace.get_inside (by omega), ok_bind]
    have hin' : base + 1 + (len - 1) ≤ m.size := by omega
    have heq : base + 1 + (len - 1) = base + len := by omega
    have hcases : (∃ e, parseCode m cont (tocCode (m.bytes.read base)) (base + 1) (len - 1) = .error e ∧ ParseFailure e) ∨
        ∃ y, parseCode m cont (tocCode (m.bytes.read base)) (base + 1) (len - 1) = .ok y ∧
          LayoutOk m (base + 1) (base + 1 + (len - 1)) y := by
      unfold parseCode
      split
      · exact parseCode0_cases
      · exact parseCode1_cases
      · exact parseCode2_cases hin'
      · exact parseCode3_cases hin'
    rw [heq] at hcases
    rcases hcases with ⟨e, h, he⟩ | ⟨y, h, hy⟩
    · rw [h]; exact .inl ⟨_, rfl, he⟩
    · rw [h]; exact .inr ⟨y, rfl, h0, hy⟩
  · rw [requireLength, require_bind_not h0]
    exact .inl ⟨_, rfl, .inr (.inl rfl)⟩

/-- The committed registers hold a Packet (R156, R157). -/
theorem LayoutOk.held {m : ByteSpace} {lo hi : Nat} {toc : Byte} {y : Layout} (h : LayoutOk m lo hi y)
    (hhi : hi ≤ m.size) (hmax : m.size ≤ maxView) : (commitUnit toc y).Held m := by
  have hmv : maxView = 16777216 := rfl
  have hmf : maxFrame = 1275 := rfl
  have h1 := h.payHigh
  have h2 := h.argSmall
  have hlp : y.lpBase < 2 ^ 25 ∧ y.lpLen < 2 ^ 25 := by
    by_cases hs : y.scheme = .vbr
    · obtain ⟨-, h3, -⟩ := h.codesFit hs; omega
    · obtain ⟨h3, h4⟩ := h.noCodes hs; omega
  have e1 : (commitUnit toc y).payBase.toNat = y.payBase := by
    simp only [commitUnit, BitVec.toNat_ofNat]; exact Nat.mod_eq_of_lt (by omega)
  have e2 : (commitUnit toc y).payLen.toNat = y.payLen := by
    simp only [commitUnit, BitVec.toNat_ofNat]; exact Nat.mod_eq_of_lt (by omega)
  have e3 : (commitUnit toc y).arg.toNat = y.arg := by
    simp only [commitUnit, BitVec.toNat_ofNat]; exact Nat.mod_eq_of_lt (by omega)
  have e4 : (commitUnit toc y).lpBase.toNat = y.lpBase := by
    simp only [commitUnit, BitVec.toNat_ofNat]; exact Nat.mod_eq_of_lt hlp.1
  have e5 : (commitUnit toc y).lpLen.toNat = y.lpLen := by
    simp only [commitUnit, BitVec.toNat_ofNat]; exact Nat.mod_eq_of_lt hlp.2
  have e6 : (commitUnit toc y).scheme = y.scheme := rfl
  constructor
  · rw [e1, e2]; omega
  · rw [e2, e6]; exact h.equalHalves
  · rw [e2, e3, e6]; exact h.explicitFits
  · rw [e2, e3, e6]; exact h.wholeFrames
  · rw [e1, e2, e4, e5, e6]
    intro hs
    obtain ⟨-, h3, h4⟩ := h.codesFit hs
    exact ⟨by omega, h4⟩
  · rw [e4, e5, e6]; exact h.noCodes

end Sys2Proof.Machine
end

