-- ==== Sys2Proof/Laws/Frames.lean ====
section
/-!
SUPPORT. One step of the frame iterator on a held Packet (R171, R172): the length it takes in each scheme, that the frame
always fits the payload, and that what is left is a held Packet still.
-/

namespace Sys2Proof.Machine

theorem ofNat25_toNat {x : Nat} (h : x < 2 ^ 25) : (BitVec.ofNat 25 x).toNat = x := by
  rw [BitVec.toNat_ofNat, Nat.mod_eq_of_lt h]

/-- The registers the iterator writes are the only ones a length takes part in (R170, R171). -/
theorem nextLength_frame {m : ByteSpace} {u v : PpUnit} {size : Nat} (h : nextLength m u = .ok (size, v)) :
    v = { u with scheme := v.scheme, lpBase := v.lpBase, lpLen := v.lpLen } := by
  unfold nextLength at h
  split at h
  · cases h; rfl
  · cases h; rfl
  · cases h; rfl
  · cases h; rfl
  · split at h
    · cases h; rfl
    · obtain ⟨c, -, h⟩ := bind_eq_ok.1 h
      cases h; rfl

theorem takeFrame_eq_ok {size : Nat} {u v : PpUnit} : takeFrame size u = .ok v ↔ size ≤ u.payLen.toNat ∧
    v = { u with payBase := BitVec.ofNat 25 (u.payBase.toNat + size), payLen := BitVec.ofNat 25 (u.payLen.toNat - size) } := by
  unfold takeFrame
  by_cases h : size ≤ u.payLen.toNat
  · rw [require_bind h]; simp [h, eq_comm]
  · rw [require_bind_not h]; simp [h]

theorem takeFrame_fits {size : Nat} {u : PpUnit} (h : size ≤ u.payLen.toNat) : takeFrame size u = .ok
    { u with payBase := BitVec.ofNat 25 (u.payBase.toNat + size), payLen := BitVec.ofNat 25 (u.payLen.toNat - size) } :=
  takeFrame_eq_ok.2 ⟨h, rfl⟩

/-- What one step of the iterator leaves of a held Packet whose payload is not empty (R171, R172, R174, R175). -/
structure FrameTaken (m : ByteSpace) (u : PpUnit) (size : Nat) (v : PpUnit) : Prop where
  fits : size ≤ u.payLen.toNat
  nextBase : v.payBase.toNat = u.payBase.toNat + size
  nextLen : v.payLen.toNat = u.payLen.toNat - size
  held : v.Held m
  phase : v.phase = u.phase
  /-- The work left decreases (R174). -/
  shrinks : v.payLen.toNat + v.lpLen.toNat < u.payLen.toNat + u.lpLen.toNat

/-- A held Packet with a payload always yields a frame, and what is left is held (R171, R172). -/
theorem nextLength_takeFrame {m : ByteSpace} {u : PpUnit} (h : u.Held m) (hmax : m.size ≤ maxView)
    (hne : u.payLen.toNat ≠ 0) :
    ∃ size w v, nextLength m u = .ok (size, w) ∧ takeFrame size w = .ok v ∧ FrameTaken m u size v := by
  have hmv : maxView = 16777216 := rfl
  have hin := h.payInside
  have hpos : 0 < u.payLen.toNat := Nat.pos_of_ne_zero hne
  -- the payload registers after a frame that fits
  have hb : ∀ size, size ≤ u.payLen.toNat →
      (BitVec.ofNat 25 (u.payBase.toNat + size)).toNat = u.payBase.toNat + size ∧
      (BitVec.ofNat 25 (u.payLen.toNat - size)).toNat = u.payLen.toNat - size := by
    intro size hs
    exact ⟨ofNat25_toNat (by omega), ofNat25_toNat (by omega)⟩
  unfold nextLength
  split
  · rename_i hs
    obtain ⟨e1, e2⟩ := hb _ (le_refl _)
    have hnc := h.noCodes (by rw [hs]; decide)
    refine ⟨_, _, _, rfl, takeFrame_fits (le_refl _), le_refl _, e1, e2, ?_, rfl, ?_⟩
    · constructor
      · show (BitVec.ofNat 25 _).toNat + (BitVec.ofNat 25 _).toNat ≤ _
        rw [e1, e2]; omega
      · intro hc; exact absurd (hs.symm.trans hc) (by decide)
      · intro hc; exact absurd (hs.symm.trans hc) (by decide)
      · intro hc; exact absurd (hs.symm.trans hc) (by decide)
      · intro hc; exact absurd (hs.symm.trans hc) (by decide)
      · intro _; exact hnc
    · show (BitVec.ofNat 25 _).toNat + _ < _
      rw [e2]; show _ + u.lpLen.toNat < _; omega
  · rename_i hs
    obtain ⟨heven, -⟩ := h.equalHalves hs
    have hle : u.payLen.toNat / 2 ≤ u.payLen.toNat := Nat.div_le_self _ _
    obtain ⟨e1, e2⟩ := hb _ hle
    have hnc := h.noCodes (by rw [hs]; decide)
    refine ⟨_, _, _, rfl, takeFrame_fits hle, hle, e1, e2, ?_, rfl, ?_⟩
    · constructor
      · show (BitVec.ofNat 25 _).toNat + (BitVec.ofNat 25 _).toNat ≤ _
        rw [e1, e2]; omega
      · intro hc; cases hc
      · intro hc; cases hc
      · intro hc; cases hc
      · intro hc; cases hc
      · intro _; exact hnc
    · show (BitVec.ofNat 25 _).toNat + _ < _
      rw [e2]; show _ + u.lpLen.toNat < _; omega
  · rename_i hs
    obtain ⟨h1, -, h3⟩ := h.explicitFits hs
    obtain ⟨e1, e2⟩ := hb _ h3
    have hnc := h.noCodes (by rw [hs]; decide)
    refine ⟨_, _, _, rfl, takeFrame_fits h3, h3, e1, e2, ?_, rfl, ?_⟩
    · constructor
      · show (BitVec.ofNat 25 _).toNat + (BitVec.ofNat 25 _).toNat ≤ _
        rw [e1, e2]; omega
      · intro hc; cases hc
      · intro hc; cases hc
      · intro hc; cases hc
      · intro hc; cases hc
      · intro _; exact hnc
    · show (BitVec.ofNat 25 _).toNat + _ < _
      rw [e2]; show _ + u.lpLen.toNat < _; omega
  · rename_i hs
    obtain ⟨hdvd, hmf⟩ := h.wholeFrames hs
    have hap : u.arg.toNat ≠ 0 := by
      intro h0; rw [h0, Nat.mod_zero] at hdvd; exact hne hdvd
    have hle : u.arg.toNat ≤ u.payLen.toNat := Nat.le_of_dvd hpos (Nat.dvd_of_mod_eq_zero hdvd)
    obtain ⟨e1, e2⟩ := hb _ hle
    have hnc := h.noCodes (by rw [hs]; decide)
    refine ⟨_, _, _, rfl, takeFrame_fits hle, hle, e1, e2, ?_, rfl, ?_⟩
    · constructor
      · show (BitVec.ofNat 25 _).toNat + (BitVec.ofNat 25 _).toNat ≤ _
        rw [e1, e2]; omega
      · intro hc; exact absurd (hs.symm.trans hc) (by decide)
      · intro hc; exact absurd (hs.symm.trans hc) (by decide)
      · intro _
        show (BitVec.ofNat 25 _).toNat % _ = 0 ∧ _
        rw [e2]
        exact ⟨by rw [← Nat.mod_eq_sub_mod hle]; exact hdvd, hmf⟩
      · intro hc; exact absurd (hs.symm.trans hc) (by decide)
      · intro _; exact hnc
    · show (BitVec.ofNat 25 _).toNat + _ < _
      rw [e2]; show _ + u.lpLen.toNat < _; omega
  · rename_i hs
    obtain ⟨hlp, ls, hls, hsum⟩ := h.codesFit hs
    split
    · rename_i h0
      obtain ⟨e1, e2⟩ := hb _ (le_refl _)
      refine ⟨_, _, _, rfl, takeFrame_fits (le_refl _), le_refl _, e1, e2, ?_, rfl, ?_⟩
      · constructor
        · show (BitVec.ofNat 25 _).toNat + (BitVec.ofNat 25 _).toNat ≤ _
          rw [e1, e2]; omega
        · intro hc; exact absurd (hs.symm.trans hc) (by decide)
        · intro hc; exact absurd (hs.symm.trans hc) (by decide)
        · intro hc; exact absurd (hs.symm.trans hc) (by decide)
        · intro _
          show u.lpBase.toNat + u.lpLen.toNat ≤ (BitVec.ofNat 25 _).toNat ∧
            ∃ ls, lengthCodes m u.lpLen.toNat u.lpBase.toNat u.lpLen.toNat = some ls ∧ ls.sum ≤ (BitVec.ofNat 25 _).toNat
          rw [e1, e2, h0]
          exact ⟨by omega, [], by simp [lengthCodes], by simp⟩
        · intro hc; exact absurd hs hc
      · show (BitVec.ofNat 25 _).toNat + _ < _
        rw [e2]; show _ + u.lpLen.toNat < _; omega
    · rename_i h0
      obtain ⟨c, ls', hc, rfl, hrest⟩ := lengthCodes_head hls h0
      obtain ⟨hu1, hu2, -, -⟩ := varint_ok_bounds hc
      rw [List.sum_cons] at hsum
      have hle : c.value ≤ u.payLen.toNat := by omega
      obtain ⟨e1, e2⟩ := hb _ hle
      have e3 : (BitVec.ofNat 25 (u.lpBase.toNat + c.used)).toNat = u.lpBase.toNat + c.used := ofNat25_toNat (by omega)
      have e4 : (BitVec.ofNat 25 (u.lpLen.toNat - c.used)).toNat = u.lpLen.toNat - c.used := ofNat25_toNat (by omega)
      have hcode : nextLengthCode m u = .ok c := by unfold nextLengthCode; rw [hc]
      rw [hcode, ok_bind]
      refine ⟨_, _, _, rfl, takeFrame_fits hle, hle, e1, e2, ?_, rfl, ?_⟩
      · constructor
        · show (BitVec.ofNat 25 _).toNat + (BitVec.ofNat 25 _).toNat ≤ _
          rw [e1, e2]; omega
        · intro hc; exact absurd (hs.symm.trans hc) (by decide)
        · intro hc; exact absurd (hs.symm.trans hc) (by decide)
        · intro hc; exact absurd (hs.symm.trans hc) (by decide)
        · intro _
          show (BitVec.ofNat 25 _).toNat + (BitVec.ofNat 25 _).toNat ≤ (BitVec.ofNat 25 _).toNat ∧
            ∃ ls, lengthCodes m (BitVec.ofNat 25 _).toNat (BitVec.ofNat 25 _).toNat (BitVec.ofNat 25 _).toNat = some ls ∧
              ls.sum ≤ (BitVec.ofNat 25 _).toNat
          rw [e1, e2, e3, e4]
          exact ⟨by omega, ls', hrest, by omega⟩
        · intro hc; exact absurd hs hc
      · show (BitVec.ofNat 25 _).toNat + (BitVec.ofNat 25 _).toNat < _
        rw [e2, e4]; omega

end Sys2Proof.Machine
end

