-- ==== Sys2Proof/Laws/Normalize.lean ====
section
/-!
SUPPORT. The forward byte reader and `Normalize()`: everything they do, said once (R45, R82, R84).
-/

namespace Sys2Proof.Machine

/-- The view and the forward cursor lie inside the memory, as R17 and R18 say. -/
structure RdUnit.ViewOk (size : Nat) (u : RdUnit) : Prop where
  viewInside : u.base.toNat + u.len.toNat ≤ size
  offsInside : u.offs.toNat ≤ u.len.toNat

theorem RdUnit.Live.viewOk {size : Nat} {u : RdUnit} (h : u.Live size) : u.ViewOk size := ⟨h.viewInside, h.offsInside⟩

theorem viewByte_lt (m : ByteSpace) (u : RdUnit) (j : Nat) : viewByte m u j < 256 := by
  unfold viewByte; split
  · exact BitVec.isLt _
  · decide

theorem nextBytes_lt (m : ByteSpace) (u : RdUnit) (k : Nat) : nextBytes m u k < 256 ^ k := by
  induction k with
  | zero => simp [nextBytes]
  | succ k ih =>
    have := viewByte_lt m u (u.offs.toNat + k)
    rw [nextBytes, pow_succ]
    omega

/-- `FwdByte()` answers the next byte of the view, or 0 past its end, and moves only the cursor (R45). -/
theorem fwdByte_eq {m : ByteSpace} {u : RdUnit} (h : u.ViewOk m.size) :
    fwdByte m u = .ok (BitVec.ofNat 8 (viewByte m u u.offs.toNat),
      { u with offs := BitVec.ofNat 25 (min (u.offs.toNat + 1) u.len.toNat) }) := by
  have h1 := h.viewInside
  have h2 := h.offsInside
  have hl := u.len.isLt
  unfold fwdByte viewByte
  split
  · rename_i hlt
    rw [ByteSpace.get_inside (by omega), ok_bind]
    simp only [BitVec.ofNat_toNat, BitVec.setWidth_eq]
    congr 4
    apply BitVec.eq_of_toNat_eq
    rw [BitVec.toNat_add, BitVec.toNat_ofNat, show (1 : BitVec 25).toNat = 1 from rfl, min_eq_left (by omega)]
  · rename_i hge
    congr 2
    obtain ⟨⟩ := u
    simp only [RdUnit.mk.injEq, true_and, and_true] at *
    apply BitVec.eq_of_toNat_eq
    simp only [BitVec.toNat_ofNat] at *
    omega

/-- The normalization symbol as a number (R82). -/
theorem codedSymbol_toNat (r b : Byte) : (codedSymbol r b).toNat = r.toNat % 2 * 128 + b.toNat / 2 := by
  unfold codedSymbol
  rw [BitVec.toNat_append]
  simp only [BitVec.extractLsb'_toNat, Nat.shiftRight_eq_div_pow]
  have := b.isLt
  have h2 : b.toNat / 2 ^ 1 % 2 ^ 7 = b.toNat / 2 := by omega
  rw [h2, ← Nat.shiftLeft_add_eq_or_of_lt (by omega), Nat.shiftLeft_eq]
  omega

/-- What one iteration does to a unit whose view lies inside the memory (R82). -/
theorem normalizeStep_eq {m : ByteSpace} {u : RdUnit} (h : u.ViewOk m.size) :
    normalizeStep m u = .ok { u with
      offs := BitVec.ofNat 25 (min (u.offs.toNat + 1) u.len.toNat)
      nbitsTotal := u.nbitsTotal + 8
      rng := BitVec.ofNat 32 (u.rng.toNat * 256)
      rem := BitVec.ofNat 8 (viewByte m u u.offs.toNat)
      val := BitVec.ofNat 31 (u.val.toNat * 256 +
        (255 - (u.rem.toNat % 2 * 128 + viewByte m u u.offs.toNat / 2))) } := by
  have hb := viewByte_lt m u u.offs.toNat
  unfold normalizeStep
  rw [fwdByte_eq h, ok_bind]
  simp only [codedSymbol_toNat, BitVec.toNat_ofNat, Nat.mod_eq_of_lt hb]

/-- One iteration appends eight symbol bits (R82): the closed form for `k` iterations becomes that for `k + 1`. -/
theorem symbolBits_succ {a p q b : Nat} (hq : q < 2 * p) (hb : b < 256) :
    (a * p + (p - 1 - q / 2)) * 256 + (255 - (q % 2 * 128 + b / 2)) =
      a * (p * 256) + (p * 256 - 1 - (q * 256 + b) / 2) := by
  have : (q * 256 + b) / 2 = q / 2 * 256 + (q % 2 * 128 + b / 2) := by omega
  rw [this]
  have h1 : q / 2 + 1 ≤ p := by omega
  have h2 : q % 2 * 128 + b / 2 ≤ 255 := by omega
  have h3 : (a * p + (p - 1 - q / 2)) * 256 = a * (p * 256) + (p - 1 - q / 2) * 256 := by ring
  rw [h3]
  omega

theorem viewByte_congr (m : ByteSpace) {u v : RdUnit} (hb : v.base = u.base) (hl : v.len = u.len) (j : Nat) :
    viewByte m v j = viewByte m u j := by unfold viewByte; rw [hb, hl]

/-- The last bit read carries: its parity is that of the bits appended so far (R82). -/
theorem carried_parity (m : ByteSpace) (u : RdUnit) (k : Nat) :
    (if k = 0 then u.rem else BitVec.ofNat 8 (viewByte m u (u.offs.toNat + k - 1)) : Byte).toNat % 2 =
      (u.rem.toNat % 2 * 256 ^ k + nextBytes m u k) % 2 := by
  cases k with
  | zero => simp [nextBytes]
  | succ k =>
    have hb := viewByte_lt m u (u.offs.toNat + k)
    have e : u.offs.toNat + (k + 1) - 1 = u.offs.toNat + k := by omega
    simp only [Nat.add_eq_zero_iff, one_ne_zero, and_false, if_false, e, nextBytes, BitVec.toNat_ofNat, pow_succ]
    rw [show u.rem.toNat % 2 * (256 ^ k * 256) + (nextBytes m u k * 256 + viewByte m u (u.offs.toNat + k)) =
      2 * (128 * (u.rem.toNat % 2 * 256 ^ k + nextBytes m u k)) + viewByte m u (u.offs.toNat + k) by ring]
    omega

theorem symbolBits_lt (m : ByteSpace) (u : RdUnit) (k : Nat) :
    u.rem.toNat % 2 * 256 ^ k + nextBytes m u k < 2 * 256 ^ k := by
  have h1 := nextBytes_lt m u k
  have h2 : u.rem.toNat % 2 * 256 ^ k ≤ 1 * 256 ^ k := Nat.mul_le_mul_right _ (by omega)
  omega

/-- The closed form keeps `val < rng` (R84 (c)). -/
theorem symbolBits_below {a b p q : Nat} (hab : a < b) (hp : 0 < p) : a * p + (p - 1 - q / 2) < b * p := by
  have : a * p + p ≤ b * p := by
    rw [← Nat.succ_mul]
    exact Nat.mul_le_mul_right p hab
  omega

/-- One more iteration on a unit that has had `k` (R82). -/
theorem normalizedBy_step {m : ByteSpace} {u v : RdUnit} {a b k : Nat} (hu : u.ViewOk m.size)
    (hv : NormalizedBy m k u a b v) (hab : a < b) (hle : b * 256 ^ k ≤ codeBot) :
    ∃ w, normalizeStep m v = .ok w ∧ NormalizedBy m (k + 1) u a b w := by
  have hvb : v.base = u.base := by rw [hv]
  have hvl : v.len = u.len := by rw [hv]
  have hvo : v.offs = BitVec.ofNat 25 (min (u.offs.toNat + k) u.len.toNat) := by rw [hv]
  have hlt := u.len.isLt
  have hvo' : v.offs.toNat = min (u.offs.toNat + k) u.len.toNat := by
    rw [hvo, BitVec.toNat_ofNat, Nat.mod_eq_of_lt (by omega)]
  have hview : v.ViewOk m.size := ⟨by rw [hvb, hvl]; exact hu.viewInside, by rw [hvo', hvl]; omega⟩
  refine ⟨_, normalizeStep_eq hview, ?_⟩
  have hbyte : viewByte m v v.offs.toNat = viewByte m u (u.offs.toNat + k) := by
    rw [viewByte_congr m hvb hvl, hvo']
    unfold viewByte
    by_cases hc : u.offs.toNat + k < u.len.toNat
    · rw [min_eq_left (by omega)]
    · rw [min_eq_right (by omega), if_neg (by omega), if_neg hc]
  have hb256 := viewByte_lt m u (u.offs.toNat + k)
  have hcb : codeBot = 8388608 := rfl
  have hpos : 0 < 256 ^ k := by positivity
  have hvr : v.rng.toNat = b * 256 ^ k := by
    rw [hv]
    simp only [BitVec.toNat_ofNat]
    exact Nat.mod_eq_of_lt (by omega)
  have hbelow := symbolBits_below (q := u.rem.toNat % 2 * 256 ^ k + nextBytes m u k) hab hpos
  have hvv : v.val.toNat = a * 256 ^ k + (256 ^ k - 1 - (u.rem.toNat % 2 * 256 ^ k + nextBytes m u k) / 2) := by
    rw [hv]
    simp only [BitVec.toNat_ofNat]
    exact Nat.mod_eq_of_lt (by omega)
  have hvrem : v.rem.toNat % 2 = (u.rem.toNat % 2 * 256 ^ k + nextBytes m u k) % 2 := by
    rw [← carried_parity, hv]
  have hvn : v.nbitsTotal = u.nbitsTotal + BitVec.ofNat 32 (8 * k) := by rw [hv]
  unfold NormalizedBy
  rw [hbyte, hvr, hvv, hvrem, symbolBits_succ (symbolBits_lt m u k) hb256, hvo', hvn, hvl]
  rw [hv]
  simp only [RdUnit.mk.injEq, true_and, and_true]
  refine ⟨?_, ?_, ?_, ?_, ?_⟩
  · rw [pow_succ, nextBytes]
    congr 4
    ring
  · rw [pow_succ]; congr 1; ring
  · simp
  · rw [BitVec.add_assoc]; congr 1
    rw [show 8 * (k + 1) = 8 * k + 8 by ring, BitVec.ofNat_add]
    rfl
  · congr 1; omega

/-- The loop, entered after `k` of its three iterations (R84 (b)). -/
theorem normalizeLoop_spec {m : ByteSpace} {u : RdUnit} {a b : Nat} (hu : u.ViewOk m.size) (hab : a < b)
    (hb : b ≤ codeTop) : ∀ {n k : Nat} {v : RdUnit}, n + k = 3 → NormalizedBy m k u a b v →
      (∀ j, j < k → b * 256 ^ j ≤ codeBot) → ∃ w, normalizeLoop m n v = .ok w ∧ Normalized m u a b w := by
  have hcb : codeBot = 8388608 := rfl
  have hct : codeTop = 2147483648 := rfl
  intro n
  induction n with
  | zero =>
    intro k v hk hv hj
    obtain rfl : k = 3 := by omega
    have hvr : v.rng.toNat = b * 256 ^ 3 := by
      have := hj 2 (by omega)
      rw [hv]
      simp only [BitVec.toNat_ofNat]
      exact Nat.mod_eq_of_lt (by omega)
    refine ⟨v, ?_, 3, le_refl _, by omega, hj, hv⟩
    rw [normalizeLoop, if_neg (by omega)]
  | succ n ih =>
    intro k v hk hv hj
    have hlt : b * 256 ^ k < 2 ^ 32 := by
      rcases Nat.eq_zero_or_pos k with rfl | hpos
      · simp; omega
      · have := hj (k - 1) (by omega)
        obtain ⟨i, rfl⟩ : ∃ i, k = i + 1 := ⟨k - 1, by omega⟩
        simp only [Nat.add_sub_cancel] at this
        rw [pow_succ, ← mul_assoc]
        omega
    have hvr : v.rng.toNat = b * 256 ^ k := by
      rw [hv]
      simp only [BitVec.toNat_ofNat]
      exact Nat.mod_eq_of_lt hlt
    rw [normalizeLoop]
    split
    · rename_i hle
      rw [hvr] at hle
      obtain ⟨w, hw, hwn⟩ := normalizedBy_step hu hv hab hle
      rw [hw, ok_bind]
      exact ih (by omega) hwn fun j hjk => by
        rcases Nat.lt_succ_iff_lt_or_eq.1 hjk with h | rfl
        · exact hj j h
        · exact hle
    · rename_i hgt
      exact ⟨v, rfl, k, by omega, by omega, hj, hv⟩

/-- `Normalize()` on a unit with `val = a < rng = b <= 2^31` whose view lies inside the memory always ends, and does what
R82 says in closed form (R84). -/
theorem normalize_spec {m : ByteSpace} {u v : RdUnit} {a b : Nat} (hu : u.ViewOk m.size) (hab : a < b) (hb : b ≤ codeTop)
    (hv : v = { u with val := BitVec.ofNat 31 a, rng := BitVec.ofNat 32 b }) :
    ∃ w, normalize m v = .ok w ∧ Normalized m u a b w := by
  refine normalizeLoop_spec hu hab hb (k := 0) rfl ?_ (fun j hj => absurd hj (Nat.not_lt_zero j))
  have hr := u.rem.isLt
  have ho := u.offs.isLt
  have hi := hu.offsInside
  have hl := u.len.isLt
  rw [hv]
  unfold NormalizedBy
  have h1 : BitVec.ofNat 25 (min u.offs.toNat u.len.toNat) = u.offs := by
    apply BitVec.eq_of_toNat_eq
    rw [BitVec.toNat_ofNat, min_eq_left hi, Nat.mod_eq_of_lt ho]
  have h2 : (u.rem.toNat % 2) / 2 = 0 := by omega
  simp [h1, h2, nextBytes]

/-- What a normalized unit satisfies (R84 (c)): `2^23 < rng <= 2^31`, `val < rng`, and the cursor inside the view. -/
theorem Normalized.bounds {m : ByteSpace} {u v : RdUnit} {a b : Nat} (h : Normalized m u a b v)
    (hab : a < b) (hb : b ≤ codeTop) :
    codeBot < v.rng.toNat ∧ v.rng.toNat ≤ codeTop ∧ v.val.toNat < v.rng.toNat ∧ v.offs.toNat ≤ v.len.toNat := by
  obtain ⟨k, hk, hgt, hj, hv⟩ := h
  have hcb : codeBot = 8388608 := rfl
  have hct : codeTop = 2147483648 := rfl
  have hle : b * 256 ^ k ≤ codeTop := by
    rcases Nat.eq_zero_or_pos k with rfl | hpos
    · simpa using hb
    · have := hj (k - 1) (by omega)
      obtain ⟨i, rfl⟩ : ∃ i, k = i + 1 := ⟨k - 1, by omega⟩
      simp only [Nat.add_sub_cancel] at this
      rw [pow_succ, ← mul_assoc]
      omega
  have hpos : 0 < 256 ^ k := by positivity
  have hbelow := symbolBits_below (q := u.rem.toNat % 2 * 256 ^ k + nextBytes m u k) hab hpos
  have hvr : v.rng.toNat = b * 256 ^ k := by
    rw [hv]
    simp only [BitVec.toNat_ofNat]
    exact Nat.mod_eq_of_lt (by omega)
  have hvv : v.val.toNat = a * 256 ^ k + (256 ^ k - 1 - (u.rem.toNat % 2 * 256 ^ k + nextBytes m u k) / 2) := by
    rw [hv]
    simp only [BitVec.toNat_ofNat]
    exact Nat.mod_eq_of_lt (by omega)
  refine ⟨by omega, by omega, by omega, ?_⟩
  rw [hv]
  have hl := u.len.isLt
  simp only [BitVec.toNat_ofNat]
  rw [Nat.mod_eq_of_lt (by omega)]
  exact min_le_right _ _

/-- The registers `Normalize()` does not write (R81, R110). -/
theorem Normalized.frame {m : ByteSpace} {u v : RdUnit} {a b : Nat} (h : Normalized m u a b v) :
    v = { u with val := v.val, rng := v.rng, rem := v.rem, nbitsTotal := v.nbitsTotal, offs := v.offs } := by
  obtain ⟨k, -, -, -, hv⟩ := h
  rw [hv]

/-- Normalizing what is above 2^23 already changes nothing but the two registers written (R84 (b), `k = 0`). -/
theorem normalize_keeps {m : ByteSpace} {u : RdUnit} (h : codeBot < u.rng.toNat) : normalize m u = .ok u := by
  rw [normalize, normalizeLoop, if_neg (by omega)]

/-- Whatever the unit, `Normalize()` writes only `val`, `rng`, `rem`, `nbits_total` and `offs` when it ends. -/
theorem normalizeLoop_frame {m : ByteSpace} : ∀ {n : Nat} {u v : RdUnit}, normalizeLoop m n u = .ok v →
    v = { u with val := v.val, rng := v.rng, rem := v.rem, nbitsTotal := v.nbitsTotal, offs := v.offs } := by
  intro n
  induction n with
  | zero =>
    intro u v h
    rw [normalizeLoop] at h
    split at h
    · cases h
    · cases h; rfl
  | succ n ih =>
    intro u v h
    rw [normalizeLoop] at h
    split at h
    · obtain ⟨w, hw, h⟩ := bind_eq_ok.1 h
      have := ih h
      rw [normalizeStep] at hw
      obtain ⟨⟨b, x⟩, hx, hw⟩ := bind_eq_ok.1 hw
      simp only [Except.ok.injEq] at hw
      have hf : x = { u with offs := x.offs } := by
        rw [fwdByte] at hx
        split at hx
        · obtain ⟨y, -, hx⟩ := bind_eq_ok.1 hx
          simp only [Except.ok.injEq, Prod.mk.injEq] at hx
          rw [← hx.2]
        · simp only [Except.ok.injEq, Prod.mk.injEq] at hx
          rw [← hx.2]
      rw [this, ← hw, hf]
    · cases h; rfl

theorem normalize_frame {m : ByteSpace} {u v : RdUnit} (h : normalize m u = .ok v) :
    v = { u with val := v.val, rng := v.rng, rem := v.rem, nbitsTotal := v.nbitsTotal, offs := v.offs } :=
  normalizeLoop_frame h

end Sys2Proof.Machine
end

