-- ==== Sys2Proof/Laws/RawBits.lean ====
section
/-!
SUPPORT. The tail byte reader and `RawBits(n)`: everything they do, said once (R46, R108). The raw bits still to come
(`rawStream`) are kept by a refill and lose their low `n` bits when `n` bits are taken.
-/

namespace Sys2Proof.Machine

/-- The view, the tail cursor and the cache are as R17, R19 and R20 say. -/
structure RdUnit.RawOk (size : Nat) (u : RdUnit) : Prop where
  viewInside : u.base.toNat + u.len.toNat ≤ size
  endOffsInside : u.endOffs.toNat ≤ u.len.toNat
  cacheSize : u.nendBits.toNat ≤ 32
  cacheClean : u.endWindow.toNat < 2 ^ u.nendBits.toNat

theorem RdUnit.Live.rawOk {size : Nat} {u : RdUnit} (h : u.Live size) : u.RawOk size :=
  ⟨h.viewInside, h.endOffsInside, h.cacheSize, h.cacheClean⟩

/-- The registers of the raw-bit reader are the only ones that differ. -/
def SameButRaw (u v : RdUnit) : Prop :=
  v = { u with endOffs := v.endOffs, endWindow := v.endWindow, nendBits := v.nendBits }

/-- `EndByte()` answers the byte before those already read from the tail, or 0, and moves only the cursor (R46); together
with the bytes left it makes up the bytes that were left. -/
theorem endByte_spec {m : ByteSpace} {u : RdUnit} (hv : u.base.toNat + u.len.toNat ≤ m.size)
    (he : u.endOffs.toNat ≤ u.len.toNat) :
    ∃ (b : Byte) (w : RdUnit), endByte m u = .ok (b, w) ∧ w = { u with endOffs := w.endOffs } ∧
      w.endOffs.toNat ≤ w.len.toNat ∧
      viewNumber m u.base.toNat (u.len.toNat - u.endOffs.toNat) =
        viewNumber m w.base.toNat (w.len.toNat - w.endOffs.toNat) * 256 + b.toNat := by
  have hl := u.len.isLt
  unfold endByte
  split
  · rename_i hlt
    rw [ByteSpace.get_inside (by omega), ok_bind]
    refine ⟨_, _, rfl, rfl, ?_, ?_⟩
    · simp only [BitVec.toNat_add, show (1 : BitVec 25).toNat = 1 from rfl]
      omega
    · simp only [BitVec.toNat_add, show (1 : BitVec 25).toNat = 1 from rfl]
      rw [Nat.mod_eq_of_lt (by omega)]
      obtain ⟨k, hk⟩ : ∃ k, u.len.toNat - u.endOffs.toNat = k + 1 := ⟨u.len.toNat - u.endOffs.toNat - 1, by omega⟩
      rw [hk, viewNumber, show u.len.toNat - (u.endOffs.toNat + 1) = k by omega,
        show u.base.toNat + u.len.toNat - (u.endOffs.toNat + 1) = u.base.toNat + k by omega]
  · rename_i hge
    refine ⟨_, _, rfl, rfl, he, ?_⟩
    simp [show u.len.toNat - u.endOffs.toNat = 0 by omega, viewNumber]

/-- The cache with a byte placed above its bits (R108). -/
theorem cache_append {w : BitVec 32} {b : Byte} {n : Nat} (hw : w.toNat < 2 ^ n) (hn : n ≤ 24) :
    (w ||| (b.setWidth 32 <<< n)).toNat = w.toNat + 2 ^ n * b.toNat := by
  have hb := b.isLt
  have h1 : b.toNat * 2 ^ n ≤ 255 * 2 ^ 24 := Nat.mul_le_mul (by omega) (Nat.pow_le_pow_right (by norm_num) hn)
  rw [BitVec.toNat_or, BitVec.toNat_shiftLeft, BitVec.toNat_setWidth, Nat.mod_eq_of_lt (by omega : b.toNat < 2 ^ 32),
    Nat.shiftLeft_eq, Nat.mod_eq_of_lt (by omega), Nat.or_comm, ← Nat.shiftLeft_eq,
    ← Nat.shiftLeft_add_eq_or_of_lt hw, Nat.shiftLeft_eq]
  ring

/-- One turn of the refill keeps the raw bits still to come and puts eight more into the cache (R108). -/
theorem refillStep_spec {m : ByteSpace} {u : RdUnit} (h : u.RawOk m.size) (hn : u.nendBits.toNat ≤ 24) :
    ∃ v, refillStep m u = .ok v ∧ v.RawOk m.size ∧ v.nendBits.toNat = u.nendBits.toNat + 8 ∧
      rawStream m v = rawStream m u ∧ SameButRaw u v := by
  obtain ⟨b, w, hw, hwu, hwe, hnum⟩ := endByte_spec h.viewInside h.endOffsInside
  have hb := b.isLt
  have hbase : w.base = u.base := by rw [hwu]
  have hlen : w.len = u.len := by rw [hwu]
  unfold refillStep
  rw [hw, ok_bind]
  have hbits : (BitVec.ofNat 6 (u.nendBits.toNat + 8)).toNat = u.nendBits.toNat + 8 := by
    rw [BitVec.toNat_ofNat, Nat.mod_eq_of_lt (by omega)]
  have hcache := cache_append (b := b) h.cacheClean hn
  refine ⟨_, rfl, ⟨?_, hwe, ?_, ?_⟩, hbits, ?_, ?_⟩
  · simp only [hbase, hlen]; exact h.viewInside
  · simp only [hbits]; omega
  · simp only [hbits, hcache]
    have := h.cacheClean
    have h2 : 2 ^ u.nendBits.toNat * b.toNat ≤ 2 ^ u.nendBits.toNat * 255 := Nat.mul_le_mul_left _ (by omega)
    rw [pow_add]
    omega
  · unfold rawStream
    simp only [hbits, hcache]
    rw [hnum, pow_add]
    ring
  · unfold SameButRaw
    simp only
    rw [hwu]

/-- `EndByte()` moves the tail cursor by one, up to the length of the view (R46). -/
theorem endByte_cursor {m : ByteSpace} {u w : RdUnit} {b : Byte} (he : u.endOffs.toNat ≤ u.len.toNat)
    (h : endByte m u = .ok (b, w)) : w.endOffs.toNat = min (u.endOffs.toNat + 1) u.len.toNat := by
  have hl := u.len.isLt
  unfold endByte at h
  split at h
  · obtain ⟨y, -, h⟩ := bind_eq_ok.1 h
    simp only [Except.ok.injEq, Prod.mk.injEq] at h
    rw [← h.2]
    simp only [BitVec.toNat_add, show (1 : BitVec 25).toNat = 1 from rfl]
    omega
  · simp only [Except.ok.injEq, Prod.mk.injEq] at h
    rw [← h.2]; omega

/-- One turn of the refill moves the tail cursor by one, up to the length of the view (R108). -/
theorem refillStep_cursor {m : ByteSpace} {u v : RdUnit} (he : u.endOffs.toNat ≤ u.len.toNat)
    (h : refillStep m u = .ok v) : v.endOffs.toNat = min (u.endOffs.toNat + 1) u.len.toNat := by
  unfold refillStep at h
  obtain ⟨⟨b, w⟩, hw, h⟩ := bind_eq_ok.1 h
  simp only [Except.ok.injEq] at h
  rw [← h]
  exact (endByte_cursor he hw :)

/-- The refill loop reads as many tail bytes as fill the cache to 25 to 32 bits, and keeps the raw bits still to come (R108,
R220). -/
theorem refillLoop_spec {m : ByteSpace} : ∀ {k : Nat} {u : RdUnit}, u.RawOk m.size → u.nendBits.toNat ≤ 24 →
    24 < u.nendBits.toNat + 8 * k →
    ∃ v, refillLoop m k u = .ok v ∧ v.RawOk m.size ∧
      v.nendBits.toNat = u.nendBits.toNat + 8 * ((32 - u.nendBits.toNat) / 8) ∧
      rawStream m v = rawStream m u ∧ SameButRaw u v ∧
      v.endOffs.toNat = min (u.endOffs.toNat + (32 - u.nendBits.toNat) / 8) u.len.toNat := by
  intro k
  induction k with
  | zero => intro u _ h1 h2; omega
  | succ k ih =>
    intro u hu h1 h2
    obtain ⟨v, hv, hvo, hvn, hvs, hvf⟩ := refillStep_spec hu h1
    have hc := refillStep_cursor hu.endOffsInside hv
    have hlen : v.len = u.len := by rw [hvf]
    unfold refillLoop
    rw [hv, ok_bind]
    split
    · exact ⟨v, rfl, hvo, by omega, hvs, hvf, by rw [hc]; omega⟩
    · obtain ⟨w, hw, hwo, hwn, hws, hwf, hwc⟩ := ih hvo (by omega) (by omega)
      refine ⟨w, hw, hwo, by omega, hws.trans hvs, ?_, ?_⟩
      · unfold SameButRaw at *
        rw [hwf, hvf]
      · rw [hwc, hc, hlen]; omega

/-- `RawBits(n)` answers the next `n` raw bits and leaves those after them (R108). -/
theorem rawBits_spec {m : ByteSpace} {n : Nat} {u : RdUnit} (h : u.RawOk m.size) (hn : n ≤ 25) :
    ∃ v, rawBits m n u = .ok (rawStream m u % 2 ^ n, v) ∧ RawTaken m n u v ∧ v.RawOk m.size := by
  have hfill : ∃ v, refill m n u = .ok v ∧ v.RawOk m.size ∧
      n ≤ v.nendBits.toNat ∧ rawStream m v = rawStream m u ∧ SameButRaw u v := by
    unfold refill
    split
    · obtain ⟨v, hv, hvo, hvn, hvs, hvf, -⟩ := refillLoop_spec (k := 4) h (by omega) (by omega)
      exact ⟨v, hv, hvo, by omega, hvs, hvf⟩
    · exact ⟨u, rfl, h, by omega, rfl, rfl⟩
  obtain ⟨v, hv, hvo, hvn, hvs, hvf⟩ := hfill
  unfold rawBits
  rw [hv, ok_bind]
  have hbits : (BitVec.ofNat 6 (v.nendBits.toNat - n)).toNat = v.nendBits.toNat - n := by
    rw [BitVec.toNat_ofNat, Nat.mod_eq_of_lt (by have := hvo.cacheSize; omega)]
  have hwin : (v.endWindow >>> n).toNat = v.endWindow.toNat / 2 ^ n := by
    rw [BitVec.toNat_ushiftRight, Nat.shiftRight_eq_div_pow]
  obtain ⟨r, hr⟩ : ∃ r, v.nendBits.toNat = r + n := ⟨v.nendBits.toNat - n, by omega⟩
  have hstream : rawStream m u =
      v.endWindow.toNat + 2 ^ n * (2 ^ r * viewNumber m v.base.toNat (v.len.toNat - v.endOffs.toNat)) := by
    rw [← hvs, rawStream, hr, pow_add]; ring
  have hvalue : v.endWindow.toNat % 2 ^ n = rawStream m u % 2 ^ n := by
    rw [hstream, Nat.add_mul_mod_self_left]
  rw [hvalue]
  refine ⟨_, rfl, ⟨?_, ?_⟩, ⟨hvo.viewInside, hvo.endOffsInside, ?_, ?_⟩⟩
  · rw [hstream, Nat.add_mul_div_left _ _ (by positivity)]
    simp only [rawStream, hbits, hwin]
    rw [hr, Nat.add_sub_cancel]
  · have hn1 : v.nbitsTotal = u.nbitsTotal := by rw [hvf]
    simp only [hn1]
    unfold SameButRaw at hvf
    rw [hvf]
  · have := hvo.cacheSize
    simp only [hbits]; omega
  · simp only [hbits, hwin]
    have := hvo.cacheClean
    rw [Nat.div_lt_iff_lt_mul (by positivity), hr, Nat.add_sub_cancel, ← pow_add]
    rwa [hr] at this

/-- Whatever the unit, `RawBits` writes only the raw-bit registers and the counter when it ends. -/
theorem endByte_frame {m : ByteSpace} {u w : RdUnit} {b : Byte} (h : endByte m u = .ok (b, w)) :
    w = { u with endOffs := w.endOffs } := by
  unfold endByte at h
  split at h
  · obtain ⟨y, -, h⟩ := bind_eq_ok.1 h
    simp only [Except.ok.injEq, Prod.mk.injEq] at h
    rw [← h.2]
  · simp only [Except.ok.injEq, Prod.mk.injEq] at h
    rw [← h.2]

theorem refillLoop_frame {m : ByteSpace} : ∀ {k : Nat} {u v : RdUnit}, refillLoop m k u = .ok v → SameButRaw u v := by
  intro k
  induction k with
  | zero => intro u v h; cases h; rfl
  | succ k ih =>
    intro u v h
    unfold refillLoop at h
    obtain ⟨w, hw, h⟩ := bind_eq_ok.1 h
    have hwf : SameButRaw u w := by
      unfold refillStep at hw
      obtain ⟨⟨b, x⟩, hx, hw⟩ := bind_eq_ok.1 hw
      simp only [Except.ok.injEq] at hw
      unfold SameButRaw
      rw [← hw, endByte_frame hx]
    split at h
    · cases h; exact hwf
    · have := ih h
      unfold SameButRaw at *
      rw [this, hwf]

theorem rawBits_frame {m : ByteSpace} {n x : Nat} {u v : RdUnit} (h : rawBits m n u = .ok (x, v)) :
    v = { u with endOffs := v.endOffs, endWindow := v.endWindow, nendBits := v.nendBits,
                 nbitsTotal := u.nbitsTotal + BitVec.ofNat 32 n } := by
  unfold rawBits at h
  obtain ⟨w, hw, h⟩ := bind_eq_ok.1 h
  have hwf : SameButRaw u w := by
    unfold refill at hw
    split at hw
    · exact refillLoop_frame hw
    · cases hw; rfl
  simp only [Except.ok.injEq, Prod.mk.injEq] at h
  rw [← h.2]
  unfold SameButRaw at hwf
  rw [hwf]

end Sys2Proof.Machine
end

