-- ==== Sys2Proof/Laws/Symbols.lean ====
section
/-!
SUPPORT. Decode, update, the bit, the table scan and the uniform integer: the arithmetic of the interval decoder (R85 to R90,
R100, R106, R113), each said once over units whose `val < rng`.
-/

namespace Sys2Proof.Machine

/-- The divisor of a legal total lies in `[2^7, 2^30]` (R14, R85). -/
theorem divisor_bounds {rng total : Nat} (hlow : codeBot < rng) (hhigh : rng ≤ codeTop) (h2 : 2 ≤ total)
    (hmax : total ≤ maxTotal) : 2 ^ 7 ≤ rng / total ∧ rng / total ≤ 2 ^ 30 := by
  have hcb : codeBot = 8388608 := rfl
  have hct : codeTop = 2147483648 := rfl
  have hmt : maxTotal = 65536 := rfl
  constructor
  · rw [Nat.le_div_iff_mul_le (by omega)]
    have : 2 ^ 7 * total ≤ 2 ^ 7 * 65536 := Nat.mul_le_mul_left _ (by omega)
    omega
  · calc rng / total ≤ rng / 2 := Nat.div_le_div_left h2 (by norm_num)
      _ ≤ 2 ^ 30 := by omega

/-- The offset is below the total (R85). -/
theorem offsetOf_lt {val ext total : Nat} (h : 0 < total) : offsetOf val ext total < total := by
  unfold offsetOf
  generalize val / ext = q
  omega

/-- Check (u3) in terms of `val` (R88): the interval holds the offset iff the excluded tail is not above `val` and `val` is
not above the interval. -/
theorem offset_inside {val ext total low high : Nat} (he : 0 < ext) (hlh : low < high) (hht : high ≤ total) :
    (low ≤ offsetOf val ext total ∧ offsetOf val ext total < high) ↔
      (ext * (total - high) ≤ val ∧ (low = 0 ∨ val < ext * (total - low))) := by
  have h1 : ext * (total - high) ≤ val ↔ total - high ≤ val / ext := by
    rw [Nat.le_div_iff_mul_le he, mul_comm]
  have h2 : val < ext * (total - low) ↔ val / ext < total - low := by
    rw [Nat.div_lt_iff_lt_mul he, mul_comm]
  rw [h1, h2]
  unfold offsetOf
  generalize val / ext = q
  omega

/-- What the interval and the divisor give (R88, R90): nothing goes below zero, and `val < rng` survives. -/
theorem interval_bounds {val rng ext total low high : Nat} (hv : val < rng) (he : 0 < ext) (hlh : low < high)
    (hht : high ≤ total) (hu2 : ext * total ≤ rng)
    (hu3 : low ≤ offsetOf val ext total ∧ offsetOf val ext total < high) :
    ext * (total - high) ≤ val ∧
      val - ext * (total - high) < (if 0 < low then ext * (high - low) else rng - ext * (total - high)) ∧
      (if 0 < low then ext * (high - low) else rng - ext * (total - high)) ≤ rng := by
  obtain ⟨h1, h2⟩ := (offset_inside he hlh hht).1 hu3
  have hle : ext * (high - low) ≤ ext * total := Nat.mul_le_mul_left _ (by omega)
  refine ⟨h1, ?_, ?_⟩
  · split
    · rcases h2 with h2 | h2
      · omega
      · have : ext * (total - low) = ext * (total - high) + ext * (high - low) := by
          rw [← Nat.mul_add]; congr 1; omega
        omega
    · omega
  · split <;> omega

/-- A decode with a divisor above 0 answers the offset and caches the divisor (R85). -/
theorem cacheAndDecode_eq {ext total : Nat} {u : RdUnit} (h0 : 0 < ext) (h32 : ext < 2 ^ 32) :
    cacheAndDecode ext total u =
      .ok (offsetOf u.val.toNat ext total, { u with ext := BitVec.ofNat 32 ext }) := by
  have he : (BitVec.ofNat 32 ext).toNat = ext := by rw [BitVec.toNat_ofNat, Nat.mod_eq_of_lt h32]
  unfold cacheAndDecode cachedOffset
  simp only [he]
  rw [if_neg (by omega), ok_bind]

/-- A decode answers the offset for the divisor it cached, whatever the unit (R85). -/
theorem cacheAndDecode_eq_ok {ext total o : Nat} {u v : RdUnit} (h : cacheAndDecode ext total u = .ok (o, v)) :
    v = { u with ext := BitVec.ofNat 32 ext } ∧ o = offsetOf u.val.toNat (BitVec.ofNat 32 ext).toNat total := by
  unfold cacheAndDecode cachedOffset at h
  obtain ⟨x, hx, h⟩ := bind_eq_ok.1 h
  simp only [Except.ok.injEq, Prod.mk.injEq] at h
  split at hx
  · cases hx
  · simp only [Except.ok.injEq] at hx
    exact ⟨h.2.symm, by rw [← h.1, ← hx]⟩

/-- `RD.DECBIN bits` computes as `RD.DEC 2^bits` (R86). -/
theorem decodeBin_eq (bits : Nat) (u : RdUnit) : decodeBin bits u = decodeFrequency (2 ^ bits) u := by
  unfold decodeBin decodeFrequency
  rw [Nat.shiftRight_eq_div_pow]

/-- The update of a unit with `val < rng` whose interval holds the offset (R87, R88). -/
theorem update_spec {m : ByteSpace} {u : RdUnit} {low high total : Nat} (hu : u.ViewOk m.size)
    (hv : u.val.toNat < u.rng.toNat) (hr : u.rng.toNat ≤ codeTop) (he : 0 < u.ext.toNat) (hlh : low < high)
    (hht : high ≤ total) (hu2 : u.ext.toNat * total ≤ u.rng.toNat)
    (hu3 : low ≤ offsetOf u.val.toNat u.ext.toNat total ∧ offsetOf u.val.toNat u.ext.toNat total < high) :
    ∃ w, update m low high total u = .ok w ∧ Normalized m u (u.val.toNat - u.ext.toNat * (total - high))
      (if 0 < low then u.ext.toNat * (high - low) else u.rng.toNat - u.ext.toNat * (total - high)) w := by
  obtain ⟨-, h2, h3⟩ := interval_bounds hv he hlh hht hu2 hu3
  exact normalize_spec hu h2 (h3.trans hr) rfl

/-- The registers an update writes, whatever the unit. -/
theorem update_frame {m : ByteSpace} {u w : RdUnit} {low high total : Nat} (h : update m low high total u = .ok w) :
    w = { u with val := w.val, rng := w.rng, rem := w.rem, nbitsTotal := w.nbitsTotal, offs := w.offs } := by
  unfold update at h
  have := normalize_frame h
  exact this

/-- The part of `rng` a bit takes (R100). -/
theorem takeBit_spec {m : ByteSpace} {u : RdUnit} {part : Nat} (hu : u.ViewOk m.size)
    (hv : u.val.toNat < u.rng.toNat) (hr : u.rng.toNat ≤ codeTop) (hp : part ≤ u.rng.toNat) :
    ∃ w, normalize m (takeBit part u) = .ok w ∧
      Normalized m u (if u.val.toNat < part then u.val.toNat else u.val.toNat - part)
        (if u.val.toNat < part then part else u.rng.toNat - part) w := by
  unfold takeBit bitOutcome
  by_cases h : u.val.toNat < part
  · simp only [h, decide_true, if_true]
    refine normalize_spec hu h (by omega) ?_
    simp
  · simp only [h, decide_false, if_false]
    exact normalize_spec hu (by omega) (by omega) rfl

/-- The registers a bit leaves alone (R100). -/
theorem takeBit_frame (part : Nat) (u : RdUnit) :
    takeBit part u = { u with val := (takeBit part u).val, rng := (takeBit part u).rng } := by
  unfold takeBit; split <;> rfl

/-- The scan passes the entries above `val` and stops at the first that is not (R106). -/
theorem icdfScan_stops {tbl : ByteSpace} {tblBase ftb r val : Nat} :
    ∀ {left k t j : Nat}, j < left → tblBase + k + j < tbl.size →
      (∀ i, i ≤ j → (tbl.bytes.read (tblBase + (k + i))).toNat ≤ 2 ^ ftb) →
      (∀ i, i < j → val < r * (tbl.bytes.read (tblBase + (k + i))).toNat) →
      r * (tbl.bytes.read (tblBase + (k + j))).toNat ≤ val →
      icdfScan tbl tblBase ftb r val left k t = .ok
        { index := k + j + 1, lower := r * (tbl.bytes.read (tblBase + (k + j))).toNat,
          upper := if j = 0 then t else r * (tbl.bytes.read (tblBase + (k + j - 1))).toNat } := by
  intro left
  induction left with
  | zero => intro k t j h; omega
  | succ left ih =>
    intro k t j hj hin hle hpass hstop
    have hk0 : tblBase + (k + 0) = tblBase + k := rfl
    have h0 := hle 0 (by omega)
    rw [hk0] at h0
    rw [icdfScan, ByteSpace.get_inside (by omega), ok_bind, requireOperand, require_bind h0]
    cases j with
    | zero =>
      rw [hk0] at hstop
      rw [if_pos hstop]
      simp
    | succ j =>
      have h1 := hpass 0 (by omega)
      rw [hk0] at h1
      rw [if_neg (by omega)]
      have e : ∀ i, k + 1 + i = k + (i + 1) := fun i => by omega
      have := ih (k := k + 1) (t := r * (tbl.bytes.read (tblBase + k)).toNat) (j := j) (by omega) (by omega)
        (fun i hi => by rw [e]; exact hle (i + 1) (by omega)) (fun i hi => by rw [e]; exact hpass (i + 1) (by omega))
        (by rw [e]; exact hstop)
      rw [this, e]
      congr 2
      cases j with
      | zero => simp
      | succ j => simp

/-- The scan is refused where it meets an entry above the scale or the end of the table (R106). -/
theorem icdfScan_refuses {tbl : ByteSpace} {tblBase ftb r val : Nat} :
    ∀ {left k t j : Nat}, j ≤ left → tblBase + k + left ≤ tbl.size →
      (∀ i, i < j → (tbl.bytes.read (tblBase + (k + i))).toNat ≤ 2 ^ ftb ∧
        val < r * (tbl.bytes.read (tblBase + (k + i))).toNat) →
      (j = left ∨ 2 ^ ftb < (tbl.bytes.read (tblBase + (k + j))).toNat) →
      icdfScan tbl tblBase ftb r val left k t = .error (.answer .operand) := by
  intro left
  induction left with
  | zero => intro k t j _ _ _ _; rfl
  | succ left ih =>
    intro k t j hj hin hpass hstop
    have hk0 : tblBase + (k + 0) = tblBase + k := rfl
    rw [icdfScan, ByteSpace.get_inside (by omega), ok_bind]
    cases j with
    | zero =>
      rcases hstop with h | h
      · omega
      · rw [hk0] at h
        rw [requireOperand, require_bind_not (by omega)]
    | succ j =>
      have h1 := hpass 0 (by omega)
      rw [hk0] at h1
      rw [requireOperand, require_bind h1.1, if_neg (by omega)]
      have e : ∀ i, k + 1 + i = k + (i + 1) := fun i => by omega
      exact ih (j := j) (by omega) (by omega) (fun i hi => by rw [e]; exact hpass (i + 1) (by omega))
        (by rcases hstop with h | h
            · exact .inl (by omega)
            · exact .inr (by rw [e]; exact h))

/-- Everything a scan can answer (R106, R107): a symbol whose edges hold `val`, its index within the table; it never stops
the machine while the table lies inside its memory. -/
theorem icdfScan_cases {tbl : ByteSpace} {tblBase ftb r val rng : Nat} (hr : r * 2 ^ ftb ≤ rng) :
    ∀ {left k t : Nat}, tblBase + k + left ≤ tbl.size → val < t → t ≤ rng →
      icdfScan tbl tblBase ftb r val left k t = .error (.answer .operand) ∨
      ∃ y, icdfScan tbl tblBase ftb r val left k t = .ok y ∧ k < y.index ∧ y.index ≤ k + left ∧ y.lower ≤ val ∧
        val < y.upper ∧ y.upper ≤ rng := by
  intro left
  induction left with
  | zero => intro k t _ _ _; exact .inl rfl
  | succ left ih =>
    intro k t hin hvt htr
    rw [icdfScan, ByteSpace.get_inside (by omega), ok_bind]
    by_cases he : (tbl.bytes.read (tblBase + k)).toNat ≤ 2 ^ ftb
    · rw [requireOperand, require_bind he]
      split
      · rename_i hs
        exact .inr ⟨_, rfl, by simp, by simp only; omega, hs, hvt, htr⟩
      · rename_i hs
        have hle : r * (tbl.bytes.read (tblBase + k)).toNat ≤ rng := (Nat.mul_le_mul_left r he).trans hr
        rcases ih (k := k + 1) (t := r * (tbl.bytes.read (tblBase + k)).toNat) (by omega) (by omega) hle with
          h | ⟨y, hy, h1, h2, h3, h4, h5⟩
        · exact .inl h
        · exact .inr ⟨y, hy, by omega, by omega, h3, h4, h5⟩
    · rw [requireOperand, require_bind_not he]
      exact .inl rfl

/-- The registers of the symbol taken, normalized (R106). -/
theorem takeSymbol_spec {m : ByteSpace} {u : RdUnit} {y : Symbol} (hu : u.ViewOk m.size)
    (hr : u.rng.toNat ≤ codeTop) (h1 : y.lower ≤ u.val.toNat) (h2 : u.val.toNat < y.upper)
    (h3 : y.upper ≤ u.rng.toNat) :
    ∃ w, normalize m (takeSymbol y u) = .ok w ∧ Normalized m u (u.val.toNat - y.lower) (y.upper - y.lower) w :=
  normalize_spec hu (by omega) (by omega) rfl

/-! ### The uniform integer -/

theorem ilog_lt_pow (x : Nat) : x < 2 ^ ilog x := by
  unfold ilog
  split
  · rename_i h; simp [h]
  · exact Nat.lt_log2_self

theorem pow_ilog_le {x : Nat} (h : x ≠ 0) : 2 ^ (ilog x - 1) ≤ x := by
  unfold ilog
  rw [if_neg h, Nat.add_sub_cancel]
  exact Nat.log2_self_le h

/-- The bit count of R112 covers `total - 1` and is at most 33. -/
theorem uniformBits_bounds {p : UniformBits} {total : Nat} (h2 : 2 ≤ total) (h32 : total < 2 ^ 32) :
    total - 1 < 2 ^ uniformBits p total ∧ uniformBits p total ≤ 33 ∧ 1 ≤ uniformBits p total := by
  have hbound : ∀ x, x < 2 ^ 32 → ilog x ≤ 32 := by
    intro x hx
    by_contra hc
    have hne : x ≠ 0 := by
      rintro rfl
      simp [ilog] at hc
    have := pow_ilog_le hne
    have h3 : 2 ^ 32 ≤ 2 ^ (ilog x - 1) := Nat.pow_le_pow_right (by norm_num) (by omega)
    omega
  cases p
  · refine ⟨ilog_lt_pow _, (hbound _ (by omega)).trans (by norm_num), ?_⟩
    simp only [uniformBits, ilog]
    rw [if_neg (by omega)]
    omega
  · simp only [uniformBits, clog2]
    have h1 := ilog_lt_pow (total - 1 - 1)
    refine ⟨?_, ?_, by omega⟩
    · rw [pow_succ]; omega
    · have := hbound (total - 1 - 1) (by omega); omega

end Sys2Proof.Machine
end

