-- ==== Sys2Proof/Laws/Outcomes.lean ====
section
/-!
SUPPORT. What a command can do, said once for each: the statuses it may be answered with, and the registers it may write when
it completes `OK` (`exec_cases`).
-/

namespace Sys2Proof.Machine

/-- When `x` ends the command early by answering, the status is one of `P`. -/
def HaltsWithin (P : Status → Prop) {α : Type} (x : Except Halt α) : Prop := ∀ st, x = .error (.answer st) → P st
theorem haltsWithin_bind {P} {α β : Type} {x : Except Halt α} {f : α → Except Halt β} (h1 : HaltsWithin P x) (h2 : ∀ a, HaltsWithin P (f a)) : HaltsWithin P (x >>= f) := by
  intro st h
  rcases bind_eq_error.1 h with h | ⟨a, -, h⟩
  · exact h1 _ h
  · exact h2 a _ h
theorem haltsWithin_require {P} {p : Prop} [Decidable p] {st} (h : P st) : HaltsWithin P (require p (.answer st)) := by
  intro st' h'; have := (require_eq_error.1 h').2; cases this; exact h
theorem haltsWithin_fault {P} {p : Prop} [Decidable p] {f} : HaltsWithin P (require p (.fault f)) := by
  intro st' h'; have := (require_eq_error.1 h').2; cases this
theorem haltsWithin_ok {P α} {a : α} : HaltsWithin P (.ok a : Except Halt α) := by intro st h; cases h
theorem haltsWithin_get {P} {m : ByteSpace} {a} : HaltsWithin P (m.get a) := by intro st h; have := (ByteSpace.get_eq_error.1 h).2; cases this
theorem haltsWithin_normalizeStep {P m u} : HaltsWithin P (normalizeStep m u) := by
  refine haltsWithin_bind ?_ fun _ => haltsWithin_ok
  unfold fwdByte; split
  · exact haltsWithin_bind haltsWithin_get fun _ => haltsWithin_ok
  · exact haltsWithin_ok
theorem haltsWithin_normalizeLoop {P m} : ∀ n u, HaltsWithin P (normalizeLoop m n u) := by
  intro n; induction n with
  | zero => intro u; unfold normalizeLoop; split
            · intro st h; cases h
            · exact haltsWithin_ok
  | succ n ih => intro u; unfold normalizeLoop; split
                 · exact haltsWithin_bind haltsWithin_normalizeStep fun v => ih v
                 · exact haltsWithin_ok
theorem haltsWithin_normalize {P m u} : HaltsWithin P (normalize m u) := haltsWithin_normalizeLoop _ _
theorem haltsWithin_cachedOffset {P t u} : HaltsWithin P (cachedOffset t u) := by
  unfold cachedOffset; split
  · intro st h; cases h
  · exact haltsWithin_ok
theorem haltsWithin_cacheAndDecode {P e t u} : HaltsWithin P (cacheAndDecode e t u) := haltsWithin_bind haltsWithin_cachedOffset fun _ => haltsWithin_ok
theorem haltsWithin_update {P m l h t u} : HaltsWithin P (update m l h t u) := haltsWithin_normalize
theorem haltsWithin_endByte {P m u} : HaltsWithin P (endByte m u) := by
  unfold endByte; split
  · exact haltsWithin_bind haltsWithin_get fun _ => haltsWithin_ok
  · exact haltsWithin_ok
theorem haltsWithin_refillLoop {P m} : ∀ n u, HaltsWithin P (refillLoop m n u) := by
  intro n; induction n with
  | zero => intro u; exact haltsWithin_ok
  | succ n ih => intro u; unfold refillLoop; refine haltsWithin_bind (haltsWithin_bind haltsWithin_endByte fun _ => haltsWithin_ok) fun v => ?_
                 split
                 · exact haltsWithin_ok
                 · exact ih _
theorem haltsWithin_rawBits {P m n u} : HaltsWithin P (rawBits m n u) := by
  refine haltsWithin_bind ?_ fun _ => haltsWithin_ok
  unfold refill; split
  · exact haltsWithin_refillLoop _ _
  · exact haltsWithin_ok
theorem haltsWithin_icdfScan {P tbl b f r v} (hP : P .operand) : ∀ l k t, HaltsWithin P (icdfScan tbl b f r v l k t) := by
  intro l; induction l with
  | zero => intro k t st h; cases h; exact hP
  | succ l ih => intro k t; unfold icdfScan; refine haltsWithin_bind haltsWithin_get fun e => haltsWithin_bind (haltsWithin_require hP) fun _ => ?_
                 split
                 · exact haltsWithin_ok
                 · exact ih _ _
theorem haltsWithin_decodeUniform {P m b t u} : HaltsWithin P (decodeUniform m b t u) := by
  unfold decodeUniform; split
  · exact haltsWithin_bind haltsWithin_cacheAndDecode fun _ => haltsWithin_bind haltsWithin_update fun _ => haltsWithin_ok
  · exact haltsWithin_bind haltsWithin_cacheAndDecode fun _ => haltsWithin_bind haltsWithin_update fun _ => haltsWithin_bind haltsWithin_rawBits fun _ => haltsWithin_ok
theorem haltsWithin_varint {P m p n} (hP : P .invalidLength) : HaltsWithin P (varint m p n) := by
  unfold varint
  refine haltsWithin_bind (haltsWithin_require hP) fun _ => haltsWithin_bind haltsWithin_get fun _ => ?_
  split
  · exact haltsWithin_ok
  · exact haltsWithin_bind (haltsWithin_require hP) fun _ => haltsWithin_bind haltsWithin_get fun _ => haltsWithin_ok
theorem haltsWithin_vbrCodes {P m} (hP : P .invalidLength) : ∀ k p n s, HaltsWithin P (vbrCodes m k p n s) := by
  intro k; induction k with
  | zero => intro p n s; exact haltsWithin_ok
  | succ k ih => intro p n s; exact haltsWithin_bind (haltsWithin_varint hP) fun _ => ih _ _ _
theorem haltsWithin_padChain {P m c} (hP : P .invalidLength) : ∀ n p t, HaltsWithin P (padChain m c n p t) := by
  intro n; induction n with
  | zero => intro p t st h; cases h; exact hP
  | succ n ih => intro p t; unfold padChain; refine haltsWithin_bind haltsWithin_get fun _ => ?_
                 split
                 · exact ih _ _
                 · exact haltsWithin_ok
theorem haltsWithin_parsePacket {P m c b l} (h1 : P .invalidLength) (h2 : P .dtx) (h3 : P .invalidFormat) : HaltsWithin P (parsePacket m c b l) := by
  unfold parsePacket
  refine haltsWithin_bind (haltsWithin_require h1) fun _ => haltsWithin_bind haltsWithin_get fun toc => haltsWithin_bind ?_ fun _ => haltsWithin_ok
  unfold parseCode
  split
  · exact haltsWithin_bind (haltsWithin_require h1) fun _ => haltsWithin_ok
  · exact haltsWithin_bind (haltsWithin_require h1) fun _ => haltsWithin_ok
  · exact haltsWithin_bind (haltsWithin_require h1) fun _ => haltsWithin_bind haltsWithin_get fun _ => haltsWithin_bind (haltsWithin_require h2) fun _ => haltsWithin_bind (haltsWithin_varint h1) fun _ => haltsWithin_bind (haltsWithin_require h1) fun _ => haltsWithin_ok
  · refine haltsWithin_bind (haltsWithin_require h1) fun _ => ?_
    refine haltsWithin_bind haltsWithin_get fun h => ?_
    refine haltsWithin_bind (haltsWithin_require h3) fun _ => ?_
    refine haltsWithin_bind ?_ fun qk => ?_
    · unfold afterPadding; split
      · unfold stripPadding
        refine haltsWithin_bind (haltsWithin_padChain h1 _ _ _) fun c => ?_
        exact haltsWithin_bind (haltsWithin_require h1) fun _ => haltsWithin_ok
      · exact haltsWithin_ok
    · obtain ⟨q, k⟩ := qk
      simp only
      unfold parseLengths; split
      · unfold parseVbr
        refine haltsWithin_bind (haltsWithin_vbrCodes h1 _ _ _ _) fun c => ?_
        exact haltsWithin_bind (haltsWithin_require h1) fun _ => haltsWithin_ok
      · exact haltsWithin_bind (haltsWithin_require h1) fun _ => haltsWithin_bind (haltsWithin_require h1) fun _ => haltsWithin_ok

/-- The statuses other than `OK` a command may answer with (R65, R190, R191, R195). -/
def mayHalt : Instr → Status → Prop
  | .rdInit _ _, st => st = .operand
  | .rdTell, st => st = .protocol
  | .rdTellf, st => st = .protocol
  | .rdTellff, st => st = .protocol
  | .ppParse _ _, st => st = .operand ∨ st = .invalidLength ∨ st = .dtx ∨ st = .invalidFormat
  | .ppNext, st => st = .protocol ∨ st = .ended
  | .ppToc _, st => st = .operand
  | .rdDec _, st => st = .protocol ∨ st = .operand
  | .rdDecbin _, st => st = .protocol ∨ st = .operand
  | .rdUpd _ _ _, st => st = .protocol ∨ st = .operand
  | .rdBitp _, st => st = .protocol ∨ st = .operand
  | .rdIcdf _ _ _, st => st = .protocol ∨ st = .operand
  | .rdBits _, st => st = .protocol ∨ st = .operand
  | .rdUint _, st => st = .protocol ∨ st = .operand

/-- What a command that completes `OK` may write, and the phase it completes in (R24, R26, R81, R192). -/
def mayWrite : Instr → State → Results → State → Prop
  | .rdInit _ _, s, r, t => r = .zero ∧ t = { s with rd := t.rd, freeCount := s.freeCount + 1 } ∧ t.rd.phase = .ready
  | .rdDec _, s, r, t => r.r2 = 0 ∧ r.r3 = 0 ∧ t = { s with rd := { s.rd with ext := t.rd.ext, phase := .pair } } ∧ s.rd.phase = .ready
  | .rdDecbin _, s, r, t => r.r2 = 0 ∧ r.r3 = 0 ∧ t = { s with rd := { s.rd with ext := t.rd.ext, phase := .pair } } ∧ s.rd.phase = .ready
  | .rdUpd _ _ _, s, r, t => r = .zero ∧ t = { s with rd := { s.rd with val := t.rd.val, rng := t.rd.rng, rem := t.rd.rem, nbitsTotal := t.rd.nbitsTotal, offs := t.rd.offs, phase := .ready } } ∧ s.rd.phase = .pair
  | .rdBitp _, s, r, t => r.r0.toNat ≤ 1 ∧ r.r1 = 0 ∧ r.r2 = 0 ∧ r.r3 = 0 ∧ t = { s with rd := { s.rd with val := t.rd.val, rng := t.rd.rng, rem := t.rd.rem, nbitsTotal := t.rd.nbitsTotal, offs := t.rd.offs } } ∧ s.rd.phase = .ready
  | .rdIcdf _ _ _, s, r, t => r.r1 = 0 ∧ r.r2 = 0 ∧ r.r3 = 0 ∧ t = { s with rd := { s.rd with val := t.rd.val, rng := t.rd.rng, rem := t.rd.rem, nbitsTotal := t.rd.nbitsTotal, offs := t.rd.offs } } ∧ s.rd.phase = .ready
  | .rdBits _, s, r, t => r.r1 = 0 ∧ r.r2 = 0 ∧ r.r3 = 0 ∧ t = { s with rd := { s.rd with endOffs := t.rd.endOffs, endWindow := t.rd.endWindow, nendBits := t.rd.nendBits, nbitsTotal := t.rd.nbitsTotal } } ∧ s.rd.phase = .ready
  | .rdUint _, s, r, t => r.r1 = 0 ∧ r.r2 = 0 ∧ r.r3 = 0 ∧ t = { s with rd := t.rd } ∧ t.rd.base = s.rd.base ∧ t.rd.len = s.rd.len ∧ t.rd.phase = s.rd.phase ∧ s.rd.phase = .ready
  | .rdTell, s, r, t => r.r1 = 0 ∧ r.r2 = 0 ∧ r.r3 = 0 ∧ t = s ∧ s.rd.phase ≠ .idle
  | .rdTellf, s, r, t => r.r1 = 0 ∧ r.r2 = 0 ∧ r.r3 = 0 ∧ t = s ∧ s.rd.phase ≠ .idle
  | .rdTellff, s, r, t => r.r1 = 0 ∧ r.r2 = 0 ∧ r.r3 = 0 ∧ t = s ∧ s.rd.phase ≠ .idle
  | .ppParse _ _, s, _, t => t = { s with pp := t.pp } ∧ t.pp.phase = .parsed
  | .ppNext, s, r, t => r.r2 = 0 ∧ r.r3 = 0 ∧ t = { s with pp := { s.pp with scheme := t.pp.scheme, payBase := t.pp.payBase, payLen := t.pp.payLen, lpBase := t.pp.lpBase, lpLen := t.pp.lpLen } } ∧ s.pp.phase = .parsed
  | .ppToc _, s, r, t => r.r2 = 0 ∧ r.r3 = 0 ∧ t = s

/-- Everything a command that goes on can do: it completes `OK` and has written what it may, or it is answered with another
status and has written nothing. -/
theorem exec_cases (i : Instr) (s t : State) (h : exec i s = .next t) :
    (∃ r u, t = u.answer .ok r ∧ mayWrite i s r u) ∨ (∃ st, mayHalt i st ∧ t = s.refuse st) := by
  cases i
  case rdInit base len =>
    rcases conclude_eq_next.1 h with ⟨r, u, hb, rfl⟩ | ⟨st, hb, rfl⟩
    · left; refine ⟨r, u, rfl, ?_⟩
      obtain ⟨_, -, hb⟩ := bind_eq_ok.1 hb
      obtain ⟨w, hw, hb⟩ := bind_eq_ok.1 hb
      cases hb
      refine ⟨rfl, rfl, ?_⟩
      show w.phase = .ready
      obtain ⟨⟨b0, v⟩, hv, hw⟩ := bind_eq_ok.1 hw
      have := normalize_frame hw
      rw [this]
      show v.phase = _
      unfold fwdByte at hv
      split at hv
      · obtain ⟨_, -, hv⟩ := bind_eq_ok.1 hv; cases hv; rfl
      · cases hv; rfl
    · right; refine ⟨st, ?_, rfl⟩
      have : HaltsWithin (mayHalt (.rdInit base len)) (do
        requireOperand (viewLegal base len s.pkt.size)
        let u ← startDecoder s.pkt (emptyDecoder base len (Config.freeExt s.freeCount))
        .ok (Results.zero, { s with rd := u, freeCount := s.freeCount + 1 }) : Except Halt (Results × State)) := by
        refine haltsWithin_bind (haltsWithin_require rfl) fun _ => haltsWithin_bind (haltsWithin_bind ?_ fun _ => haltsWithin_normalize) fun _ => haltsWithin_ok
        unfold fwdByte; split
        · exact haltsWithin_bind haltsWithin_get fun _ => haltsWithin_ok
        · exact haltsWithin_ok
      exact this st hb
  case rdDec total =>
    rcases conclude_eq_next.1 h with ⟨r, u, hb, rfl⟩ | ⟨st, hb, rfl⟩
    · left; refine ⟨r, u, rfl, ?_⟩
      obtain ⟨_, hp, hb⟩ := bind_eq_ok.1 hb
      obtain ⟨_, -, hb⟩ := bind_eq_ok.1 hb
      obtain ⟨⟨o, v⟩, hw, hb⟩ := bind_eq_ok.1 hb
      cases hb
      obtain ⟨rfl, -⟩ := cacheAndDecode_eq_ok hw
      exact ⟨rfl, rfl, rfl, require_eq_ok.1 hp⟩
    · right; refine ⟨st, ?_, rfl⟩
      exact (haltsWithin_bind (P := mayHalt (.rdDec total)) (haltsWithin_require (.inl rfl)) fun _ => haltsWithin_bind (haltsWithin_require (.inr rfl)) fun _ => haltsWithin_bind haltsWithin_cacheAndDecode fun _ => haltsWithin_ok) st hb
  case rdDecbin total =>
    rcases conclude_eq_next.1 h with ⟨r, u, hb, rfl⟩ | ⟨st, hb, rfl⟩
    · left; refine ⟨r, u, rfl, ?_⟩
      obtain ⟨_, hp, hb⟩ := bind_eq_ok.1 hb
      obtain ⟨_, -, hb⟩ := bind_eq_ok.1 hb
      obtain ⟨⟨o, v⟩, hw, hb⟩ := bind_eq_ok.1 hb
      cases hb
      obtain ⟨rfl, -⟩ := cacheAndDecode_eq_ok hw
      exact ⟨rfl, rfl, rfl, require_eq_ok.1 hp⟩
    · right; refine ⟨st, ?_, rfl⟩
      exact (haltsWithin_bind (P := mayHalt (.rdDecbin total)) (haltsWithin_require (.inl rfl)) fun _ => haltsWithin_bind (haltsWithin_require (.inr rfl)) fun _ => haltsWithin_bind haltsWithin_cacheAndDecode fun _ => haltsWithin_ok) st hb
  case rdUpd a b c =>
    rcases conclude_eq_next.1 h with ⟨r, u, hb, rfl⟩ | ⟨st, hb, rfl⟩
    · left; refine ⟨r, u, rfl, ?_⟩
      obtain ⟨_, hp, hb⟩ := bind_eq_ok.1 hb
      obtain ⟨_, -, hb⟩ := bind_eq_ok.1 hb
      obtain ⟨w, hw, hb⟩ := bind_eq_ok.1 hb
      cases hb
      have := update_frame hw
      refine ⟨rfl, ?_, require_eq_ok.1 hp⟩
      simp only [State.mk.injEq, and_true]
      rw [this]
    · right; refine ⟨st, ?_, rfl⟩
      exact (haltsWithin_bind (P := mayHalt (.rdUpd a b c)) (haltsWithin_require (.inl rfl)) fun _ => haltsWithin_bind (haltsWithin_bind (haltsWithin_require (.inr rfl)) fun _ => haltsWithin_bind (haltsWithin_require (.inr rfl)) fun _ => haltsWithin_bind haltsWithin_cachedOffset fun _ => haltsWithin_require (.inr rfl)) fun _ => haltsWithin_bind haltsWithin_update fun _ => haltsWithin_ok) st hb
  case rdBitp a =>
    rcases conclude_eq_next.1 h with ⟨r, u, hb, rfl⟩ | ⟨st, hb, rfl⟩
    · left; refine ⟨r, u, rfl, ?_⟩
      obtain ⟨_, hp, hb⟩ := bind_eq_ok.1 hb
      obtain ⟨_, -, hb⟩ := bind_eq_ok.1 hb
      obtain ⟨w, hw, hb⟩ := bind_eq_ok.1 hb
      cases hb
      have := normalize_frame hw
      rw [takeBit_frame] at this
      refine ⟨?_, rfl, rfl, rfl, ?_, require_eq_ok.1 hp⟩
      · show (if _ then (1 : Word) else 0).toNat ≤ 1
        split <;> decide
      · simp only [State.mk.injEq, and_true]
        rw [this]
    · right; refine ⟨st, ?_, rfl⟩
      exact (haltsWithin_bind (P := mayHalt (.rdBitp a)) (haltsWithin_require (.inl rfl)) fun _ => haltsWithin_bind (haltsWithin_require (.inr rfl)) fun _ => haltsWithin_bind haltsWithin_normalize fun _ => haltsWithin_ok) st hb
  case rdIcdf a b c =>
    rcases conclude_eq_next.1 h with ⟨r, u, hb, rfl⟩ | ⟨st, hb, rfl⟩
    · left; refine ⟨r, u, rfl, ?_⟩
      obtain ⟨_, hp, hb⟩ := bind_eq_ok.1 hb
      obtain ⟨_, -, hb⟩ := bind_eq_ok.1 hb
      obtain ⟨_, -, hb⟩ := bind_eq_ok.1 hb
      obtain ⟨y, -, hb⟩ := bind_eq_ok.1 hb
      obtain ⟨w, hw, hb⟩ := bind_eq_ok.1 hb
      cases hb
      have := normalize_frame hw
      refine ⟨rfl, rfl, rfl, ?_, require_eq_ok.1 hp⟩
      simp only [State.mk.injEq, and_true]
      rw [this]; rfl
    · right; refine ⟨st, ?_, rfl⟩
      exact (haltsWithin_bind (P := mayHalt (.rdIcdf a b c)) (haltsWithin_require (.inl rfl)) fun _ => haltsWithin_bind (haltsWithin_require (.inr rfl)) fun _ => haltsWithin_bind (haltsWithin_require (.inr rfl)) fun _ => haltsWithin_bind (haltsWithin_icdfScan (.inr rfl) _ _ _) fun _ => haltsWithin_bind haltsWithin_normalize fun _ => haltsWithin_ok) st hb
  case rdBits a =>
    rcases conclude_eq_next.1 h with ⟨r, u, hb, rfl⟩ | ⟨st, hb, rfl⟩
    · left; refine ⟨r, u, rfl, ?_⟩
      obtain ⟨_, hp, hb⟩ := bind_eq_ok.1 hb
      obtain ⟨_, -, hb⟩ := bind_eq_ok.1 hb
      obtain ⟨⟨x, w⟩, hw, hb⟩ := bind_eq_ok.1 hb
      cases hb
      have := rawBits_frame hw
      refine ⟨rfl, rfl, rfl, ?_, require_eq_ok.1 hp⟩
      simp only [State.mk.injEq, and_true]
      rw [this]
    · right; refine ⟨st, ?_, rfl⟩
      exact (haltsWithin_bind (P := mayHalt (.rdBits a)) (haltsWithin_require (.inl rfl)) fun _ => haltsWithin_bind (haltsWithin_require (.inr rfl)) fun _ => haltsWithin_bind haltsWithin_rawBits fun _ => haltsWithin_ok) st hb
  case rdUint a =>
    rcases conclude_eq_next.1 h with ⟨r, u, hb, rfl⟩ | ⟨st, hb, rfl⟩
    · left; refine ⟨r, u, rfl, ?_⟩
      obtain ⟨_, hp, hb⟩ := bind_eq_ok.1 hb
      obtain ⟨_, -, hb⟩ := bind_eq_ok.1 hb
      obtain ⟨⟨x, w⟩, hw, hb⟩ := bind_eq_ok.1 hb
      cases hb
      have hfr : w.base = s.rd.base ∧ w.len = s.rd.len ∧ w.phase = s.rd.phase := by
        unfold decodeUniform at hw
        split at hw
        · obtain ⟨⟨o, v⟩, h1, hw⟩ := bind_eq_ok.1 hw
          obtain ⟨w', h2, hw⟩ := bind_eq_ok.1 hw
          cases hw
          obtain ⟨rfl, -⟩ := cacheAndDecode_eq_ok h1
          rw [update_frame h2]; exact ⟨rfl, rfl, rfl⟩
        · obtain ⟨⟨o, v⟩, h1, hw⟩ := bind_eq_ok.1 hw
          obtain ⟨w', h2, hw⟩ := bind_eq_ok.1 hw
          obtain ⟨⟨lo, x⟩, h3, hw⟩ := bind_eq_ok.1 hw
          cases hw
          obtain ⟨rfl, -⟩ := cacheAndDecode_eq_ok h1
          rw [rawBits_frame h3, update_frame h2]; exact ⟨rfl, rfl, rfl⟩
      exact ⟨rfl, rfl, rfl, rfl, hfr.1, hfr.2.1, hfr.2.2, require_eq_ok.1 hp⟩
    · right; refine ⟨st, ?_, rfl⟩
      exact (haltsWithin_bind (P := mayHalt (.rdUint a)) (haltsWithin_require (.inl rfl)) fun _ => haltsWithin_bind (haltsWithin_require (.inr rfl)) fun _ => haltsWithin_bind haltsWithin_decodeUniform fun _ => haltsWithin_ok) st hb
  case rdTell =>
    rcases conclude_eq_next.1 h with ⟨r, u, hb, rfl⟩ | ⟨st, hb, rfl⟩
    · left; refine ⟨r, u, rfl, ?_⟩
      obtain ⟨_, hp, hb⟩ := bind_eq_ok.1 hb
      obtain ⟨_, hp, -⟩ := bind_eq_ok.1 hp
      cases hb; exact ⟨rfl, rfl, rfl, rfl, require_eq_ok.1 hp⟩
    · right; refine ⟨st, ?_, rfl⟩
      exact (haltsWithin_bind (P := mayHalt .rdTell) (haltsWithin_bind (haltsWithin_require rfl) fun _ => haltsWithin_fault) fun _ => haltsWithin_ok) st hb
  case rdTellf =>
    rcases conclude_eq_next.1 h with ⟨r, u, hb, rfl⟩ | ⟨st, hb, rfl⟩
    · left; refine ⟨r, u, rfl, ?_⟩
      obtain ⟨_, hp, hb⟩ := bind_eq_ok.1 hb
      obtain ⟨_, hp, -⟩ := bind_eq_ok.1 hp
      cases hb; exact ⟨rfl, rfl, rfl, rfl, require_eq_ok.1 hp⟩
    · right; refine ⟨st, ?_, rfl⟩
      exact (haltsWithin_bind (P := mayHalt .rdTellf) (haltsWithin_bind (haltsWithin_require rfl) fun _ => haltsWithin_fault) fun _ => haltsWithin_ok) st hb
  case rdTellff =>
    rcases conclude_eq_next.1 h with ⟨r, u, hb, rfl⟩ | ⟨st, hb, rfl⟩
    · left; refine ⟨r, u, rfl, ?_⟩
      obtain ⟨_, hp, hb⟩ := bind_eq_ok.1 hb
      obtain ⟨_, hp, -⟩ := bind_eq_ok.1 hp
      cases hb; exact ⟨rfl, rfl, rfl, rfl, require_eq_ok.1 hp⟩
    · right; refine ⟨st, ?_, rfl⟩
      exact (haltsWithin_bind (P := mayHalt .rdTellff) (haltsWithin_bind (haltsWithin_require rfl) fun _ => haltsWithin_fault) fun _ => haltsWithin_ok) st hb
  case ppParse a b =>
    rcases conclude_eq_next.1 h with ⟨r, u, hb, rfl⟩ | ⟨st, hb, rfl⟩
    · left; refine ⟨r, u, rfl, ?_⟩
      obtain ⟨_, -, hb⟩ := bind_eq_ok.1 hb
      obtain ⟨⟨toc, y⟩, -, hb⟩ := bind_eq_ok.1 hb
      cases hb; exact ⟨rfl, rfl⟩
    · right; refine ⟨st, ?_, rfl⟩
      exact (haltsWithin_bind (P := mayHalt (.ppParse a b)) (haltsWithin_require (.inl rfl)) fun _ => haltsWithin_bind (haltsWithin_parsePacket (.inr (.inl rfl)) (.inr (.inr (.inl rfl))) (.inr (.inr (.inr rfl)))) fun _ => haltsWithin_ok) st hb
  case ppNext =>
    rcases conclude_eq_next.1 h with ⟨r, u, hb, rfl⟩ | ⟨st, hb, rfl⟩
    · left; refine ⟨r, u, rfl, ?_⟩
      obtain ⟨_, hp, hb⟩ := bind_eq_ok.1 hb
      obtain ⟨_, -, hb⟩ := bind_eq_ok.1 hb
      obtain ⟨⟨sz, v⟩, h1, hb⟩ := bind_eq_ok.1 hb
      obtain ⟨w, h2, hb⟩ := bind_eq_ok.1 hb
      cases hb
      have h1 := nextLength_frame h1
      obtain ⟨-, rfl⟩ := takeFrame_eq_ok.1 h2
      refine ⟨rfl, rfl, ?_, require_eq_ok.1 hp⟩
      simp only [State.mk.injEq, true_and, and_true]
      rw [h1]
    · right; refine ⟨st, ?_, rfl⟩
      refine (haltsWithin_bind (P := mayHalt .ppNext) (haltsWithin_require (.inl rfl)) fun _ => haltsWithin_bind (haltsWithin_require (.inr rfl)) fun _ => haltsWithin_bind ?_ fun _ => haltsWithin_bind (haltsWithin_bind haltsWithin_fault fun _ => haltsWithin_ok) fun _ => haltsWithin_ok) st hb
      unfold nextLength
      split
      · exact haltsWithin_ok
      · exact haltsWithin_ok
      · exact haltsWithin_ok
      · exact haltsWithin_ok
      · split
        · exact haltsWithin_ok
        · refine haltsWithin_bind ?_ fun _ => haltsWithin_ok
          unfold nextLengthCode
          split
          · exact haltsWithin_ok
          · intro st h; cases h
          · intro st h; cases h
  case ppToc a =>
    rcases conclude_eq_next.1 h with ⟨r, u, hb, rfl⟩ | ⟨st, hb, rfl⟩
    · left; refine ⟨r, u, rfl, ?_⟩
      obtain ⟨_, -, hb⟩ := bind_eq_ok.1 hb
      cases hb; exact ⟨rfl, rfl, rfl⟩
    · right; refine ⟨st, ?_, rfl⟩
      exact (haltsWithin_bind (P := mayHalt (.ppToc a)) (haltsWithin_require rfl) fun _ => haltsWithin_ok) st hb

end Sys2Proof.Machine
end

