-- ==== Sys2Proof/Laws/PerInstr.lean ====
section
/-!
SUPPORT. The family EncodedInItsRow: the word the encoder gives a command is a word of that command's own row of
spec/opcode_table.json, opcode, mask and pattern (R61, R63).
-/

namespace Sys2Proof.Laws.EncodedInItsRow

/-- The encoded word matches the command's row, and the row is one of the table's. -/
def Statement (i : Instr) : Prop := rowOf i ∈ opcodeTable ∧ (rowOf i).Matches (encode i)

theorem rdInit (base len : Word) : Statement (.rdInit base len) := ⟨by simp [rowOf, opcodeTable], (matches_wordOf _ _ _ _ _).2 (by simp [rowOf])⟩
theorem rdDec (total : Word) : Statement (.rdDec total) := ⟨by simp [rowOf, opcodeTable], (matches_wordOf _ _ _ _ _).2 (by simp [rowOf])⟩
theorem rdDecbin (bits : Word) : Statement (.rdDecbin bits) := ⟨by simp [rowOf, opcodeTable], (matches_wordOf _ _ _ _ _).2 (by simp [rowOf])⟩
theorem rdUpd (low high total : Word) : Statement (.rdUpd low high total) := ⟨by simp [rowOf, opcodeTable], (matches_wordOf _ _ _ _ _).2 (by simp [rowOf])⟩
theorem rdBitp (logp : Word) : Statement (.rdBitp logp) := ⟨by simp [rowOf, opcodeTable], (matches_wordOf _ _ _ _ _).2 (by simp [rowOf])⟩
theorem rdIcdf (tblBase tblLen ftb : Word) : Statement (.rdIcdf tblBase tblLen ftb) := ⟨by simp [rowOf, opcodeTable], (matches_wordOf _ _ _ _ _).2 (by simp [rowOf])⟩
theorem rdBits (n : Word) : Statement (.rdBits n) := ⟨by simp [rowOf, opcodeTable], (matches_wordOf _ _ _ _ _).2 (by simp [rowOf])⟩
theorem rdUint (total : Word) : Statement (.rdUint total) := ⟨by simp [rowOf, opcodeTable], (matches_wordOf _ _ _ _ _).2 (by simp [rowOf])⟩
theorem rdTell : Statement .rdTell := ⟨by simp [rowOf, opcodeTable], (matches_wordOf _ _ _ _ _).2 (by simp [rowOf])⟩
theorem rdTellf : Statement .rdTellf := ⟨by simp [rowOf, opcodeTable], (matches_wordOf _ _ _ _ _).2 (by simp [rowOf])⟩
theorem rdTellff : Statement .rdTellff := ⟨by simp [rowOf, opcodeTable], (matches_wordOf _ _ _ _ _).2 (by simp [rowOf])⟩
theorem ppParse (base len : Word) : Statement (.ppParse base len) := ⟨by simp [rowOf, opcodeTable], (matches_wordOf _ _ _ _ _).2 (by simp [rowOf])⟩
theorem ppNext : Statement .ppNext := ⟨by simp [rowOf, opcodeTable], (matches_wordOf _ _ _ _ _).2 (by simp [rowOf])⟩
theorem ppToc (toc : Word) : Statement (.ppToc toc) := ⟨by simp [rowOf, opcodeTable], (matches_wordOf _ _ _ _ _).2 (by simp [rowOf])⟩

end Sys2Proof.Laws.EncodedInItsRow
end

