-- ==== Sys2Proof/Laws/Tell.lean ====
section
/-!
SUPPORT. The logarithm of a normalized `rng`, its 16-bit view, and that the squaring loop never decreases as the view grows
(R120, R122): with its values at the ends of the eight ranges this gives every fraction.
-/

namespace Sys2Proof.Machine

/-- The floor of the logarithm is the exponent of the power of two just below (R9). -/
theorem log2_eq_of_bounds {x l : Nat} (h1 : 2 ^ l ≤ x) (h2 : x < 2 ^ (l + 1)) : Nat.log2 x = l := by
  have hx : x ≠ 0 := by have := Nat.two_pow_pos l; omega
  exact (Nat.log2_eq_iff hx).2 ⟨h1, h2⟩

/-- The logarithm of a normalized `rng` is 23 to 31 (R120). -/
theorem log2_normalized {rng : Nat} (h : rngNormalized rng) : 23 ≤ Nat.log2 rng ∧ Nat.log2 rng ≤ 31 := by
  obtain ⟨h1, h2⟩ := h
  have hcb : codeBot = 8388608 := rfl
  have hct : codeTop = 2147483648 := rfl
  have hx : rng ≠ 0 := by omega
  constructor
  · exact (Nat.le_log2 hx).2 (by norm_num; omega)
  · have : Nat.log2 rng < 32 := (Nat.log2_lt hx).2 (by norm_num; omega)
    omega

/-- The 16-bit view has its top bit set (R122). -/
theorem view16_bounds {rng : Nat} (h : rngNormalized rng) : 32768 ≤ view16 rng ∧ view16 rng < 65536 := by
  obtain ⟨h1, h2⟩ := log2_normalized h
  have hx : rng ≠ 0 := by have := h.1; omega
  have hle := Nat.log2_self_le hx
  have hlt := Nat.lt_log2_self (n := rng)
  unfold view16
  generalize Nat.log2 rng = l at *
  obtain ⟨d, rfl⟩ : ∃ d, l = d + 15 := ⟨l - 15, by omega⟩
  rw [Nat.add_sub_cancel, Nat.shiftRight_eq_div_pow]
  constructor
  · rw [Nat.le_div_iff_mul_le (Nat.two_pow_pos d)]
    calc 32768 * 2 ^ d = 2 ^ (d + 15) := by rw [pow_add]; norm_num; ring
      _ ≤ rng := hle
  · rw [Nat.div_lt_iff_lt_mul (Nat.two_pow_pos d)]
    calc rng < 2 ^ (d + 15 + 1) := hlt
      _ = 65536 * 2 ^ d := by rw [add_assoc, pow_add]; norm_num; ring

/-- One squaring of a view: the bit it appends, and the next view (R122). -/
theorem square_bounds {r : Nat} (h1 : 32768 ≤ r) (h2 : r < 65536) :
    (r * r) >>> 15 >>> 16 ≤ 1 ∧ 32768 ≤ (r * r) >>> 15 >>> ((r * r) >>> 15 >>> 16) ∧
      (r * r) >>> 15 >>> ((r * r) >>> 15 >>> 16) < 65536 := by
  have l1 : 32768 * 32768 ≤ r * r := Nat.mul_le_mul h1 h1
  have l2 : r * r ≤ 65535 * 65535 := Nat.mul_le_mul (by omega) (by omega)
  generalize r * r = x at *
  rw [Nat.shiftRight_eq_div_pow, Nat.shiftRight_eq_div_pow, Nat.shiftRight_eq_div_pow]
  have hb : x / 2 ^ 15 / 2 ^ 16 = 0 ∨ x / 2 ^ 15 / 2 ^ 16 = 1 := by omega
  rcases hb with hb | hb <;> rw [hb] <;> omega

theorem shiftLeft_or_bit {f b : Nat} (hb : b ≤ 1) : (f <<< 1) ||| b = 2 * f + b := by
  rw [← Nat.shiftLeft_add_eq_or_of_lt (by omega), Nat.shiftLeft_eq]
  omega

/-- The loop appends `k` bits (R122). -/
theorem squareLoop_bounds : ∀ {k r f : Nat}, 32768 ≤ r → r < 65536 →
    f * 2 ^ k ≤ squareLoop k r f ∧ squareLoop k r f < (f + 1) * 2 ^ k := by
  intro k
  induction k with
  | zero => intro r f _ _; simp [squareLoop]
  | succ k ih =>
    intro r f h1 h2
    obtain ⟨hb, l1, l2⟩ := square_bounds h1 h2
    obtain ⟨g1, g2⟩ := ih (f := (f <<< 1) ||| ((r * r) >>> 15 >>> 16)) l1 l2
    rw [shiftLeft_or_bit hb] at g1 g2
    rw [squareLoop]
    rw [shiftLeft_or_bit hb]
    refine ⟨le_trans ?_ g1, lt_of_lt_of_le g2 ?_⟩
    · rw [pow_succ, mul_comm (2 ^ k) 2, ← mul_assoc]
      exact Nat.mul_le_mul_right _ (by omega)
    · rw [pow_succ, mul_comm (2 ^ k) 2, ← mul_assoc]
      exact Nat.mul_le_mul_right _ (by omega)

/-- A larger view never has a smaller fraction (R122). -/
theorem squareLoop_mono : ∀ {k r r' f : Nat}, 32768 ≤ r → r ≤ r' → r' < 65536 →
    squareLoop k r f ≤ squareLoop k r' f := by
  intro k
  induction k with
  | zero => intro r r' f _ _ _; exact le_refl _
  | succ k ih =>
    intro r r' f h1 h2 h3
    have hq : (r * r) >>> 15 ≤ (r' * r') >>> 15 := by
      rw [Nat.shiftRight_eq_div_pow, Nat.shiftRight_eq_div_pow]
      exact Nat.div_le_div_right (Nat.mul_le_mul h2 h2)
    obtain ⟨hb, l1, l2⟩ := square_bounds h1 (by omega)
    obtain ⟨hb', l1', l2'⟩ := square_bounds (r := r') (by omega) h3
    rw [squareLoop, squareLoop]
    generalize (r * r) >>> 15 = q at *
    generalize (r' * r') >>> 15 = q' at *
    have hbb : q >>> 16 ≤ q' >>> 16 := by
      rw [Nat.shiftRight_eq_div_pow, Nat.shiftRight_eq_div_pow]
      exact Nat.div_le_div_right hq
    by_cases he : q >>> 16 = q' >>> 16
    · rw [he] at l1 ⊢
      refine ih l1 ?_ l2'
      generalize q' >>> 16 = b
      rw [Nat.shiftRight_eq_div_pow, Nat.shiftRight_eq_div_pow]
      exact Nat.div_le_div_right hq
    · have e : q >>> 16 = 0 ∧ q' >>> 16 = 1 := by omega
      rw [e.1] at l1 l2 ⊢
      rw [e.2] at l1' l2' ⊢
      have g := (squareLoop_bounds (k := k) (f := (f <<< 1) ||| 0) l1 l2).2
      have g' := (squareLoop_bounds (k := k) (f := (f <<< 1) ||| 1) l1' l2').1
      rw [shiftLeft_or_bit (by omega)] at g g'
      rw [shiftLeft_or_bit (by omega), shiftLeft_or_bit (by omega)]
      exact le_of_lt (lt_of_lt_of_le g (by simpa using g'))

/-- A larger view never has a smaller fraction (R122). -/
theorem frac3View_mono {r r' : Nat} (h1 : 32768 ≤ r) (h2 : r ≤ r') (h3 : r' < 65536) : frac3View r ≤ frac3View r' :=
  squareLoop_mono h1 h2 h3

end Sys2Proof.Machine
end

