-- ==== Sys2Proof/Tests/Slice0.lean ====
section
/-!
SUPPORT. The model's own tests. Expected results come from spec/95_test_vectors.md, named at each test (V-DEC and so on).
First the words (WellFormed, Decode), then at most two steps per command, then a witness for the hypotheses of each statement
that has some (`witness_<statement>`), at boundary values.
-/

namespace Sys2Proof.Tests

open Sys2Proof Sys2Proof.Machine

/-! ### States to test on -/

/-- Reset, with these bytes loaded into PKT from address 0 and `E0 70 2C 0F 03 02 01 00` (table `T` of V-ICDF) into TBL. -/
def withPacket (bs : List Byte) : State :=
  { State.reset with
    pkt := { State.reset.pkt with bytes := Memory.load [] 0 bs }
    tbl := { State.reset.tbl with bytes := Memory.load [] 0 [0xE0, 0x70, 0x2C, 0x0F, 0x03, 0x02, 0x01, 0x00] } }

/-- The state the vectors of V-NORM, V-DEC, V-UPD, V-BITP and V-ICDF start from. -/
def coding (phase : RdPhase) (val : BitVec 31) (rng ext : BitVec 32) : State :=
  { withPacket [0x9C, 0x4B, 0xE1, 0x07, 0x5A, 0xC3, 0x28, 0xF6] with
    rd := { phase := phase, val := val, rng := rng, ext := ext, rem := 0x07, nbitsTotal := 33, base := 0, len := 8, offs := 4,
            endOffs := 0, endWindow := 0, nendBits := 0 } }

/-- The same in phase `READY`. -/
def ready (val : BitVec 31) (rng : BitVec 32) : State := coding .ready val rng 0

/-- Program P1's packet, with these RD registers. -/
def program1 (u : RdUnit) : State :=
  { withPacket [0x9C, 0x4B, 0xE1, 0x07, 0x5A, 0xC3, 0x28, 0xF6, 0x11, 0x8D, 0x72, 0xB9, 0x3E, 0xA4, 0x60, 0xD5] with rd := u }

/-- The RD registers after step 13 of program P1 (V-UINT). -/
def afterStep13 : RdUnit :=
  { (ready 0x0F5D6A52 0x11265E00).rd with rem := 0x5A, len := 16, offs := 5, nbitsTotal := 58, endOffs := 4,
                                          endWindow := 0x1F52, nendBits := 15 }

/-- V-UPD, row 1, after its `RD.DEC 10`. -/
def rowOne : State := coding .pair 0x31DA0F7C 0x80000000 0x0CCCCCCC

/-- A held Packet with these registers; `PKT[6] = 01` and `PKT[7] = 02` as in V-NEXT. -/
def held (scheme : Scheme) (arg payBase payLen lpBase lpLen : BitVec 25) : State :=
  { withPacket [0, 0, 0, 0, 0, 0, 1, 2] with
    pp := { PpUnit.reset with phase := .parsed, scheme := scheme, arg := arg, payBase := payBase, payLen := payLen,
                              lpBase := lpBase, lpLen := lpLen } }

/-- The response an outcome ends with. -/
def answer : Host.Outcome State Fault Refusal → Option Response
  | .next t => t.lastResponse
  | .fault _ => none
  | .refused _ => none

/-- `OK` with these results. -/
def okay (r0 r1 r2 r3 : Word) : Option Response :=
  some { status := .ok, results := { r0 := r0, r1 := r1, r2 := r2, r3 := r3 } }

/-- Another status, zero results. -/
def refusal (st : Status) : Option Response := some { status := st, results := Results.zero }

/-- `val`, `rng`, `rem`, `offs` and the counter after. -/
def coder : Host.Outcome State Fault Refusal → Option (BitVec 31 × BitVec 32 × Byte × BitVec 25 × BitVec 32)
  | .next t => some (t.rd.val, t.rd.rng, t.rd.rem, t.rd.offs, t.rd.nbitsTotal)
  | .fault _ => none
  | .refused _ => none

/-- `end_window`, `nend_bits`, `end_offs` and the counter after. -/
def rawReader : Host.Outcome State Fault Refusal → Option (BitVec 32 × BitVec 6 × BitVec 25 × BitVec 32)
  | .next t => some (t.rd.endWindow, t.rd.nendBits, t.rd.endOffs, t.rd.nbitsTotal)
  | .fault _ => none
  | .refused _ => none

/-- `scheme`, `pay_base`, `pay_len`, `lp_base` and `lp_len` after. -/
def packet : Host.Outcome State Fault Refusal → Option (Scheme × BitVec 25 × BitVec 25 × BitVec 25 × BitVec 25)
  | .next t => some (t.pp.scheme, t.pp.payBase, t.pp.payLen, t.pp.lpBase, t.pp.lpLen)
  | .fault _ => none
  | .refused _ => none

/-- An outcome that ends with a response is a next state. -/
theorem next_of_answer {x : Host.Outcome State Fault Refusal} {r : Response} (h : answer x = some r) :
    ∃ t, x = .next t ∧ t.lastResponse = some r := by
  cases x with
  | next t => exact ⟨t, rfl, h⟩
  | fault f => cases h
  | refused f => cases h

theorem view8_legal : (withPacket [0x9C, 0x4B, 0xE1, 0x07, 0x5A, 0xC3, 0x28, 0xF6]).pkt.Legal :=
  ⟨by decide, by decide, by decide, by decide⟩

theorem lengths_legal : (withPacket [0, 0, 0, 0, 0, 0, 1, 2]).pkt.Legal := ⟨by decide, by decide, by decide, by decide⟩

theorem table_legal : (withPacket []).tbl.Legal := ⟨by decide, by decide, by decide, by decide⟩

theorem inv_coding {phase : RdPhase} {val : BitVec 31} {rng ext : BitVec 32} (h1 : codeBot < rng.toNat)
    (h2 : rng.toNat ≤ codeTop) (h3 : val.toNat < rng.toNat)
    (h4 : phase = .pair → 2 ^ 7 ≤ ext.toNat ∧ ext.toNat ≤ 2 ^ 30) : Inv (coding phase val rng ext) where
  pkt := view8_legal
  tbl := table_legal
  rd := fun _ =>
    { rngLow := h1, rngHigh := h2, valBelow := h3, viewInside := (by decide : 8 ≤ 65536), offsInside := (by decide : 4 ≤ 8)
      endOffsInside := Nat.zero_le _, cacheSize := Nat.zero_le _, cacheClean := Nat.one_pos, pairExt := h4 }
  pp := nofun
  responses := nofun

theorem inv_ready {val : BitVec 31} {rng : BitVec 32} (h1 : codeBot < rng.toNat) (h2 : rng.toNat ≤ codeTop)
    (h3 : val.toNat < rng.toNat) : Inv (ready val rng) :=
  inv_coding h1 h2 h3 nofun

theorem inv_held {scheme : Scheme} {arg payBase payLen lpBase lpLen : BitVec 25}
    (h : (held scheme arg payBase payLen lpBase lpLen).pp.Held (withPacket [0, 0, 0, 0, 0, 0, 1, 2]).pkt) :
    Inv (held scheme arg payBase payLen lpBase lpLen) where
  pkt := lengths_legal
  tbl := table_legal
  rd := fun hc => absurd rfl hc
  pp := fun _ => h
  responses := nofun

/-! ### WellFormed: an ill-formed command for each check -/

theorem test_wellFormed_view : (Instr.rdInit 0x1000001 0).WellFormed = false ∧ (Instr.rdInit 0 0x1000001).WellFormed = false ∧
    (Instr.ppParse 0x1000001 0).WellFormed = false ∧ (Instr.ppParse 0 0x1000001).WellFormed = false ∧
    (Instr.rdInit 0x1000000 0x1000000).WellFormed = true := by decide

theorem test_wellFormed_total : (Instr.rdDec 1).WellFormed = false ∧ (Instr.rdDec 65537).WellFormed = false ∧
    (Instr.rdDec 2).WellFormed = true ∧ (Instr.rdDec 65536).WellFormed = true := by decide

theorem test_wellFormed_bits : (Instr.rdDecbin 0).WellFormed = false ∧ (Instr.rdDecbin 17).WellFormed = false ∧
    (Instr.rdBitp 0).WellFormed = false ∧ (Instr.rdBitp 17).WellFormed = false ∧ (Instr.rdDecbin 16).WellFormed = true := by
  decide

theorem test_wellFormed_interval : (Instr.rdUpd 6 6 10).WellFormed = false ∧ (Instr.rdUpd 6 11 10).WellFormed = false ∧
    (Instr.rdUpd 0 1 1).WellFormed = false ∧ (Instr.rdUpd 0 1 65537).WellFormed = false ∧
    (Instr.rdUpd 0 10 10).WellFormed = true := by decide

theorem test_wellFormed_table : (Instr.rdIcdf 0 0 8).WellFormed = false ∧ (Instr.rdIcdf 0x1000001 1 8).WellFormed = false ∧
    (Instr.rdIcdf 0 0x1000001 8).WellFormed = false ∧ (Instr.rdIcdf 0 8 0).WellFormed = false ∧
    (Instr.rdIcdf 0 8 17).WellFormed = false ∧ (Instr.rdIcdf 0 8 8).WellFormed = true := by decide

theorem test_wellFormed_rest : (Instr.rdBits 26).WellFormed = false ∧ (Instr.rdBits 25).WellFormed = true ∧
    (Instr.rdUint 1).WellFormed = false ∧ (Instr.rdUint 0xFFFFFFFF).WellFormed = true ∧
    (Instr.ppToc 256).WellFormed = false ∧ (Instr.ppToc 255).WellFormed = true := by decide

/-! ### Decode: words of V-ENC -/

theorem test_decode_rd_core : decode 0x10000000000000001000000000#104 = .ok (.rdInit 0 16) ∧
    decode 0x110000000A0000000000000000#104 = .ok (.rdDec 10) ∧
    decode 0x12000000040000000000000000#104 = .ok (.rdDecbin 4) ∧
    decode 0x1300000006000000070000000A#104 = .ok (.rdUpd 6 7 10) := by decide

theorem test_decode_rd_symbols : decode 0x14000000030000000000000000#104 = .ok (.rdBitp 3) ∧
    decode 0x15000000000000000800000008#104 = .ok (.rdIcdf 0 8 8) ∧
    decode 0x16000000190000000000000000#104 = .ok (.rdBits 25) ∧
    decode 0x17000003E80000000000000000#104 = .ok (.rdUint 1000) := by decide

theorem test_decode_rd_tell : decode 0x18000000000000000000000000#104 = .ok .rdTell ∧
    decode 0x19000000000000000000000000#104 = .ok .rdTellf ∧
    decode 0x1A000000000000000000000000#104 = .ok .rdTellff := by decide

theorem test_decode_pp : decode 0x20000000040000000A00000000#104 = .ok (.ppParse 4 10) ∧
    decode 0x21000000000000000000000000#104 = .ok .ppNext ∧
    decode 0x220000007C0000000000000000#104 = .ok (.ppToc 0x7C) := by decide

theorem test_decode_illegal : decode 0 = .error .unassignedOpcode ∧
    decode 0x1B000000000000000000000000#104 = .error .unassignedOpcode ∧
    decode 0x23000000000000000000000000#104 = .error .unassignedOpcode ∧
    decode 0x18000000000000000000000001#104 = .error .unusedFieldNotZero ∧
    decode 0x10000000000000001000000005#104 = .error .unusedFieldNotZero ∧
    decode 0x110000000A0000000100000000#104 = .error .unusedFieldNotZero := by decide

theorem test_encode_upd : encode (.rdUpd 6 7 10) = 0x1300000006000000070000000A#104 := by decide

theorem test_decodeTableWord : decodeTableWord 104 0x1300000006000000070000000A = some (.rdUpd 6 7 10) := by decide

/-! ### Memory -/

theorem test_write_canonical : Memory.write [(1, 5), (3, 7)] 3 0 = [(1, 5)] ∧
    Memory.write [(1, 5), (3, 7)] 2 9 = [(1, 5), (2, 9), (3, 7)] := by decide

/-! ### One step of each command -/

/-- V-INIT, rows `A5 3C 7E 81` and `FF`. -/
theorem test_init : coder (exec (.rdInit 0 4) (withPacket [0xA5, 0x3C, 0x7E, 0x81])) =
      some (0x2D61C0BF, 0x80000000, 0x81, 4, 33) ∧
    coder (exec (.rdInit 0 1) (withPacket [0xFF])) = some (0x007FFFFF, 0x80000000, 0x00, 1, 33) := by decide

/-- V-INIT, the empty view. -/
theorem test_init_empty : coder (exec (.rdInit 65536 0) State.reset) = some (0x7FFFFFFF, 0x80000000, 0x00, 0, 33) := by decide

/-- V-DEC, rows 1 and 4 (the clamp). -/
theorem test_dec : answer (exec (.rdDec 10) (ready 0x31DA0F7C 0x80000000)) = okay 6 0x0CCCCCCC 0 0 ∧
    answer (exec (.rdDec 10) (ready 0x7FFFFFFA 0x80000000)) = okay 0 0x0CCCCCCC 0 0 := by decide

/-- V-DECBIN, rows 1 and 5. -/
theorem test_decbin : answer (exec (.rdDecbin 4) (ready 0x00BADD16 0x011265E0)) = okay 5 0x0011265E 0 0 ∧
    answer (exec (.rdDecbin 16) (ready 0 0x80000000)) = okay 65535 0x00008000 0 0 := by decide

/-- V-UPD, rows 1 and 8 (three iterations). -/
theorem test_upd : coder (exec (.rdUpd 6 7 10) (coding .pair 0x31DA0F7C 0x80000000 0x0CCCCCCC)) =
      some (0x0B73A918, 0x0CCCCCCC, 0x07, 4, 33) ∧
    coder (exec (.rdUpd 65535 65536 65536) (coding .pair 0x7F 0x00800001 0x80)) =
      some (0x7F529E6B, 0x80000000, 0x28, 7, 57) := by decide

/-- V-UPD, the refusals (u1), (u2), (u3) of row 1. -/
theorem test_upd_refused : answer (exec (.rdUpd 7 8 10) (coding .pair 0x31DA0F7C 0x80000000 0x0CCCCCCC)) = refusal .operand ∧
    answer (exec (.rdUpd 6 11 10) (coding .pair 0x31DA0F7C 0x80000000 0x0CCCCCCC)) = refusal .operand ∧
    answer (exec (.rdUpd 6 7 11) (coding .pair 0x31DA0F7C 0x80000000 0x0CCCCCCC)) = refusal .operand := by decide

/-- V-BITP, rows 7 and 8, the two sides of the boundary. -/
theorem test_bitp : answer (exec (.rdBitp 16) (ready 0x7F 0x00800001)) = okay 1 0 0 0 ∧
    coder (exec (.rdBitp 16) (ready 0x80 0x00800001)) = some (0x52, 0x7FFF8100, 0x5A, 5, 41) := by decide

/-- V-ICDF, table `T`: the value at a threshold and below it. -/
theorem test_icdf : answer (exec (.rdIcdf 0 8 8) (ready 0x04E665E0 0x0599999A)) = okay 1 0 0 0 ∧
    answer (exec (.rdIcdf 0 8 8) (ready 0x04E665DF 0x0599999A)) = okay 2 0 0 0 ∧
    coder (exec (.rdIcdf 0 8 8) (ready 0x00059998 0x0599999A)) = some (0x05999852, 0x05999900, 0x5A, 5, 41) := by decide

/-- V-ICDF: `T` without its last entry, and `T` under `ftb = 7`. -/
theorem test_icdf_refused : answer (exec (.rdIcdf 0 7 8) (ready 0 0x0599999A)) = refusal .operand ∧
    answer (exec (.rdIcdf 0 8 7) (ready 0x044075E6 0x0599999A)) = refusal .operand := by decide

/-- V-BITS, the view of program P1: its first request. -/
theorem test_bits : rawReader (exec (.rdBits 5) (program1 { (ready 0x31DA0F7C 0x80000000).rd with len := 16 })) =
    some (0x01F52306, 27, 4, 38) := by decide

/-- V-REFUSE: the phase is looked at before the operand. -/
theorem test_bits_refused : answer (exec (.rdBits 26) State.reset) = refusal .protocol ∧
    answer (exec (.rdBits 26) (ready 0 0x80000000)) = refusal .operand := by decide

/-- V-UINT: from the state after step 13 of program P1, the direct path (20) and the split path (`ftb = 2`). -/
theorem test_uint : answer (exec (.rdUint 200) (program1 afterStep13)) = okay 20 0 0 0 ∧
    coder (exec (.rdUint 200) (program1 afterStep13)) = some (0x0409C19E, 0x15F3AB00, 0xC3, 6, 66) := by decide

/-- V-UINT, the clamp: view `FF FF FF FF FF`, `RD.UINT 1001` answers 1000. -/
theorem test_uint_clamp : answer (exec (.rdUint 1001)
    { withPacket [0xFF, 0xFF, 0xFF, 0xFF, 0xFF] with rd := { (ready 0 0x80000000).rd with rem := 0xFF, len := 5 } }) =
    okay 1000 0 0 0 := by decide

/-- V-TELL, rows 2 and 5. -/
theorem test_tell : answer (exec .rdTell (ready 0 0x7FFFFFFF)) = okay 3 0 0 0 ∧
    answer (exec .rdTell (ready 0 0x0CCCCCCC)) = okay 6 0 0 0 := by decide

/-- V-TELL, rows 3 and 4 (the two sides of the first threshold). -/
theorem test_tellf : answer (exec .rdTellf (ready 0 0x45CA8000)) = okay 24 0 0 0 ∧
    answer (exec .rdTellf (ready 0 0x45CB0000)) = okay 23 0 0 0 := by decide

/-- V-TELL, rows 2 and 5. -/
theorem test_tellff : answer (exec .rdTellff (ready 0 0x7FFFFFFF)) = okay 17 0 0 0 ∧
    answer (exec .rdTellff (ready 0 0x0CCCCCCC)) = okay 43 0 0 0 := by decide

/-- V-PARSE: a VBR packet with padding. -/
theorem test_parse : answer (exec (.ppParse 0 9) (withPacket [0xFF, 0xC3, 0x01, 0x02, 0x00, 0x0A, 0x0B, 0x0C, 0x00])) =
    okay 0x2772 5 3 2 := by decide

/-- V-PARSE: the failures of S7, S8 and S9. -/
theorem test_parse_fails : answer (exec (.ppParse 0 4) (withPacket [0x03, 0x00, 0x01, 0x02])) = refusal .invalidFormat ∧
    answer (exec (.ppParse 0 3) (withPacket [0x0A, 0x00, 0xAA])) = refusal .dtx ∧
    answer (exec (.ppParse 0 6) (withPacket [0xF9, 0x01, 0x02, 0x03, 0x04, 0x05])) = refusal .invalidLength := by decide

/-- V-NEXT: a double-equal Packet and a VBR one. -/
theorem test_next : packet (exec .ppNext (held .doubleEqual 0 1 6 0 0)) = some (.single, 4, 3, 0, 0) ∧
    packet (exec .ppNext (held .vbr 0 8 6 6 2)) = some (.vbr, 9, 5, 7, 1) := by decide

/-- V-NEXT: `END` and `PROTOCOL`. -/
theorem test_next_ends : answer (exec .ppNext (held .vbr 0 8 0 6 2)) = refusal .ended ∧
    answer (exec .ppNext State.reset) = refusal .protocol := by decide

/-- V-TOC. -/
theorem test_toc : answer (exec (.ppToc 0xFF) State.reset) = okay 0x772 200 0 0 ∧
    answer (exec (.ppToc 3) State.reset) = okay 0x640 100 0 0 ∧ answer (exec (.ppToc 256) State.reset) = refusal .operand := by decide

/-- V-REFUSE: an unused field that is not zero is `ILLEGAL` before the phase is looked at. -/
theorem test_step_illegal : answer (step { State.reset with commands := [0x18000000000000000000000001#104] }) =
    refusal .illegal := by decide

/-- A placed command runs as the next step (R69). -/
theorem test_step_withFetchWord : answer (step (State.reset.withFetchWord 104 0x220000007C0000000000000000)) =
    okay 0x171 200 0 0 := by decide

/-! ### Witnesses: states and operands that meet the hypotheses of each statement -/

theorem witness_ACommandWordIsTheEncodingOfItsCommand : decode 0x1300000006000000070000000A#104 = .ok (.rdUpd 6 7 10) := by decide

theorem witness_AWordIsTheCommandOfTheRowItMatches : (⟨"RD.UPD", 0x13, .abc⟩ : Row) ∈ opcodeTable ∧
    (⟨"RD.UPD", 0x13, .abc⟩ : Row).Matches 0x1300000006000000070000000A#104 := by decide

theorem witness_IllegalWordsAreRefused :
    ({ State.reset with commands := [BitVec.allOnes 104] } : State).commands = [BitVec.allOnes 104] ∧
    ∀ r ∈ opcodeTable, ¬ r.Matches (BitVec.allOnes 104) := by decide

theorem witness_AStepRunsTheDecodedCommand : (State.reset.withFetchWord 104 0x21000000000000000000000000).commands =
      [0x21000000000000000000000000#104] ∧ decode 0x21000000000000000000000000#104 = .ok .ppNext ∧
    State.reset.commands = [] := by decide

theorem witness_IdleRegistersAreNeverRead : State.reset.rd.phase = .idle ∧ { (ready 5 9).rd with phase := .idle }.phase = .idle ∧
    State.reset.pp.phase = .idle ∧ { (held .vbr 1 2 3 4 5).pp with phase := .idle }.phase = .idle := by decide

/-- In phase `READY` with the smallest `rng`, and the step of `RD.BITP 16`. -/
theorem witness_EveryStepKeepsTheInvariant : Inv (putCommand (ready 0x7F 0x00800001) (encode (.rdBitp 16))) ∧
    ∃ t, step (putCommand (ready 0x7F 0x00800001) (encode (.rdBitp 16))) = .next t := by
  have h : Inv (ready 0x7F 0x00800001) := inv_ready (by decide) (by decide) (by decide)
  refine ⟨⟨h.pkt, h.tbl, h.rd, h.pp, h.responses⟩, ?_⟩
  obtain ⟨t, ht, -⟩ := next_of_answer (x := step (putCommand (ready 0x7F 0x00800001) (encode (.rdBitp 16))))
    (r := { status := .ok, results := { r0 := 1 } }) (by decide)
  exact ⟨t, ht⟩

/-- In phase `PAIR` with the largest `rng`, and with a held Packet. -/
theorem witness_EveryStepAnswers : Inv (coding .pair 0x7FFFFFFF 0x80000000 0x40000000) ∧ Inv (held .vbr 0 8 6 6 2) :=
  ⟨inv_coding (by decide) (by decide) (by decide) (by decide),
    inv_held { payInside := by decide, equalHalves := nofun, explicitFits := nofun, wholeFrames := nofun,
               codesFit := fun _ => ⟨by decide, [1, 2], by decide, by decide⟩, noCodes := fun h => absurd rfl h }⟩

/-- A command that completes and one that is refused; the same two states serve every statement about a next state. -/
theorem witness_NoStepWritesMemory : (∃ t, exec .rdTell (ready 0 0x80000000) = .next t ∧ t.lastResponse = okay 2 0 0 0) ∧
    (∃ t, exec .rdTell State.reset = .next t ∧ t.lastResponse = refusal .protocol) ∧ step State.reset = .next State.reset :=
  ⟨next_of_answer (by decide), next_of_answer (by decide), rfl⟩

theorem witness_TheUnitsAreIndependent : isRdCommand .rdTell = true ∧ isRdCommand .ppNext = false := by decide

theorem witness_EveryCommandIsAnsweredOnce :
    (∃ t, exec (.rdBits 25) (ready 0 0x80000000) = .next t ∧ t.lastResponse = okay 0xC328F6 0 0 0) ∧
    ∃ t, exec .ppNext State.reset = .next t ∧ t.lastResponse = refusal .protocol :=
  ⟨next_of_answer (by decide), next_of_answer (by decide)⟩

/-- An `END`, a `DTX`, and an `OK`. -/
theorem witness_StatusesAndResultsByCommand :
    (∃ t, exec .ppNext (held .single 0 1 0 0 0) = .next t ∧ t.lastResponse = refusal .ended) ∧
    (∃ t, exec (.ppParse 0 3) (withPacket [0x0A, 0x00, 0xAA]) = .next t ∧ t.lastResponse = refusal .dtx) ∧
    ∃ t, exec (.rdBitp 16) (ready 0x7F 0x00800001) = .next t ∧ t.lastResponse = okay 1 0 0 0 :=
  ⟨next_of_answer (by decide), next_of_answer (by decide), next_of_answer (by decide)⟩

theorem witness_RdPhaseMachine : isRdCommand (.rdDec 10) = true ∧
    rdPhaseAfter (.rdDec 10) (coding .pair 0 0x80000000 0x80).rd.phase = none ∧
    rdPhaseAfter (.rdDec 10) (ready 0 0x80000000).rd.phase = some .pair ∧
    ∃ t, exec (.rdDec 10) (ready 0 0x80000000) = .next t ∧ t.lastResponse = okay 9 0x0CCCCCCC 0 0 :=
  ⟨by decide, by decide, by decide, next_of_answer (by decide)⟩

theorem witness_PpPhaseMachine : isRdCommand .ppNext = false ∧ ppPhaseAfter .ppNext State.reset.pp.phase = none ∧
    ppPhaseAfter .ppNext (held .single 0 1 10 0 0).pp.phase = some .parsed ∧
    (∃ t, exec .ppNext (held .single 0 1 10 0 0) = .next t ∧ t.lastResponse = okay 1 10 0 0) ∧
    ∃ t, exec .ppNext (held .single 0 1 0 0 0) = .next t ∧ t.lastResponse = refusal .ended :=
  ⟨by decide, by decide, by decide, next_of_answer (by decide), next_of_answer (by decide)⟩

theorem witness_OperandsOutsideTheirRangeAreRefused :
    (phaseAllows (.rdDec 65537) (ready 0 0x80000000) ∧ (Instr.rdDec 65537).WellFormed = false) ∧
    ¬ ((65536 : Word).toNat ≤ 2 ^ 24 ∧ (1 : Word).toNat ≤ 2 ^ 24 ∧ (65536 : Word).toNat + (1 : Word).toNat ≤ State.reset.pkt.size) ∧
    ((65536 : Word).toNat ≤ 2 ^ 24 ∧ (0 : Word).toNat ≤ 2 ^ 24 ∧ (65536 : Word).toNat + (0 : Word).toNat ≤ State.reset.pkt.size) ∧
    ((ready 0 0x80000000).rd.phase = .ready ∧ ¬ (1 ≤ (4096 : Word).toNat ∧ (1 : Word).toNat ≤ 2 ^ 24 ∧
      (4096 : Word).toNat ≤ 2 ^ 24 ∧ (1 : Word).toNat + (4096 : Word).toNat ≤ (ready 0 0x80000000).tbl.size)) := by
  refine ⟨⟨⟨by decide, by decide⟩, by decide⟩, by decide, by decide, by decide⟩

/-- The empty view at the end of PKT, and a view of eight bytes. -/
theorem witness_RdInitStartsTheDecoder : (65536 : Word).toNat ≤ 2 ^ 24 ∧ (0 : Word).toNat ≤ 2 ^ 24 ∧
    (65536 : Word).toNat + (0 : Word).toNat ≤ State.reset.pkt.size ∧
    (0 : Word).toNat + (8 : Word).toNat ≤ (ready 0 0x80000000).pkt.size := by decide

theorem witness_ReinitialisationForgetsTheUnit : viewLegal 65536 0 State.reset.pkt.size ∧
    ∃ t, exec (.ppParse 0 1) (withPacket [0x78]) = .next t ∧ t.lastResponse = okay 0x0071 1 0 0 :=
  ⟨by decide, next_of_answer (by decide)⟩

/-- `rng = 1`, the smallest; `rng = 2^23`, where the loop still turns, with a byte left and with none. -/
theorem witness_NormalizeIsTheLoop : 1 ≤ (ready 0 1).rd.rng.toNat ∧
    ((ready 0 0x00800000).rd.base.toNat + (ready 0 0x00800000).rd.len.toNat ≤ (ready 0 0x00800000).pkt.size ∧
      (ready 0 0x00800000).rd.rng.toNat ≤ 0x00800000) ∧
    { (ready 0 0x00800000).rd with offs := 8 }.rng.toNat ≤ 0x00800000 := by decide

theorem witness_RdDecAnswersTheOffset : State.reset.rd.phase ≠ .ready ∧
    ((ready 0 0x80000000).rd.phase = .ready ∧ ¬ (2 ≤ (1 : Word).toNat ∧ (1 : Word).toNat ≤ 65536) ∧
      ¬ (2 ≤ (65537 : Word).toNat ∧ (65537 : Word).toNat ≤ 65536)) ∧
    (Inv (ready 0x00800000 0x00800001) ∧ (ready 0x00800000 0x00800001).rd.phase = .ready ∧ 2 ≤ (65536 : Word).toNat ∧
      (65536 : Word).toNat ≤ 65536 ∧ 2 ≤ (2 : Word).toNat) :=
  ⟨by decide, by decide, inv_ready (by decide) (by decide) (by decide), by decide⟩

theorem witness_RdDecbinAnswersTheOffset : State.reset.rd.phase ≠ .ready ∧
    ((ready 0 0x80000000).rd.phase = .ready ∧ ¬ (1 ≤ (0 : Word).toNat ∧ (0 : Word).toNat ≤ 16) ∧
      ¬ (1 ≤ (17 : Word).toNat ∧ (17 : Word).toNat ≤ 16)) ∧
    (Inv (ready 0x00800000 0x00800001) ∧ (ready 0x00800000 0x00800001).rd.phase = .ready ∧ 1 ≤ (16 : Word).toNat ∧
      (16 : Word).toNat ≤ 16 ∧ 1 ≤ (1 : Word).toNat) :=
  ⟨by decide, by decide, inv_ready (by decide) (by decide) (by decide), by decide⟩

/-- V-UPD, row 1, and the whole range. -/
theorem witness_RdUpdNarrowsToTheSymbol : State.reset.rd.phase ≠ .pair ∧
    ¬ (6 : Word).toNat < (6 : Word).toNat ∧ Inv rowOne ∧ rowOne.rd.phase = .pair ∧
    ((6 : Word).toNat < (7 : Word).toNat ∧ (7 : Word).toNat ≤ (10 : Word).toNat ∧ 2 ≤ (10 : Word).toNat ∧
      (10 : Word).toNat ≤ 65536) ∧
    rowOne.rd.ext.toNat * (10 : Word).toNat ≤ rowOne.rd.rng.toNat ∧
    (6 : Word).toNat ≤ (10 : Word).toNat - min (rowOne.rd.val.toNat / rowOne.rd.ext.toNat + 1) (10 : Word).toNat ∧
    (10 : Word).toNat - min (rowOne.rd.val.toNat / rowOne.rd.ext.toNat + 1) (10 : Word).toNat < (7 : Word).toNat ∧
    (0 : Word).toNat ≤ (10 : Word).toNat - min (rowOne.rd.val.toNat / rowOne.rd.ext.toNat + 1) (10 : Word).toNat ∧
    (10 : Word).toNat - min (rowOne.rd.val.toNat / rowOne.rd.ext.toNat + 1) (10 : Word).toNat < (10 : Word).toNat :=
  ⟨by decide, by decide, inv_coding (by decide) (by decide) (by decide) (by decide), by decide⟩

/-- V-UPD: operands that fail (u1), (u2) and (u3) of R88 from row 1; those of `witness_RdUpdNarrowsToTheSymbol` pass all
three. -/
theorem witness_RdUpdChecks : Inv rowOne ∧ rowOne.rd.phase = .pair ∧ ¬ (6 : Word).toNat < (6 : Word).toNat ∧
    ¬ (11 : Word).toNat ≤ (10 : Word).toNat ∧ ¬ 2 ≤ (1 : Word).toNat ∧ ¬ (65537 : Word).toNat ≤ 65536 ∧
    ¬ rowOne.rd.ext.toNat * (11 : Word).toNat ≤ rowOne.rd.rng.toNat ∧
    ¬ (7 : Word).toNat ≤ (10 : Word).toNat - min (rowOne.rd.val.toNat / rowOne.rd.ext.toNat + 1) (10 : Word).toNat ∧
    ¬ (10 : Word).toNat - min (rowOne.rd.val.toNat / rowOne.rd.ext.toNat + 1) (10 : Word).toNat < (6 : Word).toNat :=
  ⟨inv_coding (by decide) (by decide) (by decide) (by decide), by decide⟩

/-- The clamped decode of V-DEC, row 4, and V-DECBIN, row 6. -/
theorem witness_PairedUpdateIsNeverRefused : rowOne.rd.phase = .pair ∧
    (Inv (ready 0x7FFFFFFA 0x80000000) ∧ (∃ t, exec (.rdDec 10) (ready 0x7FFFFFFA 0x80000000) = .next t ∧
      t.lastResponse = okay 0 0x0CCCCCCC 0 0) ∧ (0 : Word).toNat ≤ (0 : Word).toNat ∧ (0 : Word).toNat < (1 : Word).toNat ∧
      (1 : Word).toNat ≤ (10 : Word).toNat) ∧
    (Inv (ready 0x00800000 0x00800001) ∧ (∃ t, exec (.rdDecbin 16) (ready 0x00800000 0x00800001) = .next t ∧
      t.lastResponse = okay 0 0x80 0 0) ∧ (1 : Word).toNat ≤ 2 ^ (16 : Word).toNat) :=
  ⟨by decide, ⟨inv_ready (by decide) (by decide) (by decide), next_of_answer (by decide), by decide⟩,
    inv_ready (by decide) (by decide) (by decide), next_of_answer (by decide), by decide⟩

/-- Both sides of `val < s` (V-BITP, rows 7 and 8). -/
theorem witness_RdBitpDecodesOneBit : State.reset.rd.phase ≠ .ready ∧
    ((ready 0 0x80000000).rd.phase = .ready ∧ ¬ (1 ≤ (0 : Word).toNat ∧ (0 : Word).toNat ≤ 16) ∧
      ¬ (1 ≤ (17 : Word).toNat ∧ (17 : Word).toNat ≤ 16)) ∧
    (Inv (ready 0x7F 0x00800001) ∧ (16 : Word).toNat ≤ 16 ∧
      (ready 0x7F 0x00800001).rd.val.toNat < (ready 0x7F 0x00800001).rd.rng.toNat / 2 ^ (16 : Word).toNat) ∧
    (Inv (ready 0x80 0x00800001) ∧
      (ready 0x80 0x00800001).rd.rng.toNat / 2 ^ (16 : Word).toNat ≤ (ready 0x80 0x00800001).rd.val.toNat) :=
  ⟨by decide, by decide, ⟨inv_ready (by decide) (by decide) (by decide), by decide⟩,
    inv_ready (by decide) (by decide) (by decide), by decide⟩

theorem witness_RdBitpIsDecbinThenUpd : Inv (ready 0x7F 0x00800001) ∧ (ready 0x7F 0x00800001).rd.phase = .ready ∧
    1 ≤ (16 : Word).toNat ∧ (16 : Word).toNat ≤ 16 :=
  ⟨inv_ready (by decide) (by decide) (by decide), by decide⟩

/-- Table `T` of V-ICDF: `val` at the first threshold. -/
def atFirst : State := ready 0x04E665E0 0x0599999A

/-- Table `T` of V-ICDF: `val = 0`. -/
def atZero : State := ready 0 0x0599999A

/-- Table `T` of V-ICDF: the first entry (`k = 0`, at its threshold) and the last one (`k = 7`). -/
theorem witness_RdIcdfReturnsTheFirstEntryReached :
    (Inv atFirst ∧ atFirst.rd.phase = .ready ∧ tableLegal 0 8 atFirst.tbl.size ∧ 1 ≤ (8 : Word).toNat ∧ (8 : Word).toNat ≤ 16 ∧
      0 < (8 : Word).toNat ∧ (∀ j, j ≤ 0 → tableEntry atFirst.tbl 0 j ≤ 2 ^ (8 : Word).toNat) ∧
      atFirst.rd.rng.toNat / 2 ^ (8 : Word).toNat * tableEntry atFirst.tbl 0 0 ≤ atFirst.rd.val.toNat) ∧
    (Inv atZero ∧ 7 < (8 : Word).toNat ∧ (∀ j, j ≤ 7 → tableEntry atZero.tbl 0 j ≤ 2 ^ (8 : Word).toNat) ∧
      (∀ j, j < 7 → atZero.rd.val.toNat < atZero.rd.rng.toNat / 2 ^ (8 : Word).toNat * tableEntry atZero.tbl 0 j) ∧
      atZero.rd.rng.toNat / 2 ^ (8 : Word).toNat * tableEntry atZero.tbl 0 7 ≤ atZero.rd.val.toNat) := by
  refine ⟨⟨inv_ready (by decide) (by decide) (by decide), by decide, by decide, by decide, by decide, by decide, ?_, by decide⟩,
    inv_ready (by decide) (by decide) (by decide), by decide, ?_, ?_, by decide⟩
  · intro j hj; obtain rfl : j = 0 := by omega
    decide
  · intro j hj; interval_cases j <;> decide
  · intro j hj; interval_cases j <;> decide

/-- `T` without its last entry and `val = 0` (the scan reaches the end), and `T` under `ftb = 7` (above the scale at once). -/
theorem witness_RdIcdfRefusesABadTable : atZero.rd.phase = .ready ∧ tableLegal 0 7 atZero.tbl.size ∧
    (∀ j, j < 7 → tableEntry atZero.tbl 0 j ≤ 2 ^ (8 : Word).toNat ∧
      atZero.rd.val.toNat < atZero.rd.rng.toNat / 2 ^ (8 : Word).toNat * tableEntry atZero.tbl 0 j) ∧ 7 = (7 : Word).toNat ∧
    2 ^ (7 : Word).toNat < tableEntry atZero.tbl 0 0 := by
  refine ⟨by decide, by decide, ?_, by decide, by decide⟩
  intro j hj; interval_cases j <;> decide

/-- Table `T`; and its last byte alone, the table `00`. -/
theorem witness_ATerminatedTableAlwaysDecodes : Inv (ready 0x044075E6 0x0599999A) ∧
    (ready 0x044075E6 0x0599999A).rd.phase = .ready ∧
    (∃ t, exec (.rdIcdf 0 8 8) (ready 0x044075E6 0x0599999A) = .next t ∧ t.lastResponse = okay 2 0 0 0) ∧
    tableLegal 0 8 (ready 0x044075E6 0x0599999A).tbl.size ∧
    (∀ j, j < (8 : Word).toNat → tableEntry (withPacket []).tbl 0 j ≤ 2 ^ (8 : Word).toNat) ∧
    tableEntry (withPacket []).tbl 0 ((8 : Word).toNat - 1) = 0 ∧
    tableLegal 7 1 (ready 0x044075E6 0x0599999A).tbl.size ∧ tableEntry (withPacket []).tbl 7 0 = 0 := by
  refine ⟨inv_ready (by decide) (by decide) (by decide), by decide, next_of_answer (by decide), by decide, ?_, by decide,
    by decide, by decide⟩
  intro j hj
  have : j < 8 := hj
  interval_cases j <;> decide

/-- Index 1 (`k = 0`) and index 2 (`k = 1`) of table `T`. -/
theorem witness_RdIcdfIsDecbinThenUpd : Inv (ready 0x04E665E0 0x0599999A) ∧ Inv (ready 0x04E665DF 0x0599999A) ∧
    (∃ t, exec (.rdIcdf 0 8 8) (ready 0x04E665E0 0x0599999A) = .next t ∧ t.lastResponse = okay (BitVec.ofNat 32 (0 + 1)) 0 0 0) ∧
    (∃ t, exec (.rdIcdf 0 8 8) (ready 0x04E665DF 0x0599999A) = .next t ∧ t.lastResponse = okay (BitVec.ofNat 32 (1 + 1)) 0 0 0) ∧
    tableEntry (withPacket []).tbl 0 (0 - 1) < 2 ^ (8 : Word).toNat :=
  ⟨inv_ready (by decide) (by decide) (by decide), inv_ready (by decide) (by decide) (by decide), next_of_answer (by decide),
    next_of_answer (by decide), by decide⟩

theorem witness_RdBitsTakesTheNextRawBits : State.reset.rd.phase ≠ .ready ∧
    ((ready 0 0x80000000).rd.phase = .ready ∧ 25 < (26 : Word).toNat ∧ (0 : Word) = 0) ∧
    (Inv (ready 0 0x80000000) ∧ (25 : Word).toNat ≤ 25) :=
  ⟨by decide, by decide, inv_ready (by decide) (by decide) (by decide), by decide⟩

/-- An empty cache under the largest request, and a cache that needs no refill. -/
theorem witness_RawBitsRefillTheCache : (Inv (ready 0 0x80000000) ∧ (ready 0 0x80000000).rd.phase = .ready ∧
      (25 : Word).toNat ≤ 25 ∧ (ready 0 0x80000000).rd.nendBits.toNat < (25 : Word).toNat) ∧
    ¬ (ready 0 0x80000000).rd.nendBits.toNat < (0 : Word).toNat :=
  ⟨⟨inv_ready (by decide) (by decide) (by decide), by decide⟩, by decide⟩

theorem witness_RawBitsComeFromTheTail : viewLegal 0 8 (ready 0 0x80000000).pkt.size ∧ 7 < (8 : Word).toNat ∧ 7 < 8 ∧
    8 * (8 : Word).toNat ≤ 64 := by decide

theorem witness_RawAndCodedBitsDoNotMeet : isCodedCommand (.rdBitp 16) = true ∧ isCodedCommand (.rdUpd 6 7 10) = true := by decide

/-- `total = 2^32 - 1`; `total - 1` a power of two (257) and not one (256). -/
theorem witness_UniformBitsCountsBits : 2 ≤ 2 ^ 32 - 1 ∧ 2 ^ 32 - 1 < 2 ^ 32 ∧ (∃ k, 257 - 1 = 2 ^ k) ∧ ¬ ∃ k, 256 - 1 = 2 ^ k := by
  refine ⟨by decide, by decide, ⟨8, rfl⟩, ?_⟩
  rintro ⟨k, h⟩
  have h8 : k < 8 := (Nat.pow_lt_pow_iff_right (by decide : 1 < 2)).1 (by omega : 2 ^ k < 2 ^ 8)
  interval_cases k <;> omega

/-- The smallest total and the largest on the direct path, 256. -/
theorem witness_RdUintDirect : Inv (ready 0x31DA0F7C 0x80000000) ∧ (ready 0x31DA0F7C 0x80000000).rd.phase = .ready ∧
    2 ≤ (2 : Word).toNat ∧ uniformBits (ready 0x31DA0F7C 0x80000000).params.uniformBits (2 : Word).toNat ≤ 8 ∧
    uniformBits (ready 0x31DA0F7C 0x80000000).params.uniformBits (256 : Word).toNat ≤ 8 :=
  ⟨inv_ready (by decide) (by decide) (by decide), by decide⟩

/-- The smallest total on the split path, 257, and the largest of all. -/
theorem witness_RdUintSplit : Inv (ready 0x31DA0F7C 0x80000000) ∧ (ready 0x31DA0F7C 0x80000000).rd.phase = .ready ∧
    2 ≤ (257 : Word).toNat ∧ 8 < uniformBits (ready 0x31DA0F7C 0x80000000).params.uniformBits (257 : Word).toNat ∧
    8 < uniformBits (ready 0x31DA0F7C 0x80000000).params.uniformBits (0xFFFFFFFF : Word).toNat :=
  ⟨inv_ready (by decide) (by decide) (by decide), by decide⟩

/-- The two ends of the range of `rng`, in `PAIR` and `READY`; they serve the three statements on the tell commands. -/
theorem witness_RdTellCountsWholeBits : State.reset.rd.phase = .idle ∧
    (Inv (coding .pair 0 0x80000000 0x80) ∧ (coding .pair 0 0x80000000 0x80).rd.phase ≠ .idle ∧
      2 ^ 31 ≤ (coding .pair 0 0x80000000 0x80).rd.rng.toNat ∧ (coding .pair 0 0x80000000 0x80).rd.rng.toNat < 2 ^ (31 + 1)) ∧
    (Inv (ready 0 0x00800001) ∧ (ready 0 0x00800001).rd.phase ≠ .idle ∧
      2 ^ 23 ≤ (ready 0 0x00800001).rd.rng.toNat ∧ (ready 0 0x00800001).rd.rng.toNat < 2 ^ (23 + 1)) :=
  ⟨by decide, ⟨inv_coding (by decide) (by decide) (by decide) (by decide), by decide⟩,
    inv_ready (by decide) (by decide) (by decide), by decide⟩

theorem witness_RdTellfCountsEighths : State.reset.rd.phase = .idle ∧ Inv (ready 0 0x45CA8000) ∧
    (ready 0 0x45CA8000).rd.phase ≠ .idle ∧ 2 ^ 30 ≤ (ready 0 0x45CA8000).rd.rng.toNat ∧
    (ready 0 0x45CA8000).rd.rng.toNat < 2 ^ (30 + 1) :=
  ⟨by decide, inv_ready (by decide) (by decide) (by decide), by decide⟩

theorem witness_RdTellffAgreesWithTellf : Inv (ready 0 0x7FFFFFFF) ∧ (ready 0 0x7FFFFFFF).rd.phase ≠ .idle ∧
    2 ^ 30 ≤ (ready 0 0x7FFFFFFF).rd.rng.toNat ∧ (ready 0 0x7FFFFFFF).rd.rng.toNat < 2 ^ (30 + 1) :=
  ⟨inv_ready (by decide) (by decide) (by decide), by decide⟩

theorem witness_TellAfterInit : viewLegal 65536 0 State.reset.pkt.size ∧ viewLegal 0 65536 State.reset.pkt.size := by decide

theorem witness_PpTocDecodesTheByte : 255 < (256 : Word).toNat ∧ (255 : Word).toNat ≤ 255 := by decide

/-- The clauses of the length code, each at its boundary (V-VARINT). -/
theorem witness_LengthCode : (∀ m : ByteSpace, m = (withPacket [0xFB, 0xFC, 0x00, 0xFF, 0xFF]).pkt →
      ((m.bytes.read 0).toNat ≤ 251 ∧ 252 ≤ (m.bytes.read 1).toNat ∧ 252 ≤ (m.bytes.read 3).toNat ∧ 5 + 0 ≤ m.size ∧
        varint m 3 2 = .ok { value := 1275, used := 2 } ∧ varint m 0 1 = .ok { value := 251, used := 1 })) ∧
    252 ≤ 252 ∧ 1275 ≤ 1275 := by
  refine ⟨?_, by decide⟩
  rintro m rfl
  decide

/-- Single: 1275 bytes and 1276; double equal: 2550 bytes, an odd number, and 2552. -/
theorem witness_ParseOfCodes0And1 : (viewLegal 0 1276 (withPacket [0x00]).pkt.size ∧ (1276 : Word).toNat ≠ 0 ∧
      ((withPacket [0x00]).pkt.bytes.read 0).toNat % 4 = 0 ∧ (1276 : Word).toNat - 1 ≤ 1275 ∧ 1275 < (1277 : Word).toNat - 1) ∧
    (viewLegal 0 2551 (withPacket [0x01]).pkt.size ∧ ((withPacket [0x01]).pkt.bytes.read 0).toNat % 4 = 1 ∧
      ((2551 : Word).toNat - 1) % 2 = 0 ∧ (2551 : Word).toNat - 1 ≤ 2550 ∧ ((6 : Word).toNat - 1) % 2 = 1 ∧
      2550 < (2553 : Word).toNat - 1) := by decide

/-- Code 2: no length byte, a zero one, a code cut off, a first frame that fits exactly and one that does not. -/
theorem witness_ParseOfCode2 : viewLegal 0 1 (withPacket [0x0A]).pkt.size ∧
    ((withPacket [0x0A]).pkt.bytes.read 0).toNat % 4 = 2 ∧ (1 : Word).toNat - 1 = 0 ∧
    (withPacket [0x0A, 0x00, 0xAA]).pkt.bytes.read 1 = 0 ∧ (withPacket [0x0A, 0xFC]).pkt.bytes.read 1 ≠ 0 ∧
    varint (withPacket [0x0A, 0xFC]).pkt 1 1 = .error (.answer .invalidLength) ∧
    varint (withPacket [0x0A, 0x04]).pkt 1 5 = .ok { value := 4, used := 1 } ∧ 4 ≤ 5 - 1 ∧
    varint (withPacket [0x0A, 0x05]).pkt 1 5 = .ok { value := 5, used := 1 } ∧ 5 - 1 < 5 := by decide

/-- The empty view, no header byte, a count of 0, a chain that runs off (`03 41 FF FF`), padding longer than what is left
(`03 41 05 01 02 03 04`). -/
theorem witness_HeaderAndPaddingFailures : viewLegal 0 0 State.reset.pkt.size ∧
    ((withPacket [0x03]).pkt.bytes.read 0).toNat % 4 = 3 ∧ (1 : Word).toNat = 1 ∧
    ((withPacket [0x03, 0x00]).pkt.bytes.read 1).toNat % 64 = 0 ∧
    (((withPacket [0x03, 0x41, 0xFF, 0xFF]).pkt.bytes.read 1).toNat % 64 ≠ 0 ∧
      ((withPacket [0x03, 0x41, 0xFF, 0xFF]).pkt.bytes.read 1).toNat / 64 % 2 = 1 ∧
      (∀ i, i < 2 → (withPacket [0x03, 0x41, 0xFF, 0xFF]).pkt.bytes.read (2 + i) = 255) ∧ 2 = (4 : Word).toNat - 2) ∧
    ((withPacket [0x03, 0x41, 0x05, 1, 2, 3, 4]).pkt.bytes.read (2 + 0) ≠ 255 ∧ 0 < (7 : Word).toNat - 2 ∧
      (7 : Word).toNat - 3 - 0 < 0 * padBytes .add255 +
        ((withPacket [0x03, 0x41, 0x05, 1, 2, 3, 4]).pkt.bytes.read (2 + 0)).toNat) := by
  refine ⟨by decide, by decide, by decide, by decide, ⟨by decide, by decide, ?_, by decide⟩, by decide⟩
  intro i hi; interval_cases i <;> decide

/-- VBR without padding and with it (V-PARSE), the sum at what is left and above it, and a missing code. -/
theorem witness_ParseOfVbr :
    (Code3Body (withPacket [0x07, 0x83, 3, 2]).pkt 255 0 9 2 7 ∧
      CodesAt (withPacket [0x07, 0x83, 3, 2]).pkt 2 7 [3, 2] 2 ∧ [3, 2].length = 0x83 % 64 - 1 ∧ [3, 2].sum ≤ 7 - 2) ∧
    (Code3Body (withPacket [0xFF, 0xC3, 1, 2, 0, 10, 11, 12, 0]).pkt 255 0 9 3 5 ∧
      CodesAt (withPacket [0xFF, 0xC3, 1, 2, 0, 10, 11, 12, 0]).pkt 3 5 [2, 0] 2) ∧
    (CodesAt (withPacket [0x07, 0x83, 3, 3]).pkt 2 7 [3, 3] 2 ∧ 7 - 2 < [3, 3].sum) ∧
    (Code3Body (withPacket [0x03, 0x83, 1]).pkt 255 0 3 2 1 ∧
      ¬ ∃ (ls : List Nat) (used : Nat), ls.length = 0x83 % 64 - 1 ∧ CodesAt (withPacket [0x03, 0x83, 1]).pkt 2 1 ls used) := by
  refine ⟨⟨.inl (by decide), ?_, by decide, by decide⟩, ⟨.inr ⟨by decide, 0, by decide, nofun, by decide, by decide, by decide,
    by decide⟩, ?_⟩, ⟨?_, by decide⟩, .inl (by decide), ?_⟩
  · exact ⟨⟨3, 1⟩, by decide, rfl, by decide, ⟨2, 1⟩, by decide, rfl, by decide, rfl⟩
  · exact ⟨⟨2, 1⟩, by decide, rfl, by decide, ⟨0, 1⟩, by decide, rfl, by decide, rfl⟩
  · exact ⟨⟨3, 1⟩, by decide, rfl, by decide, ⟨3, 1⟩, by decide, rfl, by decide, rfl⟩
  · rintro ⟨ls, used, hlen, hat⟩
    match ls, hlen with
    | [_, _], _ =>
      obtain ⟨c, hc, -, -, d, hd, -⟩ := hat
      have h1 : varint (withPacket [0x03, 0x83, 1]).pkt 2 1 = .ok { value := 1, used := 1 } := by decide
      rw [h1] at hc
      cases hc
      have h2 : varint (withPacket [0x03, 0x83, 1]).pkt (2 + 1) (1 - 1) = .error (.answer .invalidLength) := by decide
      rw [h2] at hd
      cases hd

/-- CBR without padding and with it (V-PARSE), and one byte too many. -/
theorem witness_ParseOfCbr : (Code3Body (withPacket [0x07, 0x03]).pkt 255 0 8 2 6 ∧ 6 % (0x03 % 64) = 0 ∧ 6 / (0x03 % 64) ≤ 1275) ∧
    (Code3Body (withPacket [0x07, 0x43, 2]).pkt 255 0 11 3 6 ∧ 0x43 % 64 ≠ 0 ∧ 0x43 / 128 = 0) ∧
    (7 % (0x03 % 64) ≠ 0 ∧ 1275 < 1276 / (0x01 % 64)) :=
  ⟨⟨.inl (by decide), by decide⟩,
    ⟨.inr ⟨by decide, 0, by decide, nofun, by decide, by decide, by decide, by decide⟩, by decide⟩, by decide⟩

/-- A VBR packet with padding, parsed `OK`; it serves the two statements on completed parses. -/
theorem witness_PpParseCommits : Inv (held .single 0 1 10 0 0) ∧
    (∃ t, exec (.ppParse 0 8) (held .single 0 1 10 0 0) = .next t ∧ t.lastResponse = okay 0x0040 1 7 0) :=
  ⟨inv_held { payInside := by decide, equalHalves := nofun, explicitFits := nofun, wholeFrames := nofun, codesFit := nofun,
              noCodes := fun _ => ⟨rfl, rfl⟩ }, next_of_answer (by decide)⟩

theorem witness_AParsedPacketStaysInItsView : Inv (ready 0x31DA0F7C 0x80000000) ∧
    ∃ t, exec (.ppParse 0 8) (ready 0x31DA0F7C 0x80000000) = .next t ∧ t.lastResponse = okay 0x0162 1 7 0 :=
  ⟨inv_ready (by decide) (by decide) (by decide), next_of_answer (by decide)⟩

/-- The same three bytes at two addresses of two memories, which parse as code 2; and a VBR packet (the two clauses on
`lp_base`). -/
theorem witness_PpParseReadsOnlyItsView :
    (∃ t, exec (.ppParse 0 3) (withPacket [0x0A, 0x01, 0xAA]) = .next t ∧ t.lastResponse = okay 0x1460 2 1 1) ∧
    (∃ t, exec (.ppParse 2 5) (withPacket [9, 9, 0x03, 0x82, 0x01, 0xAA, 0xBB]) = .next t ∧
      t.lastResponse = okay 0x2640 5 2 1) ∧
    viewLegal 0 3 (withPacket [0x0A, 0x01, 0xAA]).pkt.size ∧
    viewLegal 2 3 (withPacket [9, 9, 0x0A, 0x01, 0xAA, 9]).pkt.size ∧
    (∀ i, i < 3 → (withPacket [9, 9, 0x0A, 0x01, 0xAA, 9]).pkt.bytes.read (2 + i) =
      (withPacket [0x0A, 0x01, 0xAA]).pkt.bytes.read (0 + i)) ∧
    (withPacket [0x0A, 0x01, 0xAA]).pkt.Legal ∧ (withPacket [9, 9, 0x0A, 0x01, 0xAA, 9]).pkt.Legal := by
  refine ⟨next_of_answer (by decide), next_of_answer (by decide), by decide, by decide, ?_,
    ⟨by decide, by decide, by decide, by decide⟩, by decide, by decide, by decide, by decide⟩
  intro i hi; interval_cases i <;> decide

/-- One held Packet per scheme (V-NEXT), an empty one, and none. -/
theorem witness_PpNextHandsOutTheNextFrame : State.reset.pp.phase ≠ .parsed ∧ (held .cbr 2 6 0 0 0).pp.payLen.toNat = 0 ∧
    Inv (held .single 0 1 10 0 0) ∧ Inv (held .doubleEqual 0 1 6 0 0) ∧ Inv (held .doubleExplicit 4 2 4 0 0) ∧
    Inv (held .cbr 2 2 6 0 0) ∧ Inv (held .vbr 0 11 3 8 0) ∧ Inv (held .vbr 0 8 6 6 2) := by
  refine ⟨by decide, by decide, ?_, ?_, ?_, ?_, ?_, ?_⟩
  · exact inv_held ⟨by decide, nofun, nofun, nofun, nofun, fun _ => ⟨rfl, rfl⟩⟩
  · exact inv_held ⟨by decide, by decide, nofun, nofun, nofun, fun _ => ⟨rfl, rfl⟩⟩
  · exact inv_held ⟨by decide, nofun, by decide, nofun, nofun, fun _ => ⟨rfl, rfl⟩⟩
  · exact inv_held ⟨by decide, nofun, nofun, by decide, nofun, fun _ => ⟨rfl, rfl⟩⟩
  · exact inv_held ⟨by decide, nofun, nofun, nofun, fun _ => ⟨by decide, [], by decide, by decide⟩, fun h => absurd rfl h⟩
  · exact inv_held ⟨by decide, nofun, nofun, nofun, fun _ => ⟨by decide, [1, 2], by decide, by decide⟩, fun h => absurd rfl h⟩

theorem witness_FramesTileThePayload : Inv (held .vbr 0 8 6 6 2) ∧ (held .vbr 0 8 6 6 2).pp.phase = .parsed :=
  ⟨inv_held ⟨by decide, nofun, nofun, nofun, fun _ => ⟨by decide, [1, 2], by decide, by decide⟩, fun h => absurd rfl h⟩, rfl⟩

theorem witness_FrameOfTheQueries : (∃ t, exec .rdTell (ready 0 0x80000000) = .next t ∧ t.lastResponse = okay 2 0 0 0) ∧
    (∃ t, exec .rdTellf (ready 0 0x80000000) = .next t ∧ t.lastResponse = okay 16 0 0 0) ∧
    (∃ t, exec .rdTellff (ready 0 0x80000000) = .next t ∧ t.lastResponse = okay 16 0 0 0) ∧
    ∃ t, exec (.ppToc 0xFF) State.reset = .next t ∧ t.lastResponse = okay 0x772 200 0 0 :=
  ⟨next_of_answer (by decide), next_of_answer (by decide), next_of_answer (by decide), next_of_answer (by decide)⟩

theorem witness_FrameOfTheCodedCommands :
    (∃ t, exec (.rdDec 10) (ready 0 0x80000000) = .next t ∧ t.lastResponse = okay 9 0x0CCCCCCC 0 0) ∧
    (∃ t, exec (.rdDecbin 16) (ready 0 0x80000000) = .next t ∧ t.lastResponse = okay 65535 0x8000 0 0) ∧
    (∃ t, exec (.rdUpd 6 7 10) (coding .pair 0x31DA0F7C 0x80000000 0x0CCCCCCC) = .next t ∧ t.lastResponse = okay 0 0 0 0) ∧
    (∃ t, exec (.rdBitp 16) (ready 0x80 0x00800001) = .next t ∧ t.lastResponse = okay 0 0 0 0) ∧
    ∃ t, exec (.rdIcdf 0 8 8) (ready 0x00059998 0x0599999A) = .next t ∧ t.lastResponse = okay 8 0 0 0 :=
  ⟨next_of_answer (by decide), next_of_answer (by decide), next_of_answer (by decide), next_of_answer (by decide),
    next_of_answer (by decide)⟩

theorem witness_FrameOfTheRawAndUniformCommands :
    (∃ t, exec (.rdBits 8) (ready 0 0x80000000) = .next t ∧ t.lastResponse = okay 0xF6 0 0 0) ∧
    ∃ t, exec (.rdUint 200) (program1 afterStep13) = .next t ∧ t.lastResponse = okay 20 0 0 0 :=
  ⟨next_of_answer (by decide), next_of_answer (by decide)⟩

theorem witness_FrameOfTheInitialisersAndNext :
    (∃ t, exec (.rdInit 0 8) (ready 0 0x80000000) = .next t ∧ t.lastResponse = okay 0 0 0 0) ∧
    (∃ t, exec (.ppParse 0 1) (withPacket [0x78]) = .next t ∧ t.lastResponse = okay 0x0071 1 0 0) ∧
    ∃ t, exec .ppNext (held .vbr 0 8 6 6 2) = .next t ∧ t.lastResponse = okay 8 1 0 0 :=
  ⟨next_of_answer (by decide), next_of_answer (by decide), next_of_answer (by decide)⟩

end Sys2Proof.Tests
end

namespace Sys2Proof.Machine

/-- Settles O8. Both memories are legal (log 4, log 5); both phases are `IDLE` (R38), so what `Inv` asks of the registers of
an initialised RD unit and of a held Packet asks nothing here; and no response has been given. -/
theorem resetMeetsTheInvariant : Obligations.ResetMeetsTheInvariant where
  pkt := reset_pkt_legal
  tbl := reset_tbl_legal
  rd := fun notIdle => absurd rfl notIdle
  pp := fun (parsed : PpPhase.idle = .parsed) => nomatch parsed
  responses := fun _ given => absurd given List.not_mem_nil

end Sys2Proof.Machine

namespace Sys2Proof.Machine

/-!
The invariant is kept by every step (O9). Each operation of the model is shown to answer: from registers within
the invariant's bounds it never stops the machine, and the registers it leaves are within them again. A command is its
checks followed by such operations.
-/

/-! ### Commands that answer -/

/-- `x` never stops the machine: it completes with a result of `P`, or it ends the command with a status. -/
def Answers {α : Type} (P : α → Prop) : Except Halt α → Prop
  | .ok a => P a
  | .error (.answer _) => True
  | .error (.fault _) => False

theorem Answers.of_ok {α : Type} {P : α → Prop} {x : Except Halt α} (h : ∃ a, x = .ok a ∧ P a) : Answers P x := by
  obtain ⟨a, rfl, ha⟩ := h
  exact ha

theorem Answers.bind {α β : Type} {P : α → Prop} {Q : β → Prop} {x : Except Halt α} {f : α → Except Halt β}
    (hx : Answers P x) (hf : ∀ a, P a → Answers Q (f a)) : Answers Q (x >>= f) := by
  rcases x with (st | flt) | a
  · trivial
  · exact hx.elim
  · exact hf a hx

/-- A check that is answered when it fails: what follows may use that it held. -/
theorem Answers.check {β : Type} {Q : β → Prop} {p : Prop} [Decidable p] {st : Status} {f : Unit → Except Halt β}
    (hf : p → Answers Q (f ())) : Answers Q (require p (.answer st) >>= f) := by
  by_cases hp : p
  · rw [require_bind hp]; exact hf hp
  · rw [require_bind_not hp]; trivial

/-! ### The invariant under the updates of the state -/

theorem Inv.answer {s : State} {st : Status} {r : Results} (hs : Inv s) (hr : st ≠ .ok → r = Results.zero) :
    Inv (s.answer st r) :=
  { hs with
    responses := by
      intro q hq hne
      rw [State.answer_responses, List.mem_append, List.mem_singleton] at hq
      rcases hq with hq | rfl
      · exact hs.responses q hq hne
      · exact hr hne }

theorem Inv.refuse {s : State} {st : Status} (hs : Inv s) : Inv (s.refuse st) := hs.answer fun _ => rfl

theorem Inv.setCommands {s : State} {ws : List CommandWord} (hs : Inv s) : Inv { s with commands := ws } := { hs with }

theorem Inv.setRd {s : State} {u : RdUnit} {n : Nat} (hs : Inv s) (hu : u.Live s.pkt.size) :
    Inv { s with rd := u, freeCount := n } := { hs with rd := fun _ => hu }

theorem Inv.setPp {s : State} {u : PpUnit} (hs : Inv s) (hu : u.Held s.pkt) : Inv { s with pp := u } :=
  { hs with pp := fun _ => hu }

/-- A command keeps the invariant when its body answers and what it completes with meets it: a refusal writes nothing. -/
theorem conclude_keeps_inv {s : State} {body : Except Halt (Results × State)} (hs : Inv s)
    (hb : Answers (fun rt => Inv rt.2) body) : ∃ t, conclude s body = .next t ∧ Inv t := by
  rcases body with (st | f) | ⟨r, t⟩
  · exact ⟨_, conclude_answer s st, hs.refuse⟩
  · exact hb.elim
  · exact ⟨_, conclude_ok s t r, Inv.answer hb fun hne => absurd rfl hne⟩

/-! ### The registers of a live RD unit -/

theorem Inv.live_of_ready {s : State} (hs : Inv s) (h : s.rd.phase = .ready) : s.rd.Live s.pkt.size :=
  hs.rd (by rw [h]; nofun)

theorem RdUnit.Live.toReady {size : Nat} {u : RdUnit} (h : u.Live size) : { u with phase := .ready }.Live size :=
  { h with pairExt := nofun }

/-- What a normalization leaves is live: it bounds `val`, `rng` and `offs`, and it writes no other bounded register (R84). -/
theorem Normalized.live {m : ByteSpace} {size a b : Nat} {u v : RdUnit} (h : Normalized m u a b v) (hab : a < b)
    (hb : b ≤ codeTop) (hraw : u.RawOk size)
    (hext : u.phase = .pair → 2 ^ 7 ≤ u.ext.toNat ∧ u.ext.toNat ≤ 2 ^ 30) : v.Live size := by
  obtain ⟨hlow, hhigh, hval, hoffs⟩ := h.bounds hab hb
  have hlen : v.len = u.len := by rw [h.frame]
  rw [hlen] at hoffs
  rw [h.frame]
  exact {
    rngLow := hlow
    rngHigh := hhigh
    valBelow := hval
    viewInside := hraw.viewInside
    offsInside := hoffs
    endOffsInside := hraw.endOffsInside
    cacheSize := hraw.cacheSize
    cacheClean := hraw.cacheClean
    pairExt := hext }

/-- A view operand within its bound fits the view register (R17, R44). -/
theorem setWidth25_toNat {x : Word} (h : x.toNat ≤ maxView) : (x.setWidth 25).toNat = x.toNat := by
  rw [BitVec.toNat_setWidth, Nat.mod_eq_of_lt (h.trans_lt (by decide))]

/-- `Normalize()` on a unit with `val < rng <= 2^31` leaves a live unit (R84). -/
theorem normalize_answers {m : ByteSpace} {u : RdUnit} (hview : u.ViewOk m.size) (hraw : u.RawOk m.size)
    (hval : u.val.toNat < u.rng.toNat) (hhigh : u.rng.toNat ≤ codeTop)
    (hext : u.phase = .pair → 2 ^ 7 ≤ u.ext.toNat ∧ u.ext.toNat ≤ 2 ^ 30) :
    Answers (RdUnit.Live m.size) (normalize m u) := by
  obtain ⟨w, hw, hnorm⟩ := normalize_spec (v := u) hview hval hhigh (by simp)
  exact .of_ok ⟨w, hw, hnorm.live hval hhigh hraw hext⟩

/-- `RD.INIT` leaves a live unit (R80). -/
theorem startDecoder_answers {m : ByteSpace} {base len : Word} {ext : BitVec 32} (h : viewLegal base len m.size) :
    Answers (RdUnit.Live m.size) (startDecoder m (emptyDecoder base len ext)) := by
  obtain ⟨⟨hbase, hlen⟩, hin⟩ := h
  have hview : (emptyDecoder base len ext).base.toNat + (emptyDecoder base len ext).len.toNat ≤ m.size := by
    show (base.setWidth 25).toNat + (len.setWidth 25).toNat ≤ m.size
    rw [setWidth25_toNat hbase, setWidth25_toNat hlen]
    exact hin
  have hcursor : ∀ x n, (BitVec.ofNat 25 (min x n)).toNat ≤ n := fun x n => by
    rw [BitVec.toNat_ofNat]
    exact (Nat.mod_le _ _).trans (min_le_right _ _)
  have hval : ∀ b, (BitVec.ofNat 31 (127 - b / 2)).toNat < (128 : BitVec 32).toNat := fun b => by
    rw [BitVec.toNat_ofNat, show (128 : BitVec 32).toNat = 128 from rfl]
    omega
  unfold startDecoder
  rw [fwdByte_eq ⟨hview, Nat.zero_le _⟩, ok_bind]
  exact normalize_answers ⟨hview, hcursor _ _⟩ ⟨hview, Nat.zero_le _, Nat.zero_le _, Nat.one_pos⟩ (hval _)
    (show 128 ≤ codeTop by decide) nofun

/-- A decode with a divisor in its bounds leaves a live unit, a decode pending (R14, R85, R86). -/
theorem cacheAndDecode_answers {size ext total : Nat} {u : RdUnit} (hu : u.Live size)
    (he : 2 ^ 7 ≤ ext ∧ ext ≤ 2 ^ 30) :
    Answers (fun ov => { ov.2 with phase := .pair }.Live size) (cacheAndDecode ext total u) := by
  have h32 : (BitVec.ofNat 32 ext).toNat = ext := by rw [BitVec.toNat_ofNat, Nat.mod_eq_of_lt (by omega)]
  rw [cacheAndDecode_eq (by omega) (by omega)]
  exact { hu with pairExt := fun _ => by rw [h32]; exact he }

theorem decodeFrequency_answers {size total : Nat} {u : RdUnit} (hu : u.Live size) (h2 : 2 ≤ total)
    (hmax : total ≤ maxTotal) :
    Answers (fun ov => { ov.2 with phase := .pair }.Live size) (decodeFrequency total u) :=
  cacheAndDecode_answers hu (divisor_bounds hu.rngLow hu.rngHigh h2 hmax)

/-- An update whose interval holds the offset leaves a live unit (R87, R88). -/
theorem update_answers {m : ByteSpace} {u : RdUnit} {low high total : Nat} (hu : u.Live m.size) (he : 0 < u.ext.toNat)
    (hlh : low < high) (hht : high ≤ total) (hu2 : u.ext.toNat * total ≤ u.rng.toNat)
    (hu3 : low ≤ offsetOf u.val.toNat u.ext.toNat total ∧ offsetOf u.val.toNat u.ext.toNat total < high) :
    Answers (RdUnit.Live m.size) (update m low high total u) := by
  obtain ⟨w, hw, hnorm⟩ := update_spec hu.viewOk hu.valBelow hu.rngHigh he hlh hht hu2 hu3
  obtain ⟨-, hbelow, hle⟩ := interval_bounds hu.valBelow he hlh hht hu2 hu3
  exact .of_ok ⟨w, hw, hnorm.live hbelow (hle.trans hu.rngHigh) hu.rawOk hu.pairExt⟩

/-- The checks of `RD.UPD` are what its body needs (R88). -/
theorem updateChecks_answers {low high total : Word} {u : RdUnit} (he : 0 < u.ext.toNat) :
    Answers (fun _ => (low.toNat < high.toNat ∧ high.toNat ≤ total.toNat) ∧ u.ext.toNat * total.toNat ≤ u.rng.toNat ∧
        low.toNat ≤ offsetOf u.val.toNat u.ext.toNat total.toNat ∧
        offsetOf u.val.toNat u.ext.toNat total.toNat < high.toNat)
      (updateChecks low high total u) := by
  refine .check fun hu1 => .check fun hu2 => ?_
  rw [cachedOffset, if_neg (by omega), ok_bind]
  by_cases hu3 : low.toNat ≤ offsetOf u.val.toNat u.ext.toNat total.toNat ∧
      offsetOf u.val.toNat u.ext.toNat total.toNat < high.toNat
  · exact .of_ok ⟨(), require_of hu3, hu1.1, hu2, hu3⟩
  · rw [requireOperand, require_not hu3]; trivial

/-- Taking a bit leaves a live unit (R100). -/
theorem takeBit_answers {m : ByteSpace} {u : RdUnit} {part : Nat} (hu : u.Live m.size) (hp : part ≤ u.rng.toNat) :
    Answers (RdUnit.Live m.size) (normalize m (takeBit part u)) := by
  obtain ⟨w, hw, hnorm⟩ := takeBit_spec hu.viewOk hu.valBelow hu.rngHigh hp
  have hval := hu.valBelow
  have hhigh := hu.rngHigh
  exact .of_ok ⟨w, hw, hnorm.live (by split <;> omega) (by split <;> omega) hu.rawOk hu.pairExt⟩

/-- A symbol found by the scan, taken, leaves a live unit (R106). -/
theorem icdf_answers {m tbl : ByteSpace} {u : RdUnit} {tblBase tblLen ftb : Nat} (hu : u.Live m.size)
    (htbl : tblBase + tblLen ≤ tbl.size) :
    Answers (fun y => Answers (RdUnit.Live m.size) (normalize m (takeSymbol y u)))
      (icdfScan tbl tblBase ftb (u.rng.toNat >>> ftb) u.val.toNat tblLen 0 u.rng.toNat) := by
  have hr : u.rng.toNat >>> ftb * 2 ^ ftb ≤ u.rng.toNat := by
    rw [Nat.shiftRight_eq_div_pow]; exact Nat.div_mul_le_self _ _
  rcases icdfScan_cases hr (k := 0) (by omega) hu.valBelow (le_refl _) with h | ⟨y, h, -, -, hlow, hup, htop⟩
  · rw [h]; trivial
  · obtain ⟨w, hw, hnorm⟩ := takeSymbol_spec hu.viewOk hu.rngHigh hlow hup htop
    have hhigh := hu.rngHigh
    refine .of_ok ⟨y, h, ?_⟩
    exact .of_ok ⟨w, hw, hnorm.live (by omega) (by omega) hu.rawOk hu.pairExt⟩

/-- Taking raw bits leaves a live unit (R108). -/
theorem rawBits_answers {m : ByteSpace} {n : Nat} {u : RdUnit} (hu : u.Live m.size) (hn : n ≤ maxRaw) :
    Answers (fun xv => xv.2.Live m.size) (rawBits m n u) := by
  obtain ⟨v, hv, ⟨-, hframe⟩, hraw⟩ := rawBits_spec hu.rawOk hn
  have hlen : v.len = u.len := by rw [hframe]
  have hend := hraw.endOffsInside
  rw [hlen] at hend
  have hlive : v.Live m.size := by
    rw [hframe]
    exact { hu with endOffsInside := hend, cacheSize := hraw.cacheSize, cacheClean := hraw.cacheClean }
  exact .of_ok ⟨_, hv, hlive⟩

/-- The symbol of width 1 that `RD.UINT` decodes and takes: the update's checks hold by themselves (R113). -/
theorem unitSymbol_answers {m : ByteSpace} {u : RdUnit} {total : Nat} (hu : u.Live m.size) (hready : u.phase = .ready)
    (h1 : 1 ≤ total) (h256 : total ≤ 256) :
    Answers (fun ov => Answers (RdUnit.Live m.size) (update m ov.1 (ov.1 + 1) total ov.2)) (decodeFrequency total u) := by
  have hcb : codeBot = 8388608 := rfl
  have hlow := hu.rngLow
  have hpos : 0 < u.rng.toNat / total := Nat.div_pos (by omega) h1
  have h32 : u.rng.toNat / total < 2 ^ 32 := (Nat.div_le_self _ _).trans_lt u.rng.isLt
  have hext : (BitVec.ofNat 32 (u.rng.toNat / total)).toNat = u.rng.toNat / total := by
    rw [BitVec.toNat_ofNat, Nat.mod_eq_of_lt h32]
  have hv : { u with ext := BitVec.ofNat 32 (u.rng.toNat / total) }.Live m.size :=
    { hu with pairExt := fun hpair => absurd (hready.symm.trans hpair) (by decide) }
  rw [decodeFrequency, cacheAndDecode_eq hpos h32]
  refine update_answers hv ?_ (Nat.lt_succ_self _) (offsetOf_lt h1) ?_ ?_
  · rw [hext]; exact hpos
  · rw [hext]; exact Nat.div_mul_le_self _ _
  · simp only [hext]; omega

/-- `RD.UINT` leaves a live unit, in both paths and for both parameter values (R112, R113). -/
theorem decodeUniform_answers {m : ByteSpace} {u : RdUnit} {p : UniformBits} {total : Nat} (hu : u.Live m.size)
    (hready : u.phase = .ready) (h2 : 2 ≤ total) (h32 : total < 2 ^ 32) :
    Answers (fun xv => xv.2.Live m.size) (decodeUniform m (uniformBits p total) total u) := by
  obtain ⟨hcover, h33, -⟩ := uniformBits_bounds (p := p) h2 h32
  have hsplit : uintSplit = 8 := rfl
  unfold decodeUniform
  generalize uniformBits p total = bits at *
  split
  · have htotal : total ≤ 256 := by
      have : 2 ^ bits ≤ 2 ^ 8 := Nat.pow_le_pow_right (by norm_num) (by omega)
      omega
    exact (unitSymbol_answers hu hready (by omega) htotal).bind fun ov hov => hov.bind fun w hw => hw
  · have htop : (total - 1) >>> (bits - 8) < 256 := by
      rw [Nat.shiftRight_eq_div_pow, Nat.div_lt_iff_lt_mul (by positivity),
        show 256 * 2 ^ (bits - 8) = 2 ^ bits by rw [show 256 = 2 ^ 8 by norm_num, ← pow_add]; congr 1; omega]
      exact hcover
    exact (unitSymbol_answers hu hready (Nat.succ_pos _) htop).bind fun ov hov => hov.bind fun w hw =>
      (rawBits_answers hw (show bits - 8 ≤ 25 by omega)).bind fun lx hx => hx

/-! ### Every command keeps the invariant -/

section
variable {s : State} (hs : Inv s)
include hs

theorem execRdInit_keeps_inv (base len : Word) : ∃ t, execRdInit base len s = .next t ∧ Inv t :=
  conclude_keeps_inv hs <| .check fun hview => (startDecoder_answers hview).bind fun _ hu => hs.setRd hu

theorem execRdDec_keeps_inv (total : Word) : ∃ t, execRdDec total s = .next t ∧ Inv t :=
  conclude_keeps_inv hs <| .check fun hready => .check fun htotal =>
    (decodeFrequency_answers (hs.live_of_ready hready) htotal.1 htotal.2).bind fun _ hu => hs.setRd hu

theorem execRdDecbin_keeps_inv (bits : Word) : ∃ t, execRdDecbin bits s = .next t ∧ Inv t :=
  conclude_keeps_inv hs <| .check fun hready => .check fun hbits => by
    rw [decodeBin_eq]
    exact (decodeFrequency_answers (hs.live_of_ready hready) (Nat.pow_le_pow_right Nat.two_pos hbits.1)
      (Nat.pow_le_pow_right Nat.two_pos hbits.2)).bind fun _ hu => hs.setRd hu

theorem execRdUpd_keeps_inv (low high total : Word) : ∃ t, execRdUpd low high total s = .next t ∧ Inv t :=
  conclude_keeps_inv hs <| .check fun hpair => by
    have hu : s.rd.Live s.pkt.size := hs.rd (by rw [hpair]; nofun)
    have he : 0 < s.rd.ext.toNat := (by decide : 0 < 2 ^ 7).trans_le (hu.pairExt hpair).1
    exact (updateChecks_answers he).bind fun _ ⟨⟨hlh, hht⟩, hu2, hu3⟩ =>
      (update_answers hu he hlh hht hu2 hu3).bind fun _ hw => hs.setRd hw.toReady

theorem execRdBitp_keeps_inv (logp : Word) : ∃ t, execRdBitp logp s = .next t ∧ Inv t :=
  conclude_keeps_inv hs <| .check fun hready => .check fun _ =>
    (takeBit_answers (hs.live_of_ready hready) (Nat.shiftRight_le _ _)).bind fun _ hu => hs.setRd hu

theorem execRdIcdf_keeps_inv (tblBase tblLen ftb : Word) : ∃ t, execRdIcdf tblBase tblLen ftb s = .next t ∧ Inv t :=
  conclude_keeps_inv hs <| .check fun hready => .check fun htbl => .check fun _ =>
    (icdf_answers (hs.live_of_ready hready) htbl.2).bind fun _ hy => hy.bind fun _ hu => hs.setRd hu

theorem execRdBits_keeps_inv (n : Word) : ∃ t, execRdBits n s = .next t ∧ Inv t :=
  conclude_keeps_inv hs <| .check fun hready => .check fun hn =>
    (rawBits_answers (hs.live_of_ready hready) hn).bind fun _ hu => hs.setRd hu

theorem execRdUint_keeps_inv (total : Word) : ∃ t, execRdUint total s = .next t ∧ Inv t :=
  conclude_keeps_inv hs <| .check fun hready => .check fun h2 =>
    (decodeUniform_answers (hs.live_of_ready hready) hready h2 total.isLt).bind fun _ hu => hs.setRd hu

/-- A tell command writes nothing, and under the invariant `rng` has a logarithm (R120). -/
theorem tell_keeps_inv (w : Word) :
    ∃ t, conclude s (requireTellable s >>= fun _ => .ok ({ r0 := w }, s)) = .next t ∧ Inv t := by
  refine conclude_keeps_inv hs (Answers.bind (P := fun _ => True) (.check fun hinit => ?_) fun _ _ => hs)
  have hu := hs.rd hinit
  exact .of_ok ⟨(), require_of ⟨hu.rngLow, hu.rngHigh⟩, trivial⟩

theorem execPpParse_keeps_inv (base len : Word) : ∃ t, execPpParse base len s = .next t ∧ Inv t :=
  conclude_keeps_inv hs <| .check fun hview => by
    rcases parsePacket_cases (cont := padBytes s.params.padCont) hview.2 with ⟨e, h, he⟩ | ⟨y, h, -, hy⟩
    · rw [h]
      rcases he with rfl | rfl | rfl <;> trivial
    · rw [h]
      exact hs.setPp (hy.held hview.2 hs.pkt.sizeMax)

theorem execPpNext_keeps_inv : ∃ t, execPpNext s = .next t ∧ Inv t :=
  conclude_keeps_inv hs <| .check fun hparsed => .check fun hne => by
    obtain ⟨size, w, v, hlen, htake, htaken⟩ := nextLength_takeFrame (hs.pp hparsed) hs.pkt.sizeMax hne
    rw [hlen, ok_bind]
    simp only
    rw [htake]
    exact hs.setPp htaken.held

theorem execPpToc_keeps_inv (toc : Word) : ∃ t, execPpToc toc s = .next t ∧ Inv t :=
  conclude_keeps_inv hs <| .check fun _ => hs

/-- Under the invariant every command is answered, and the invariant holds after it. -/
theorem exec_keeps_inv (i : Instr) : ∃ t, exec i s = .next t ∧ Inv t := by
  cases i with
  | rdInit base len => exact execRdInit_keeps_inv hs base len
  | rdDec total => exact execRdDec_keeps_inv hs total
  | rdDecbin bits => exact execRdDecbin_keeps_inv hs bits
  | rdUpd low high total => exact execRdUpd_keeps_inv hs low high total
  | rdBitp logp => exact execRdBitp_keeps_inv hs logp
  | rdIcdf tblBase tblLen ftb => exact execRdIcdf_keeps_inv hs tblBase tblLen ftb
  | rdBits n => exact execRdBits_keeps_inv hs n
  | rdUint total => exact execRdUint_keeps_inv hs total
  | rdTell => exact tell_keeps_inv hs _
  | rdTellf => exact tell_keeps_inv hs _
  | rdTellff => exact tell_keeps_inv hs _
  | ppParse base len => exact execPpParse_keeps_inv hs base len
  | ppNext => exact execPpNext_keeps_inv hs
  | ppToc toc => exact execPpToc_keeps_inv hs toc

/-- Under the invariant every step answers a next state, which meets it. -/
theorem step_keeps_inv : ∃ t, step s = .next t ∧ Inv t := by
  unfold step takeCommand
  cases s.commands with
  | nil => exact ⟨s, rfl, hs⟩
  | cons w rest =>
    simp only
    cases decode w with
    | error e => exact ⟨_, rfl, hs.setCommands.refuse⟩
    | ok i => exact exec_keeps_inv hs.setCommands i

end

/-- Settles O9: under the invariant every command is answered by a state that meets it (`exec_keeps_inv`), so the state a step
answers meets it. -/
theorem everyStepKeepsTheInvariant : Obligations.EveryStepKeepsTheInvariant := by
  intro s t hs ht
  obtain ⟨t', ht', hinv⟩ := step_keeps_inv hs
  cases ht.symm.trans ht'
  exact hinv

end Sys2Proof.Machine

namespace Sys2Proof.Machine

/-!
The phase machines (O16, O17) and the independence of the units (O12, O7).
-/

/-! ### The phase check of every command -/

/-- The phases a command is legal in, written out from R24 and R26. -/
def legalPhase : Instr → State → Prop
  | .rdInit _ _, _ | .ppParse _ _, _ | .ppToc _, _ => True
  | .rdDec _, s | .rdDecbin _, s | .rdBitp _, s | .rdIcdf _ _ _, s | .rdBits _, s | .rdUint _, s => s.rd.phase = .ready
  | .rdUpd _ _ _, s => s.rd.phase = .pair
  | .rdTell, s | .rdTellf, s | .rdTellff, s => s.rd.phase ≠ .idle
  | .ppNext, s => s.pp.phase = .parsed

theorem phaseAllows_iff_legalPhase {i : Instr} {s : State} : phaseAllows i s ↔ legalPhase i s := by
  cases i with
  | rdInit _ _ | ppParse _ _ | ppToc _ => simp [phaseAllows, legalPhase, rdPhaseAfter, ppPhaseAfter]
  | ppNext => cases hp : s.pp.phase <;> simp [phaseAllows, legalPhase, rdPhaseAfter, ppPhaseAfter, hp]
  | _ => cases hp : s.rd.phase <;> simp [phaseAllows, legalPhase, rdPhaseAfter, ppPhaseAfter, hp]

/-- A command whose first check fails is refused with that check's status. -/
theorem conclude_check_fails {s : State} {p : Prop} [Decidable p] {st : Status}
    {f : Unit → Except Halt (Results × State)} (hp : ¬p) :
    conclude s (require p (.answer st) >>= f) = .next (s.refuse st) := by
  rw [require_bind_not hp]; rfl

/-- A tell command in phase `IDLE` is refused. -/
theorem conclude_tell_idle {s : State} {f : Unit → Except Halt (Results × State)} (h : ¬s.rd.phase ≠ .idle) :
    conclude s (requireTellable s >>= f) = .next (s.refuse .protocol) := by
  rw [requireTellable, requireInitialised, require_bind_not h]; rfl

/-- Outside its phases a command is refused before anything else is checked (R24, R26, R69). -/
theorem exec_out_of_phase {i : Instr} {s : State} (h : ¬phaseAllows i s) : exec i s = .next (s.refuse .protocol) := by
  rw [phaseAllows_iff_legalPhase] at h
  cases i with
  | rdInit _ _ | ppParse _ _ | ppToc _ => exact absurd trivial h
  | rdDec _ | rdDecbin _ | rdBitp _ | rdIcdf _ _ _ | rdBits _ | rdUint _ => exact conclude_check_fails h
  | rdUpd _ _ _ => exact conclude_check_fails h
  | rdTell | rdTellf | rdTellff => exact conclude_tell_idle h
  | ppNext => exact conclude_check_fails h

/-- A check ends the command with its status only when it fails. -/
theorem haltsWithin_check {P : Status → Prop} {β : Type} {p : Prop} [Decidable p] {st : Status}
    {f : Unit → Except Halt β} (hst : ¬p → P st) (hf : HaltsWithin P (f ())) :
    HaltsWithin P (require p (.answer st) >>= f) := by
  by_cases hp : p
  · rw [require_bind hp]; exact hf
  · exact haltsWithin_bind (haltsWithin_require (hst hp)) fun _ => hf

theorem haltsWithin_nextLength {P : Status → Prop} {m : ByteSpace} {u : PpUnit} : HaltsWithin P (nextLength m u) := by
  have hcode : HaltsWithin P (nextLengthCode m u) := by
    unfold nextLengthCode
    split <;> rintro st ⟨⟩
  unfold nextLength
  split
  case h_5 =>
    split
    · exact haltsWithin_ok
    · exact haltsWithin_bind hcode fun _ => haltsWithin_ok
  all_goals exact haltsWithin_ok

theorem haltsWithin_takeFrame {P : Status → Prop} {size : Nat} {u : PpUnit} : HaltsWithin P (takeFrame size u) :=
  haltsWithin_bind haltsWithin_fault fun _ => haltsWithin_ok

theorem lastResponse_answer (s : State) (st : Status) (x : Results) :
    (s.answer st x).lastResponse = some { status := st, results := x } := by
  simp [State.lastResponse]

theorem lastResponse_refuse (s : State) (st : Status) :
    (s.refuse st).lastResponse = some { status := st, results := Results.zero } := lastResponse_answer s st Results.zero

theorem mayHalt_ne_ok {i : Instr} {st : Status} (h : mayHalt i st) : st ≠ .ok := by
  rintro rfl
  cases i <;> simp [mayHalt] at h

/-- A command answered `OK` has written what it may. -/
theorem exec_answered_ok {i : Instr} {s t : State} {r : Response} (ht : exec i s = .next t)
    (hr : t.lastResponse = some r) (hok : r.status = .ok) :
    ∃ u, t = u.answer .ok r.results ∧ mayWrite i s r.results u := by
  rcases exec_cases i s t ht with ⟨x, u, rfl, hw⟩ | ⟨st, hst, rfl⟩
  · cases (lastResponse_answer u .ok x).symm.trans hr
    exact ⟨u, rfl, hw⟩
  · cases (lastResponse_refuse s st).symm.trans hr
    exact absurd hok (mayHalt_ne_ok hst)

/-- A command not answered `OK` has written nothing. -/
theorem exec_not_answered_ok {i : Instr} {s t : State} {r : Response} (ht : exec i s = .next t)
    (hr : t.lastResponse = some r) (hok : r.status ≠ .ok) : mayHalt i r.status ∧ t = s.refuse r.status := by
  rcases exec_cases i s t ht with ⟨x, u, rfl, -⟩ | ⟨st, hst, rfl⟩
  · cases (lastResponse_answer u .ok x).symm.trans hr
    exact absurd rfl hok
  · cases (lastResponse_refuse s st).symm.trans hr
    exact ⟨hst, rfl⟩

/-- A command whose body never ends with `PROTOCOL` is not refused so. -/
theorem conclude_ne_protocol {s : State} {body : Except Halt (Results × State)}
    (hb : HaltsWithin (· ≠ .protocol) body) : conclude s body ≠ .next (s.refuse .protocol) := by
  intro h
  rcases conclude_eq_next.1 h with ⟨x, u, -, ht⟩ | ⟨st, hst, ht⟩
  · have hlast := congrArg State.lastResponse ht
    rw [lastResponse_refuse, lastResponse_answer] at hlast
    cases hlast
  · have hlast := congrArg State.lastResponse ht
    rw [lastResponse_refuse, lastResponse_refuse] at hlast
    cases hlast
    exact hb _ hst rfl

/-- In its phases a command is never answered `PROTOCOL` (R24, R26). -/
theorem exec_in_phase {i : Instr} {s t : State} {r : Response} (h : phaseAllows i s) (ht : exec i s = .next t)
    (hr : t.lastResponse = some r) : r.status ≠ .protocol := by
  rw [phaseAllows_iff_legalPhase] at h
  intro hprot
  obtain ⟨hmay, rfl⟩ := exec_not_answered_ok ht hr (by rw [hprot]; nofun)
  rw [hprot] at hmay ht
  refine absurd ht ?_
  have hop : Status.operand ≠ .protocol := nofun
  cases i with
  | rdInit _ _ | ppParse _ _ | ppToc _ => simp [mayHalt] at hmay
  | rdDec _ | rdDecbin _ =>
    exact conclude_ne_protocol <| haltsWithin_check (absurd h) <| haltsWithin_check (fun _ => hop) <|
      haltsWithin_bind haltsWithin_cacheAndDecode fun _ => haltsWithin_ok
  | rdUpd _ _ _ =>
    refine conclude_ne_protocol <| haltsWithin_check (absurd h) <| haltsWithin_bind ?_ fun _ =>
      haltsWithin_bind haltsWithin_update fun _ => haltsWithin_ok
    exact haltsWithin_check (fun _ => hop) <| haltsWithin_check (fun _ => hop) <|
      haltsWithin_bind haltsWithin_cachedOffset fun _ => haltsWithin_require hop
  | rdBitp _ =>
    exact conclude_ne_protocol <| haltsWithin_check (absurd h) <| haltsWithin_check (fun _ => hop) <|
      haltsWithin_bind haltsWithin_normalize fun _ => haltsWithin_ok
  | rdIcdf _ _ _ =>
    exact conclude_ne_protocol <| haltsWithin_check (absurd h) <| haltsWithin_check (fun _ => hop) <|
      haltsWithin_check (fun _ => hop) <| haltsWithin_bind (haltsWithin_icdfScan hop _ _ _) fun _ =>
        haltsWithin_bind haltsWithin_normalize fun _ => haltsWithin_ok
  | rdBits _ =>
    exact conclude_ne_protocol <| haltsWithin_check (absurd h) <| haltsWithin_check (fun _ => hop) <|
      haltsWithin_bind haltsWithin_rawBits fun _ => haltsWithin_ok
  | rdUint _ =>
    exact conclude_ne_protocol <| haltsWithin_check (absurd h) <| haltsWithin_check (fun _ => hop) <|
      haltsWithin_bind haltsWithin_decodeUniform fun _ => haltsWithin_ok
  | rdTell | rdTellf | rdTellff =>
    exact conclude_ne_protocol <| haltsWithin_bind (haltsWithin_check (absurd h) haltsWithin_fault) fun _ => haltsWithin_ok
  | ppNext =>
    exact conclude_ne_protocol <| haltsWithin_check (absurd h) <| haltsWithin_check (fun _ => nofun) <|
      haltsWithin_bind haltsWithin_nextLength fun _ => haltsWithin_bind haltsWithin_takeFrame fun _ => haltsWithin_ok

/-! ### The phase machines -/

/-- A command that completes `OK` leaves both phases as the tables of R24 and R26 say. -/
theorem mayWrite.phases {i : Instr} {s u : State} {r : Results} (h : mayWrite i s r u) :
    rdPhaseAfter i s.rd.phase = some u.rd.phase ∧ ppPhaseAfter i s.pp.phase = some u.pp.phase := by
  cases i with
  | rdInit _ _ =>
    obtain ⟨-, hu, hready⟩ := h
    rw [hready, hu]; exact ⟨rfl, rfl⟩
  | rdDec _ | rdDecbin _ =>
    obtain ⟨-, -, hu, hp⟩ := h
    rw [hu, hp]; exact ⟨rfl, rfl⟩
  | rdUpd _ _ _ =>
    obtain ⟨-, hu, hp⟩ := h
    rw [hu, hp]; exact ⟨rfl, rfl⟩
  | rdBitp _ =>
    obtain ⟨-, -, -, -, hu, hp⟩ := h
    rw [hu, hp]; exact ⟨rfl, rfl⟩
  | rdIcdf _ _ _ | rdBits _ =>
    obtain ⟨-, -, -, hu, hp⟩ := h
    rw [hu, hp]; exact ⟨rfl, rfl⟩
  | rdUint _ =>
    obtain ⟨-, -, -, hu, -, -, hsame, hp⟩ := h
    rw [hsame, hp, hu]; exact ⟨rfl, rfl⟩
  | rdTell | rdTellf | rdTellff =>
    obtain ⟨-, -, -, rfl, hp⟩ := h
    cases hq : u.rd.phase with
    | idle => exact absurd hq hp
    | ready | pair => exact ⟨rfl, rfl⟩
  | ppParse _ _ =>
    obtain ⟨hu, hparsed⟩ := h
    rw [hparsed, hu]; exact ⟨rfl, rfl⟩
  | ppNext =>
    obtain ⟨-, -, hu, hp⟩ := h
    rw [hu, hp]; exact ⟨rfl, rfl⟩
  | ppToc _ =>
    obtain ⟨-, -, rfl⟩ := h
    exact ⟨rfl, rfl⟩

theorem ppPhaseAfter_of_rd {i : Instr} (h : isRdCommand i = true) (q : PpPhase) : ppPhaseAfter i q = some q := by
  cases i with
  | ppParse _ _ | ppNext | ppToc _ => cases h
  | _ => rfl

theorem rdPhaseAfter_of_pp {i : Instr} (h : isRdCommand i = false) (p : RdPhase) : rdPhaseAfter i p = some p := by
  cases i with
  | ppParse _ _ | ppNext | ppToc _ => rfl
  | _ => cases h

/-- After a command answered `OK` both phases are those of the tables of R24 and R26. -/
theorem exec_ok_phases {i : Instr} {s t : State} {r : Response} (ht : exec i s = .next t)
    (hr : t.lastResponse = some r) (hok : r.status = .ok) :
    rdPhaseAfter i s.rd.phase = some t.rd.phase ∧ ppPhaseAfter i s.pp.phase = some t.pp.phase := by
  obtain ⟨u, rfl, hw⟩ := exec_answered_ok ht hr hok
  exact hw.phases

/-- Settles O16: outside the table the phase check refuses; inside it a completed command has written the table's phase
and any other has written nothing. -/
theorem rdPhaseMachine : Obligations.RdPhaseMachine := by
  intro i s hrd
  have hpp := ppPhaseAfter_of_rd hrd s.pp.phase
  split
  next hnone =>
    exact exec_out_of_phase fun hallow => by simp [phaseAllows, hnone] at hallow
  next p hsome =>
    intro t r ht hr
    refine ⟨exec_in_phase (by simp [phaseAllows, hsome, hpp]) ht hr, ?_⟩
    split
    next hok =>
      exact Option.some.inj ((exec_ok_phases ht hr hok).1.symm.trans hsome)
    next hok => rw [(exec_not_answered_ok ht hr hok).2, State.refuse_rd]

/-- Settles O17, as O16 with the table of R26. -/
theorem ppPhaseMachine : Obligations.PpPhaseMachine := by
  intro i s hpp
  have hrd := rdPhaseAfter_of_pp hpp s.rd.phase
  split
  next hnone =>
    exact exec_out_of_phase fun hallow => by simp [phaseAllows, hnone] at hallow
  next p hsome =>
    intro t r ht hr
    refine ⟨exec_in_phase (by simp [phaseAllows, hsome, hrd]) ht hr, fun hok => ?_, fun hok => ?_⟩
    · exact Option.some.inj ((exec_ok_phases ht hr hok).2.symm.trans hsome)
    · rw [(exec_not_answered_ok ht hr hok).2, State.refuse_pp]

/-! ### The units are independent -/

/-- A body run on a changed state, when it computes the same and changes what it answers in the same way. -/
theorem conclude_map {f : State → State} {s s' : State} {body body' : Except Halt (Results × State)}
    (hanswer : ∀ t st r, f (t.answer st r) = (f t).answer st r) (hs : s' = f s)
    (hbody : body' = (fun rt => (rt.1, f rt.2)) <$> body) : conclude s' body' = mapNext f (conclude s body) := by
  subst hs hbody
  rcases body with (st | flt) | ⟨r, t⟩
  · exact congrArg Host.Outcome.next (hanswer s st Results.zero).symm
  · rfl
  · exact congrArg Host.Outcome.next (hanswer t .ok r).symm

/-- An RD command neither reads nor writes the PP registers (R10). -/
theorem exec_with_pp {i : Instr} (h : isRdCommand i = true) (s : State) (q : PpUnit) :
    exec i { s with pp := q } = mapNext (fun t => { t with pp := q }) (exec i s) := by
  cases i with
  | ppParse _ _ | ppNext | ppToc _ => cases h
  | _ =>
    refine conclude_map (fun _ _ _ => rfl) rfl ?_
    simp only [map_bind]
    rfl

/-- A PP command neither reads nor writes the RD registers, nor the counter of free values (R10, log 8). -/
theorem exec_with_rd {i : Instr} (h : isRdCommand i = false) (s : State) (u : RdUnit) (n : Nat) :
    exec i { s with rd := u, freeCount := n } = mapNext (fun t => { t with rd := u, freeCount := n }) (exec i s) := by
  cases i with
  | ppParse _ _ | ppNext | ppToc _ =>
    refine conclude_map (fun _ _ _ => rfl) rfl ?_
    simp only [map_bind]
    rfl
  | _ => cases h

/-- Settles O12: a command's body carries the other unit's registers from the state it finds to the state it answers. -/
theorem theUnitsAreIndependent : Obligations.TheUnitsAreIndependent := fun _ s =>
  ⟨fun hrd q => exec_with_pp hrd s q, fun hpp u n => exec_with_rd hpp s u n⟩

/-! ### The registers of an idle unit -/

theorem mapNext_congr {f g : State → State} {x : Host.Outcome State Fault Refusal}
    (h : ∀ t, x = .next t → f t = g t) : mapNext f x = mapNext g x := by
  cases x with
  | next t => exact congrArg Host.Outcome.next (h t rfl)
  | fault _ | refused _ => rfl

/-- A PP command leaves the RD registers and the counter (R10). -/
theorem exec_rd_of_pp {i : Instr} {s t : State} (h : isRdCommand i = false) (ht : exec i s = .next t) :
    t.rd = s.rd ∧ t.freeCount = s.freeCount := by
  have heq := exec_with_rd h s s.rd s.freeCount
  rw [ht] at heq
  injection heq with hsame
  rw [hsame]
  exact ⟨rfl, rfl⟩

/-- An RD command leaves the PP registers (R10). -/
theorem exec_pp_of_rd {i : Instr} {s t : State} (h : isRdCommand i = true) (ht : exec i s = .next t) : t.pp = s.pp := by
  have heq := exec_with_pp h s s.pp
  rw [ht] at heq
  injection heq with hsame
  rw [hsame]

/-- `t` with the RD registers `u` where its RD unit is idle. -/
def State.withIdleRd (u : RdUnit) (t : State) : State := { t with rd := if t.rd.phase = .idle then u else t.rd }

/-- `t` with the PP registers `v` where its PP unit is idle. -/
def State.withIdlePp (v : PpUnit) (t : State) : State := { t with pp := if t.pp.phase = .idle then v else t.pp }

theorem State.withIdleRd_of_idle {u : RdUnit} {t : State} (h : t.rd.phase = .idle) :
    t.withIdleRd u = { t with rd := u } := by
  rw [State.withIdleRd, if_pos h]

theorem State.withIdlePp_of_idle {v : PpUnit} {t : State} (h : t.pp.phase = .idle) :
    t.withIdlePp v = { t with pp := v } := by
  rw [State.withIdlePp, if_pos h]

theorem State.withIdleRd_of_not_idle {u : RdUnit} {t : State} (h : t.rd.phase ≠ .idle) : t.withIdleRd u = t := by
  rw [State.withIdleRd, if_neg h]

theorem State.withIdlePp_of_not_idle {v : PpUnit} {t : State} (h : t.pp.phase ≠ .idle) : t.withIdlePp v = t := by
  rw [State.withIdlePp, if_neg h]

/-- One body run from two states: a refusal keeps what they differ in (`f`), and a completion has overwritten it. -/
theorem conclude_overwrites {f : State → State} {s s' : State} {body : Except Halt (Results × State)}
    (hs : ∀ st, s'.refuse st = f (s.refuse st))
    (hok : ∀ (t : State) (r : Results), conclude s body = .next (t.answer .ok r) → f (t.answer .ok r) = t.answer .ok r) :
    conclude s' body = mapNext f (conclude s body) := by
  rcases body with (st | flt) | ⟨r, t⟩
  · exact congrArg Host.Outcome.next (hs st)
  · rfl
  · exact congrArg Host.Outcome.next (hok t r rfl).symm

/-- An idle RD unit's registers are not read, and stay unless the unit is initialised (R38). -/
theorem exec_idle_rd {s : State} {u : RdUnit} (i : Instr) (hs : s.rd.phase = .idle) (hu : u.phase = .idle) :
    exec i { s with rd := u } = mapNext (State.withIdleRd u) (exec i s) := by
  by_cases hallow : phaseAllows i s
  · cases i with
    | rdInit base len =>
      refine conclude_overwrites (fun st => (State.withIdleRd_of_idle (t := s.refuse st) hs).symm) fun t r ht => ?_
      obtain ⟨hphase, -⟩ := exec_ok_phases (i := .rdInit base len) (s := s) ht (lastResponse_answer t .ok r) rfl
      exact State.withIdleRd_of_not_idle fun hidle => nomatch (Option.some.inj hphase).trans hidle
    | ppParse _ _ | ppNext | ppToc _ =>
      refine (exec_with_rd rfl s u s.freeCount).trans (mapNext_congr fun t ht => ?_)
      obtain ⟨hrd, hcount⟩ := exec_rd_of_pp rfl ht
      rw [State.withIdleRd_of_idle (hrd ▸ hs), ← hcount]
    | _ => simp [phaseAllows_iff_legalPhase, legalPhase, hs] at hallow
  · have hallow' : ¬phaseAllows i { s with rd := u } := by
      unfold phaseAllows at hallow ⊢
      rwa [show ({ s with rd := u } : State).rd.phase = s.rd.phase from hu.trans hs.symm]
    rw [exec_out_of_phase hallow, exec_out_of_phase hallow']
    exact congrArg Host.Outcome.next (State.withIdleRd_of_idle (t := s.refuse .protocol) hs).symm

/-- An idle PP unit's registers are not read, and stay unless a Packet is committed (R38). -/
theorem exec_idle_pp {s : State} {v : PpUnit} (i : Instr) (hs : s.pp.phase = .idle) (hv : v.phase = .idle) :
    exec i { s with pp := v } = mapNext (State.withIdlePp v) (exec i s) := by
  cases hrd : isRdCommand i with
  | true =>
    refine (exec_with_pp hrd s v).trans (mapNext_congr fun t ht => ?_)
    rw [State.withIdlePp_of_idle (exec_pp_of_rd hrd ht ▸ hs)]
  | false =>
    cases i with
    | ppParse base len =>
      refine conclude_overwrites (fun st => (State.withIdlePp_of_idle (t := s.refuse st) hs).symm) fun t r ht => ?_
      obtain ⟨-, hphase⟩ := exec_ok_phases (i := .ppParse base len) (s := s) ht (lastResponse_answer t .ok r) rfl
      exact State.withIdlePp_of_not_idle fun hidle => nomatch (Option.some.inj hphase).trans hidle
    | ppToc _ =>
      rw [← State.withIdlePp_of_idle hs]
      refine conclude_map (fun _ _ _ => rfl) rfl ?_
      simp only [map_bind]
      rfl
    | ppNext =>
      have hidle : ∀ w : PpUnit, w.phase = .idle → ¬phaseAllows .ppNext { s with pp := w } := fun w hw => by
        simp [phaseAllows_iff_legalPhase, legalPhase, hw]
      rw [exec_out_of_phase (hidle v hv), exec_out_of_phase (s := s) (hidle s.pp hs)]
      exact congrArg Host.Outcome.next (State.withIdlePp_of_idle (t := s.refuse .protocol) hs).symm
    | _ => cases hrd

/-- Settles O7: the commands of an idle unit are refused, but for the two that write all its registers (`RD.INIT`,
`PP.PARSE`) and `PP.TOC`, which reads none. -/
theorem idleRegistersAreNeverRead : Obligations.IdleRegistersAreNeverRead :=
  ⟨⟨rfl, rfl⟩, fun i _ => ⟨fun _ hs hu => exec_idle_rd i hs hu, fun _ hs hv => exec_idle_pp i hs hv⟩⟩

end Sys2Proof.Machine

namespace Sys2Proof.Machine

/-!
The memory rules: no step writes a memory (O11), operand ranges (O18), the loop of `Normalize()` (O21) and the raw bits of a
new view (O35).
-/

/-! ### What a command leaves as it was -/

/-- A command that completes `OK` has written at most the registers of the two units and the counter (R41). -/
theorem mayWrite.only_units {i : Instr} {s u : State} {r : Results} (h : mayWrite i s r u) :
    u = { s with rd := u.rd, pp := u.pp, freeCount := u.freeCount } := by
  cases i with
  | rdInit _ _ =>
    obtain ⟨-, hu, -⟩ := h
    rw [hu]
  | rdDec _ | rdDecbin _ =>
    obtain ⟨-, -, hu, -⟩ := h
    rw [hu]
  | rdUpd _ _ _ =>
    obtain ⟨-, hu, -⟩ := h
    rw [hu]
  | rdBitp _ =>
    obtain ⟨-, -, -, -, hu, -⟩ := h
    rw [hu]
  | rdIcdf _ _ _ | rdBits _ | rdUint _ =>
    obtain ⟨-, -, -, hu, -⟩ := h
    rw [hu]
  | rdTell | rdTellf | rdTellff =>
    obtain ⟨-, -, -, rfl, -⟩ := h
    rfl
  | ppParse _ _ =>
    obtain ⟨hu, -⟩ := h
    rw [hu]
  | ppNext =>
    obtain ⟨-, -, hu, -⟩ := h
    rw [hu]
  | ppToc _ =>
    obtain ⟨-, -, rfl⟩ := h
    rfl

theorem SameSurroundings.answer {s t : State} (h : SameSurroundings s t) (st : Status) (r : Results) :
    SameSurroundings s (t.answer st r) := { h with }

theorem SameSurroundings.refl (s : State) : SameSurroundings s s :=
  ⟨rfl, rfl, fun _ => rfl, fun _ => rfl, rfl, rfl⟩

/-- However a command ends, everything but the units, the counter and the responses is as it was (R41). -/
theorem exec_sameSurroundings {i : Instr} {s t : State} (h : exec i s = .next t) : SameSurroundings s t := by
  rcases exec_cases i s t h with ⟨r, u, rfl, hw⟩ | ⟨st, -, rfl⟩
  · refine SameSurroundings.answer ?_ .ok r
    rw [hw.only_units]
    exact ⟨rfl, rfl, fun _ => rfl, fun _ => rfl, rfl, rfl⟩
  · exact (SameSurroundings.refl s).answer st .zero

/-- Everything a step that goes on can do: idle, refuse a word that is no command, or execute one (R66, R69, R203). -/
theorem step_cases {s t : State} (h : step s = .next t) :
    (s.commands = [] ∧ t = s) ∨
    ∃ w rest, s.commands = w :: rest ∧
      ((∃ e, decode w = .error e ∧ t = { s with commands := rest }.refuse .illegal) ∨
        ∃ i, decode w = .ok i ∧ exec i { s with commands := rest } = .next t) := by
  unfold step takeCommand at h
  cases hc : s.commands with
  | nil =>
    simp only [hc, Host.Outcome.next.injEq] at h
    exact .inl ⟨rfl, h.symm⟩
  | cons w rest =>
    simp only [hc] at h
    refine .inr ⟨w, rest, rfl, ?_⟩
    cases hd : decode w with
    | error e =>
      simp only [hd, Host.Outcome.next.injEq] at h
      exact .inl ⟨e, rfl, h.symm⟩
    | ok i =>
      simp only [hd] at h
      exact .inr ⟨i, rfl, h⟩

/-- A step changes nothing of the surroundings but the list of commands. -/
theorem step_sameSurroundings {s t : State} (h : step s = .next t) :
    ∃ ws, SameSurroundings { s with commands := ws } t := by
  rcases step_cases h with ⟨-, rfl⟩ | ⟨w, rest, -, ⟨e, -, rfl⟩ | ⟨i, -, hi⟩⟩
  · exact ⟨t.commands, .refl t⟩
  · exact ⟨rest, (SameSurroundings.refl _).answer .illegal .zero⟩
  · exact ⟨rest, exec_sameSurroundings hi⟩

/-- Settles O11: a command writes at most the registers of the units and the counter (`mayWrite.only_units`), and a step takes
its word off the list before. -/
theorem noStepWritesMemory : Obligations.NoStepWritesMemory := by
  refine ⟨fun i s t => exec_sameSurroundings, fun s t h => ?_⟩
  obtain ⟨ws, hsame⟩ := step_sameSurroundings h
  exact ⟨hsame.pktSize, hsame.tblSize, hsame.params, hsame.pktBytes, hsame.tblBytes⟩

/-! ### Operand checks -/

/-- A command whose phase check holds and whose first operand check fails is refused `OPERAND`. -/
theorem conclude_operand_fails {s : State} {p q : Prop} [Decidable p] [Decidable q] {h : Halt}
    {f : Unit → Except Halt (Results × State)} (hp : p) (hq : ¬q) :
    conclude s (require p h >>= fun _ => requireOperand q >>= f) = .next (s.refuse .operand) := by
  rw [require_bind hp]
  exact conclude_check_fails hq

/-- `RD.ICDF` checks its table operand whole, then `ftb` (R105, R106). -/
theorem execRdIcdf_operand_fails {tblBase tblLen ftb : Word} {s : State} (hready : s.rd.phase = .ready)
    (h : ¬(tableLegal tblBase tblLen s.tbl.size ∧ ftbLegal ftb)) :
    execRdIcdf tblBase tblLen ftb s = .next (s.refuse .operand) := by
  by_cases ht : tableLegal tblBase tblLen s.tbl.size
  · unfold execRdIcdf requireReady
    rw [require_bind hready]
    exact conclude_operand_fails ht fun hf => h ⟨ht, hf⟩
  · exact conclude_operand_fails hready ht

/-- `RD.UPD` refuses operands that fail check (u1) (R88). -/
theorem execRdUpd_operand_fails {low high total : Word} {s : State} (hpair : s.rd.phase = .pair)
    (h : ¬intervalLegal low high total) : execRdUpd low high total s = .next (s.refuse .operand) := by
  unfold execRdUpd requirePair updateChecks requireOperand
  rw [require_bind hpair, require_bind_not h]
  rfl

/-- In its phases an ill-formed command is refused `OPERAND` (R69, R191). -/
theorem exec_ill_formed {i : Instr} {s : State} (hphase : phaseAllows i s) (h : i.WellFormed = false) :
    exec i s = .next (s.refuse .operand) := by
  rw [phaseAllows_iff_legalPhase] at hphase
  cases i with
  | rdInit _ _ | ppParse _ _ => exact conclude_check_fails fun hv => of_decide_eq_false h hv.1
  | ppToc _ => exact conclude_check_fails (of_decide_eq_false h)
  | rdDec _ | rdDecbin _ | rdBitp _ | rdBits _ | rdUint _ =>
    exact conclude_operand_fails hphase (of_decide_eq_false h)
  | rdUpd _ _ _ => exact execRdUpd_operand_fails hphase (of_decide_eq_false h)
  | rdIcdf _ _ _ =>
    exact execRdIcdf_operand_fails hphase fun ht => of_decide_eq_false h ⟨ht.1.1, ht.2⟩
  | rdTell | rdTellf | rdTellff | ppNext => cases h

/-- A command whose body never ends with some status other than `OK` is not refused with that status. -/
theorem conclude_ne_refuse {s : State} {st : Status} {body : Except Halt (Results × State)} (hst : st ≠ .ok)
    (hb : HaltsWithin (· ≠ st) body) : conclude s body ≠ .next (s.refuse st) := by
  intro h
  rcases conclude_eq_next.1 h with ⟨x, u, -, ht⟩ | ⟨st', hbody, ht⟩
  · have hlast := congrArg State.lastResponse ht
    rw [lastResponse_refuse, lastResponse_answer] at hlast
    cases hlast
    exact hst rfl
  · have hlast := congrArg State.lastResponse ht
    rw [lastResponse_refuse, lastResponse_refuse] at hlast
    cases hlast
    exact hb _ hbody rfl

theorem haltsWithin_fwdByte {P : Status → Prop} {m : ByteSpace} {u : RdUnit} : HaltsWithin P (fwdByte m u) := by
  unfold fwdByte
  split
  · exact haltsWithin_bind haltsWithin_get fun _ => haltsWithin_ok
  · exact haltsWithin_ok

theorem haltsWithin_startDecoder {P : Status → Prop} {m : ByteSpace} {u : RdUnit} :
    HaltsWithin P (startDecoder m u) :=
  haltsWithin_bind haltsWithin_fwdByte fun _ => haltsWithin_normalize

/-- `RD.INIT` does not refuse a legal view (R44). -/
theorem execRdInit_ne_operand {base len : Word} {s : State} (h : viewLegal base len s.pkt.size) :
    execRdInit base len s ≠ .next (s.refuse .operand) :=
  conclude_ne_refuse nofun <| haltsWithin_check (absurd h) <|
    haltsWithin_bind haltsWithin_startDecoder fun _ => haltsWithin_ok

/-- `PP.PARSE` does not refuse a legal view: the parse has its own failures (R44, R146). -/
theorem execPpParse_ne_operand {base len : Word} {s : State} (h : viewLegal base len s.pkt.size) :
    execPpParse base len s ≠ .next (s.refuse .operand) :=
  conclude_ne_refuse nofun <| haltsWithin_check (absurd h) <|
    haltsWithin_bind (haltsWithin_parsePacket nofun nofun nofun) fun _ => haltsWithin_ok

/-- Settles O18: the operand checks come after the phase check and before anything else (R69), and a body whose view check
holds ends with no `OPERAND`. -/
theorem operandsOutsideTheirRangeAreRefused : Obligations.OperandsOutsideTheirRangeAreRefused := by
  refine ⟨fun i s => exec_ill_formed, fun base len s => ⟨fun h => ?_, fun hb hl hin => ?_⟩,
    fun tblBase tblLen ftb s hready h => ?_⟩
  · have hview : ¬viewLegal base len s.pkt.size := fun ⟨⟨hb, hl⟩, hin⟩ => h ⟨hb, hl, hin⟩
    exact ⟨conclude_check_fails hview, conclude_check_fails hview⟩
  · have hview : viewLegal base len s.pkt.size := ⟨⟨hb, hl⟩, hin⟩
    exact ⟨execRdInit_ne_operand hview, execPpParse_ne_operand hview⟩
  · exact execRdIcdf_operand_fails hready fun ⟨⟨⟨h1, hb, hl⟩, hin⟩, _⟩ => h ⟨h1, hb, hl, hin⟩

/-! ### `Normalize()` is a loop -/

/-- An iteration multiplies `rng` by 256 (R82). -/
theorem normalizeStep_rng {m : ByteSpace} {u v : RdUnit} (h : normalizeStep m u = .ok v)
    (hle : u.rng.toNat ≤ codeBot) : v.rng.toNat = u.rng.toNat * 256 := by
  have hcb : codeBot = 8388608 := rfl
  obtain ⟨byteAndUnit, -, h⟩ := bind_eq_ok.1 h
  cases h
  exact Nat.mod_eq_of_lt (by omega)

/-- An iteration more to spare changes nothing once `k` of them bring `rng` above 2^23 (R84 (b)). -/
theorem normalizeLoop_succ (m : ByteSpace) : ∀ {k : Nat} {u : RdUnit}, codeBot < u.rng.toNat * 256 ^ k →
    normalizeLoop m (k + 1) u = normalizeLoop m k u := by
  intro k
  induction k with
  | zero =>
    intro u h
    have hgt : ¬u.rng.toNat ≤ codeBot := by omega
    rw [normalizeLoop, normalizeLoop, if_neg hgt, if_neg hgt]
  | succ k ih =>
    intro u h
    rw [normalizeLoop, normalizeLoop]
    by_cases hle : u.rng.toNat ≤ codeBot
    · rw [if_pos hle, if_pos hle]
      cases hstep : normalizeStep m u with
      | error e => rfl
      | ok v =>
        have hv := normalizeStep_rng hstep hle
        exact ih (by rw [hv, mul_assoc, ← pow_succ']; exact h)
    · rw [if_neg hle, if_neg hle]

/-- `Normalize()` is the loop of R82: its bound of three iterations is never what ends it, for `rng >= 1` (R84 (b)). -/
theorem normalize_unfold (m : ByteSpace) {u : RdUnit} (h : 1 ≤ u.rng.toNat) :
    normalize m u = if u.rng.toNat ≤ codeBot then normalizeStep m u >>= normalize m else .ok u := by
  rw [normalize, normalizeLoop]
  by_cases hle : u.rng.toNat ≤ codeBot
  · rw [if_pos hle, if_pos hle]
    cases hstep : normalizeStep m u with
    | error e => rfl
    | ok v =>
      have hv := normalizeStep_rng hstep hle
      have hcb : codeBot = 8388608 := rfl
      exact (normalizeLoop_succ m (by rw [hv]; omega)).symm
  · rw [if_neg hle, if_neg hle]

/-- `FwdByte()` for a view inside the memory, wherever the cursor stands (R45). -/
theorem fwdByte_of_view {m : ByteSpace} {u : RdUnit} (h : u.base.toNat + u.len.toNat ≤ m.size) :
    fwdByte m u = .ok (if u.offs.toNat < u.len.toNat then m.bytes.read (u.base.toNat + u.offs.toNat) else 0,
      { u with offs := if u.offs.toNat < u.len.toNat then u.offs + 1 else u.offs }) := by
  unfold fwdByte
  split
  · rw [ByteSpace.get_inside (by omega), ok_bind]
  · rfl

/-- The symbol of R82: eight bits of the old and the new byte, one bit up. -/
theorem codedSymbol_eq_middle (r b : Byte) : (codedSymbol r b).toNat = (r.toNat * 256 + b.toNat) / 2 % 256 := by
  have hb := b.isLt
  rw [codedSymbol_toNat]
  omega

/-- The register after `rng` is multiplied by 256 is `rng` shifted by one byte (R82). -/
theorem ofNat_mul_256_eq_shiftLeft (x : BitVec 32) : BitVec.ofNat 32 (x.toNat * 256) = x <<< 8 := by
  apply BitVec.eq_of_toNat_eq
  rw [BitVec.toNat_ofNat, BitVec.toNat_shiftLeft, Nat.shiftLeft_eq]

/-- Settles O21: the loop by `normalize_unfold`, one turn by what `FwdByte()` reads. -/
theorem normalizeIsTheLoop : Obligations.NormalizeIsTheLoop := by
  refine ⟨fun m u h => normalize_unfold m h, fun m u hview _ => ?_⟩
  simp only
  rw [← codedSymbol_eq_middle, ← ofNat_mul_256_eq_shiftLeft, normalizeStep, fwdByte_of_view hview, ok_bind]

/-! ### The raw bits of a new view -/

/-- `u` after the first byte of its view is read and the counter primed, with `val` and `rng` still to be written (R80). -/
def firstByteRead (m : ByteSpace) (u : RdUnit) : RdUnit :=
  { u with
    offs := BitVec.ofNat 25 (min (u.offs.toNat + 1) u.len.toNat)
    rem := BitVec.ofNat 8 (viewByte m u u.offs.toNat)
    nbitsTotal := BitVec.ofNat 32 initCnt }

theorem firstByteRead_viewOk {m : ByteSpace} {u : RdUnit} {size : Nat} (h : u.base.toNat + u.len.toNat ≤ size) :
    (firstByteRead m u).ViewOk size where
  viewInside := h
  offsInside := by
    show (BitVec.ofNat 25 _).toNat ≤ u.len.toNat
    rw [BitVec.toNat_ofNat]
    exact (Nat.mod_le _ _).trans (min_le_right _ _)

/-- The rest of `RD.INIT` completes: the first byte gives `val`, `rng` is 128, and both are normalized (R80). -/
theorem startDecoder_spec {m : ByteSpace} {u : RdUnit} (h : u.ViewOk m.size) :
    ∃ w, startDecoder m u = .ok w ∧
      Normalized m (firstByteRead m u) (127 - viewByte m u u.offs.toNat / 2) 128 w := by
  have hb : (BitVec.ofNat 8 (viewByte m u u.offs.toNat)).toNat = viewByte m u u.offs.toNat := by
    rw [BitVec.toNat_ofNat, Nat.mod_eq_of_lt (viewByte_lt m u _)]
  rw [startDecoder, fwdByte_eq h, ok_bind]
  simp only [hb]
  exact normalize_spec (firstByteRead_viewOk h.viewInside) (by omega) (by decide) rfl

theorem emptyDecoder_viewOk {base len : Word} {ext : BitVec 32} {size : Nat} (h : viewLegal base len size) :
    (emptyDecoder base len ext).ViewOk size where
  viewInside := by
    obtain ⟨⟨hbase, hlen⟩, hin⟩ := h
    show (base.setWidth 25).toNat + (len.setWidth 25).toNat ≤ size
    rwa [setWidth25_toNat hbase, setWidth25_toNat hlen]
  offsInside := Nat.zero_le _

/-- `RD.INIT` of a legal view completes, and the raw bits then to come are the bytes of the view (R51, R80). -/
theorem execRdInit_rawStream {base len : Word} {s : State} (h : viewLegal base len s.pkt.size) :
    ∃ t, execRdInit base len s = .next t ∧ rawStream t.pkt t.rd = viewNumber s.pkt base.toNat len.toNat := by
  obtain ⟨w, hw, hnorm⟩ := startDecoder_spec (emptyDecoder_viewOk (ext := Config.freeExt s.freeCount) h)
  have hexec : execRdInit base len s =
      .next ({ s with rd := w, freeCount := s.freeCount + 1 }.answer .ok .zero) := by
    rw [execRdInit, requireOperand, require_bind h, hw]
    rfl
  refine ⟨_, hexec, ?_⟩
  show rawStream s.pkt w = _
  rw [hnorm.frame]
  simp [rawStream, firstByteRead, emptyDecoder, setWidth25_toNat h.1.1, setWidth25_toNat h.1.2]

/-- Adding a byte at the end of a number shifts the bits there are by eight. -/
theorem testBit_append_byte (x : Nat) (b : Byte) (j : Nat) :
    (x * 256 + b.toNat).testBit j = if j < 8 then b.getLsbD j else x.testBit (j - 8) := by
  rw [mul_comm, show 256 = 2 ^ 8 by norm_num, Nat.testBit_two_pow_mul_add x b.isLt]
  rfl

/-- Bit `8 q + j` of the number a view holds is bit `j` of its `q`-th byte from the end (R51). -/
theorem viewNumber_testBit (m : ByteSpace) (base : Nat) {j : Nat} (hj : j < 8) : ∀ {n q : Nat}, q < n →
    (viewNumber m base n).testBit (8 * q + j) = (m.bytes.read (base + n - 1 - q)).getLsbD j := by
  intro n
  induction n with
  | zero => intro q h; omega
  | succ n ih =>
    intro q h
    rw [viewNumber, testBit_append_byte]
    cases q with
    | zero => simp [hj]
    | succ q =>
      rw [if_neg (by omega), show 8 * (q + 1) + j - 8 = 8 * q + j by omega, ih (by omega),
        show base + (n + 1) - 1 - (q + 1) = base + n - 1 - q by omega]

/-- The number a view of `n` bytes holds has `8 n` bits (R51). -/
theorem viewNumber_testBit_past (m : ByteSpace) (base : Nat) : ∀ {n j : Nat}, 8 * n ≤ j →
    (viewNumber m base n).testBit j = false := by
  intro n
  induction n with
  | zero => intro j _; simp [viewNumber]
  | succ n ih =>
    intro j h
    rw [viewNumber, testBit_append_byte, if_neg (by omega)]
    exact ih (by omega)

/-- Settles O35: the cache of a new view is empty, so the raw bits to come are the number its bytes make, the last one
lowest. -/
theorem rawBitsComeFromTheTail : Obligations.RawBitsComeFromTheTail := by
  intro base len s hview
  obtain ⟨t, ht, hraw⟩ := execRdInit_rawStream hview
  refine ⟨t, ht, fun q j hq hj => ?_, fun j hj => ?_⟩
  · rw [hraw, viewNumber_testBit s.pkt base.toNat hj hq]
  · rw [hraw, viewNumber_testBit_past s.pkt base.toNat hj]

end Sys2Proof.Machine

namespace Sys2Proof

/-!
The decoder and the encoder (O1 to O5).
-/

/-! ### Words and rows -/

/-- The operand fields a format does not use are zero in `w` (R61). -/
def Format.UnusedZero (w : CommandWord) : Format → Prop
  | .z => fieldA w = 0 ∧ fieldB w = 0 ∧ fieldC w = 0
  | .a => fieldB w = 0 ∧ fieldC w = 0
  | .ab => fieldC w = 0
  | .abc => True

/-- A row's opcode with the operand fields of `w` that its format uses, the others zero. -/
def Row.wordWithFieldsOf (r : Row) (w : CommandWord) : CommandWord :=
  match r.format with
  | .z => wordOf r.op 0 0 0
  | .a => wordOf r.op (fieldA w) 0 0
  | .ab => wordOf r.op (fieldA w) (fieldB w) 0
  | .abc => wordOf r.op (fieldA w) (fieldB w) (fieldC w)

/-- A word matches a row iff it has the row's opcode and its unused fields are zero (R61). -/
theorem Row.matches_iff {r : Row} {w : CommandWord} :
    r.Matches w ↔ fieldOp w = r.op ∧ r.format.UnusedZero w := by
  rw [← wordOf_fields w, matches_wordOf, wordOf_fields]
  cases r.format <;> rfl

/-- A word that matches a row is the row's opcode and the operand fields its format uses. -/
theorem Row.Matches.wordWithFieldsOf_eq {r : Row} {w : CommandWord} (h : r.Matches w) : r.wordWithFieldsOf w = w := by
  obtain ⟨name, op, format⟩ := r
  obtain ⟨rfl, hunused⟩ := Row.matches_iff.1 h
  conv_rhs => rw [← wordOf_fields w]
  cases format with
  | z =>
    obtain ⟨ha, hb, hc⟩ := hunused
    rw [ha, hb, hc]; rfl
  | a =>
    obtain ⟨hb, hc⟩ := hunused
    rw [hb, hc]; rfl
  | ab =>
    rw [show fieldC w = 0 from hunused]; rfl
  | abc => rfl

/-- No two rows have the same opcode (R63). -/
theorem row_eq_of_op_eq : ∀ r ∈ opcodeTable, ∀ r' ∈ opcodeTable, r.op = r'.op → r = r' := by decide

/-- A word matches one row at most. -/
theorem Row.Matches.unique {r r' : Row} {w : CommandWord} (hr : r ∈ opcodeTable) (hr' : r' ∈ opcodeTable)
    (h : r.Matches w) (h' : r'.Matches w) : r = r' :=
  row_eq_of_op_eq r hr r' hr' ((Row.matches_iff.1 h).1.symm.trans (Row.matches_iff.1 h').1)

/-! ### Decoder and encoder -/

/-- The decoder inverts the encoder (R60 to R63). -/
theorem decode_encode (i : Instr) : decode (encode i) = .ok i := by
  cases i with
  | rdUpd _ _ _ | rdIcdf _ _ _ =>
    simp only [encode, decode, fieldOp_wordOf, fieldA_wordOf, fieldB_wordOf, fieldC_wordOf]
    rfl
  | rdTell | rdTellf | rdTellff | ppNext => decide
  | _ =>
    simp only [encode, decode, fieldOp_wordOf, fieldA_wordOf, fieldB_wordOf, fieldC_wordOf]
    exact ifUnusedZero_eq_ok.2 ⟨rfl, rfl⟩

/-- An opcode from its number. -/
theorem fieldOp_eq_ofNat {w : CommandWord} {n : Nat} (h : (fieldOp w).toNat = n) : fieldOp w = BitVec.ofNat 8 n := by
  rw [← h, BitVec.ofNat_toNat, BitVec.setWidth_eq]

/-- A word the decoder reads as a command is that command's encoding: the decoder drops no bit (R61, R67). -/
theorem encode_of_decode_eq_ok {w : CommandWord} {i : Instr} (h : decode w = .ok i) : encode i = w := by
  have hw := wordOf_fields w
  unfold decode at h
  split at h
  case h_1 hop | h_12 hop =>
    obtain ⟨hc, rfl⟩ := ifUnusedZero_eq_ok.1 h
    rw [fieldOp_eq_ofNat hop, hc] at hw
    exact hw
  case h_2 hop | h_3 hop | h_5 hop | h_7 hop | h_8 hop | h_14 hop =>
    obtain ⟨hunused, rfl⟩ := ifUnusedZero_eq_ok.1 h
    obtain ⟨hb, hc⟩ := or_eq_zero_word.1 hunused
    rw [fieldOp_eq_ofNat hop, hb, hc] at hw
    exact hw
  case h_4 hop | h_6 hop =>
    cases h
    rw [fieldOp_eq_ofNat hop] at hw
    exact hw
  case h_9 hop | h_10 hop | h_11 hop | h_13 hop =>
    obtain ⟨hunused, rfl⟩ := ifUnusedZero_eq_ok.1 h
    obtain ⟨hab, hc⟩ := or_eq_zero_word.1 hunused
    obtain ⟨ha, hb⟩ := or_eq_zero_word.1 hab
    rw [fieldOp_eq_ofNat hop, ha, hb, hc] at hw
    exact hw
  case h_15 => cases h

/-- The encoding of a command is a word of the command's row. -/
theorem encode_in_its_row : ∀ i : Instr, Laws.EncodedInItsRow.Statement i
  | .rdInit base len => Laws.EncodedInItsRow.rdInit base len
  | .rdDec total => Laws.EncodedInItsRow.rdDec total
  | .rdDecbin bits => Laws.EncodedInItsRow.rdDecbin bits
  | .rdUpd low high total => Laws.EncodedInItsRow.rdUpd low high total
  | .rdBitp logp => Laws.EncodedInItsRow.rdBitp logp
  | .rdIcdf tblBase tblLen ftb => Laws.EncodedInItsRow.rdIcdf tblBase tblLen ftb
  | .rdBits n => Laws.EncodedInItsRow.rdBits n
  | .rdUint total => Laws.EncodedInItsRow.rdUint total
  | .rdTell => Laws.EncodedInItsRow.rdTell
  | .rdTellf => Laws.EncodedInItsRow.rdTellf
  | .rdTellff => Laws.EncodedInItsRow.rdTellff
  | .ppParse base len => Laws.EncodedInItsRow.ppParse base len
  | .ppNext => Laws.EncodedInItsRow.ppNext
  | .ppToc toc => Laws.EncodedInItsRow.ppToc toc

/-- A word that matches a row is the encoding of a command of that row. -/
theorem Row.Matches.exists_encode {r : Row} {w : CommandWord} (hr : r ∈ opcodeTable) (h : r.Matches w) :
    ∃ i, rowOf i = r ∧ encode i = w := by
  have hw := h.wordWithFieldsOf_eq
  fin_cases hr
  · exact ⟨.rdInit (fieldA w) (fieldB w), rfl, hw⟩
  · exact ⟨.rdDec (fieldA w), rfl, hw⟩
  · exact ⟨.rdDecbin (fieldA w), rfl, hw⟩
  · exact ⟨.rdUpd (fieldA w) (fieldB w) (fieldC w), rfl, hw⟩
  · exact ⟨.rdBitp (fieldA w), rfl, hw⟩
  · exact ⟨.rdIcdf (fieldA w) (fieldB w) (fieldC w), rfl, hw⟩
  · exact ⟨.rdBits (fieldA w), rfl, hw⟩
  · exact ⟨.rdUint (fieldA w), rfl, hw⟩
  · exact ⟨.rdTell, rfl, hw⟩
  · exact ⟨.rdTellf, rfl, hw⟩
  · exact ⟨.rdTellff, rfl, hw⟩
  · exact ⟨.ppParse (fieldA w) (fieldB w), rfl, hw⟩
  · exact ⟨.ppNext, rfl, hw⟩
  · exact ⟨.ppToc (fieldA w), rfl, hw⟩

/-- A word decodes to a command of a row iff it matches the row (R61). -/
theorem decodes_to_row_iff {r : Row} (hr : r ∈ opcodeTable) {w : CommandWord} :
    (∃ i, decode w = .ok i ∧ rowOf i = r) ↔ r.Matches w := by
  constructor
  · rintro ⟨i, hi, rfl⟩
    rw [← encode_of_decode_eq_ok hi]
    exact (encode_in_its_row i).2
  · intro h
    obtain ⟨i, hrow, rfl⟩ := h.exists_encode hr
    exact ⟨i, decode_encode i, hrow⟩

/-- A word that matches no row is rejected (R66). -/
theorem decode_eq_error_of_no_row {w : CommandWord} (h : ∀ r ∈ opcodeTable, ¬r.Matches w) :
    ∃ e, decode w = .error e := by
  cases hd : decode w with
  | error e => exact ⟨e, rfl⟩
  | ok i =>
    have hrow := (encode_in_its_row i).1
    exact absurd ((decodes_to_row_iff hrow).1 ⟨i, hd, rfl⟩) (h _ hrow)

/-- Settles O1 by `decode_encode`: each field of the word is the operand it was made of. -/
theorem decodingAnEncodedCommandGivesItBack : Obligations.DecodingAnEncodedCommandGivesItBack := decode_encode

/-- Settles O2 by `encode_of_decode_eq_ok`: a word is its four fields, and those the command does not hold are zero. -/
theorem aCommandWordIsTheEncodingOfItsCommand : Obligations.ACommandWordIsTheEncodingOfItsCommand := fun _ _ =>
  encode_of_decode_eq_ok

/-- Settles O3: the masks as written, the row of the decoded command, and that no two rows share an opcode. -/
theorem aWordIsTheCommandOfTheRowItMatches : Obligations.AWordIsTheCommandOfTheRowItMatches :=
  ⟨rfl, fun _ => ⟨fun _ hr => decodes_to_row_iff hr, fun _ hr _ hr' h h' => h.unique hr hr' h'⟩⟩

/-- Settles O4: each word is evaluated. -/
theorem wordsOfTheSpecDecode : Obligations.WordsOfTheSpecDecode := by
  unfold Obligations.WordsOfTheSpecDecode
  decide

/-! ### Illegal words -/

/-- The unassigned opcodes (R66). -/
theorem op_unassigned_iff : ∀ op : BitVec 8,
    (op.toNat ≤ 0x0F ∨ (0x1B ≤ op.toNat ∧ op.toNat ≤ 0x1F) ∨ 0x23 ≤ op.toNat) ↔ ∀ r ∈ opcodeTable, op ≠ r.op := by
  decide

/-- The opcodes of the formats that leave an operand field unused (R61, R63). -/
theorem format_iff_op : ∀ r ∈ opcodeTable, (r.format = .ab ↔ r.op ∈ [0x10, 0x20]) ∧
    (r.format = .a ↔ r.op ∈ [0x11, 0x12, 0x14, 0x16, 0x17, 0x22]) ∧
    (r.format = .z ↔ r.op ∈ [0x18, 0x19, 0x1A, 0x21]) := by decide

/-- The words that match no row: an unassigned opcode, or an assigned one with an unused field that is not zero (R66). -/
theorem matches_no_row_iff (w : CommandWord) : (∀ r ∈ opcodeTable, ¬r.Matches w) ↔
    ((fieldOp w).toNat ≤ 0x0F ∨ (0x1B ≤ (fieldOp w).toNat ∧ (fieldOp w).toNat ≤ 0x1F) ∨ 0x23 ≤ (fieldOp w).toNat) ∨
    (fieldOp w ∈ [0x10, 0x20] ∧ fieldC w ≠ 0) ∨
    (fieldOp w ∈ [0x11, 0x12, 0x14, 0x16, 0x17, 0x22] ∧ (fieldB w ≠ 0 ∨ fieldC w ≠ 0)) ∨
    (fieldOp w ∈ [0x18, 0x19, 0x1A, 0x21] ∧ (fieldA w ≠ 0 ∨ fieldB w ≠ 0 ∨ fieldC w ≠ 0)) := by
  rw [op_unassigned_iff]
  constructor
  · intro hnone
    by_cases hop : ∀ r ∈ opcodeTable, fieldOp w ≠ r.op
    · exact .inl hop
    · push Not at hop
      obtain ⟨r, hr, hop⟩ := hop
      have hunused : ¬r.format.UnusedZero w := fun h => hnone r hr (Row.matches_iff.2 ⟨hop, h⟩)
      obtain ⟨hab, ha, hz⟩ := format_iff_op r hr
      rw [hop]
      cases hf : r.format with
      | z =>
        rw [hf, Format.UnusedZero] at hunused
        exact .inr (.inr (.inr ⟨hz.1 hf, by tauto⟩))
      | a =>
        rw [hf, Format.UnusedZero] at hunused
        exact .inr (.inr (.inl ⟨ha.1 hf, by tauto⟩))
      | ab =>
        rw [hf, Format.UnusedZero] at hunused
        exact .inr (.inl ⟨hab.1 hf, hunused⟩)
      | abc =>
        rw [hf] at hunused
        exact absurd trivial hunused
  · intro hillegal r hr hmatch
    obtain ⟨hop, hunused⟩ := Row.matches_iff.1 hmatch
    obtain ⟨hab, ha, hz⟩ := format_iff_op r hr
    rw [hop] at hillegal
    rcases hillegal with hno | ⟨hmem, hc⟩ | ⟨hmem, hbc⟩ | ⟨hmem, habc⟩
    · exact hno r hr rfl
    · rw [hab.2 hmem, Format.UnusedZero] at hunused
      exact hc hunused
    · rw [ha.2 hmem, Format.UnusedZero] at hunused
      tauto
    · rw [hz.2 hmem, Format.UnusedZero] at hunused
      tauto

/-- Neither the all-zero nor the all-ones word matches a row (R66). -/
theorem zeros_and_ones_match_no_row : ∀ r ∈ opcodeTable, ¬r.Matches 0 ∧ ¬r.Matches (BitVec.allOnes 104) := by decide

end Sys2Proof

namespace Sys2Proof.Machine

/-!
One step and one answer (O5, O6, O13, O14, O15).
-/

/-! ### One step, by what the decoder reads -/

section
variable {s : State} {w : CommandWord} {rest : List CommandWord}

/-- A step runs the command its word decodes to (R69). -/
theorem step_of_decode_eq_ok {i : Instr} (hs : s.commands = w :: rest) (hd : decode w = .ok i) :
    step s = exec i { s with commands := rest } := by
  simp only [step, takeCommand, hs, hd]

/-- A step refuses a word the decoder rejects (R66). -/
theorem step_of_decode_eq_error {e : DecodeError} (hs : s.commands = w :: rest) (hd : decode w = .error e) :
    step s = .next ({ s with commands := rest }.refuse .illegal) := by
  simp only [step, takeCommand, hs, hd]

/-- With no command left a step changes nothing (R203). -/
theorem step_of_no_command (hs : s.commands = []) : step s = .next s := by
  simp only [step, takeCommand, hs]

end

/-- Settles O6, an equation of `step` for each half. -/
theorem aStepRunsTheDecodedCommand : Obligations.AStepRunsTheDecodedCommand :=
  ⟨fun _ _ _ _ hs hd => step_of_decode_eq_ok hs hd, fun _ hs => step_of_no_command hs⟩

/-- Settles O5: a word that matches no row is rejected by the decoder, and the rows' opcodes and formats are those listed. -/
theorem illegalWordsAreRefused : Obligations.IllegalWordsAreRefused := by
  refine ⟨fun s w rest hs hnone => ?_, matches_no_row_iff, zeros_and_ones_match_no_row⟩
  obtain ⟨e, he⟩ := decode_eq_error_of_no_row hnone
  exact step_of_decode_eq_error hs he

/-! ### The response -/

/-- The parts of a concatenation of a status code and four words, at the bits of R64. -/
theorem extractLsb'_of_five_fields (st : BitVec 4) (a b c d : Word) :
    (st ++ a ++ b ++ c ++ d).extractLsb' 128 4 = st ∧ (st ++ a ++ b ++ c ++ d).extractLsb' 96 32 = a ∧
    (st ++ a ++ b ++ c ++ d).extractLsb' 64 32 = b ∧ (st ++ a ++ b ++ c ++ d).extractLsb' 32 32 = c ∧
    (st ++ a ++ b ++ c ++ d).extractLsb' 0 32 = d := by
  simp (disch := decide) only [BitVec.extractLsb'_append_eq_of_le, BitVec.extractLsb'_append_eq_right, Nat.reduceSub,
    BitVec.extractLsb'_eq_self, and_self]

/-- Settles O14: each field of the response word is one part of a concatenation. -/
theorem responseWordFields : Obligations.ResponseWordFields :=
  ⟨fun _ => extractLsb'_of_five_fields _ _ _ _ _, rfl⟩

/-- Settles O13: a command not answered `OK` is refused from the state it found, and one answered `OK` adds its response to
those it found (`mayWrite.only_units`). -/
theorem everyCommandIsAnsweredOnce : Obligations.EveryCommandIsAnsweredOnce := by
  intro i s t ht
  rcases exec_cases i s t ht with ⟨r, u, rfl, hw⟩ | ⟨st, hst, rfl⟩
  · refine .inr ⟨r, ?_⟩
    rw [State.answer_responses, hw.only_units]
  · exact .inl ⟨st, mayHalt_ne_ok hst, rfl⟩

/-! ### Statuses and results by command -/

/-- The result fields a command may set (the summary of R64); the bit of `RD.BITP` is 0 or 1. -/
def ResultsOf : Instr → Results → Prop
  | .rdInit _ _, r | .rdUpd _ _ _, r => r = .zero
  | .rdBitp _, r => r.r0.toNat ≤ 1 ∧ r.r1 = 0 ∧ r.r2 = 0 ∧ r.r3 = 0
  | .rdIcdf _ _ _, r | .rdBits _, r | .rdUint _, r | .rdTell, r | .rdTellf, r | .rdTellff, r =>
    r.r1 = 0 ∧ r.r2 = 0 ∧ r.r3 = 0
  | .rdDec _, r | .rdDecbin _, r | .ppNext, r | .ppToc _, r => r.r2 = 0 ∧ r.r3 = 0
  | .ppParse _ _, _ => True

/-- The results of a completed command are in the fields it defines. -/
theorem mayWrite.resultsOf {i : Instr} {s u : State} {r : Results} (h : mayWrite i s r u) : ResultsOf i r := by
  cases i with
  | rdInit _ _ | rdUpd _ _ _ => exact h.1
  | rdBitp _ =>
    obtain ⟨h0, h1, h2, h3, -⟩ := h
    exact ⟨h0, h1, h2, h3⟩
  | rdIcdf _ _ _ | rdBits _ | rdUint _ | rdTell | rdTellf | rdTellff =>
    obtain ⟨h1, h2, h3, -⟩ := h
    exact ⟨h1, h2, h3⟩
  | rdDec _ | rdDecbin _ | ppNext | ppToc _ =>
    obtain ⟨h2, h3, -⟩ := h
    exact ⟨h2, h3⟩
  | ppParse _ _ => trivial

/-- Zero results set no field. -/
theorem resultsOf_zero (i : Instr) : ResultsOf i .zero := by
  cases i <;> simp [ResultsOf, Results.zero]

/-- A command answers `OK` or one of its other statuses, with results in the fields it defines. -/
theorem exec_response {i : Instr} {s t : State} {r : Response} (ht : exec i s = .next t)
    (hr : t.lastResponse = some r) : (r.status = .ok ∨ mayHalt i r.status) ∧ ResultsOf i r.results := by
  rcases exec_cases i s t ht with ⟨x, u, rfl, hw⟩ | ⟨st, hst, rfl⟩
  · cases (lastResponse_answer u .ok x).symm.trans hr
    exact ⟨.inl rfl, hw.resultsOf⟩
  · cases (lastResponse_refuse s st).symm.trans hr
    exact ⟨.inr hst, resultsOf_zero i⟩

/-- Executing a command is never answered `ILLEGAL` (R65). -/
theorem not_mayHalt_illegal (i : Instr) : ¬mayHalt i .illegal := by
  cases i <;> simp [mayHalt]

/-- Only `PP.NEXT` answers `END` (R65). -/
theorem eq_ppNext_of_mayHalt_ended {i : Instr} (h : mayHalt i .ended) : i = .ppNext := by
  cases i with
  | ppNext => rfl
  | _ => simp [mayHalt] at h

/-- Only `PP.PARSE` answers a parse failure (R65, R195). -/
theorem eq_ppParse_of_mayHalt_parse_failure {i : Instr} {st : Status} (h : mayHalt i st)
    (hst : st = .dtx ∨ st = .invalidLength ∨ st = .invalidFormat) : ∃ base len, i = .ppParse base len := by
  cases i with
  | ppParse base len => exact ⟨base, len, rfl⟩
  | _ => rcases hst with rfl | rfl | rfl <;> simp [mayHalt] at h

/-- Settles O15: the statuses are those of `mayHalt` and the results those of `ResultsOf`. -/
theorem statusesAndResultsByCommand : Obligations.StatusesAndResultsByCommand := by
  intro i s t r ht hr
  obtain ⟨hstatus, hresults⟩ := exec_response ht hr
  have hmay : ∀ st, st ≠ .ok → r.status = st → mayHalt i st := by
    rintro st hst rfl
    exact hstatus.resolve_left hst
  have hnever : ∀ st, st ≠ .ok → ¬mayHalt i st → r.status ≠ st := fun st hst hno h => hno (hmay st hst h)
  refine ⟨hnever _ nofun (not_mayHalt_illegal i), fun h => eq_ppNext_of_mayHalt_ended (hmay _ nofun h),
    fun h => eq_ppParse_of_mayHalt_parse_failure (hmay _ ?_ rfl) h, ?_⟩
  · rcases h with h | h | h <;> simp [h]
  cases i with
  | rdInit _ _ => exact ⟨hresults, hnever _ nofun nofun⟩
  | rdUpd _ _ _ | rdDec _ | rdDecbin _ | rdBitp _ | rdIcdf _ _ _ | rdBits _ | rdUint _ => exact hresults
  | rdTell | rdTellf | rdTellff =>
    obtain ⟨h1, h2, h3⟩ := hresults
    exact ⟨h1, h2, h3, hnever _ nofun nofun⟩
  | ppParse _ _ => exact hnever _ nofun (by simp [mayHalt])
  | ppNext =>
    obtain ⟨h2, h3⟩ := hresults
    exact ⟨h2, h3, hnever _ nofun (by simp [mayHalt])⟩
  | ppToc _ =>
    obtain ⟨h2, h3⟩ := hresults
    exact ⟨h2, h3, hnever _ nofun nofun⟩

end Sys2Proof.Machine

namespace Sys2Proof.Machine

/-!
What the commands on coded bits, the initialisers and `PP.NEXT` leave unchanged (O58, O60).
-/

/-- How the RD registers after a command on coded bits are those before, but for the ones it may write (R81, R85 to R87, R100,
R106). -/
def CodedFrame : Instr → RdUnit → RdUnit → Prop
  | .rdDec _, u, v | .rdDecbin _, u, v => v = { u with ext := v.ext, phase := v.phase }
  | .rdUpd _ _ _, u, v =>
    v = { u with val := v.val, rng := v.rng, rem := v.rem, nbitsTotal := v.nbitsTotal, offs := v.offs, phase := v.phase }
  | .rdBitp _, u, v | .rdIcdf _ _ _, u, v =>
    v = { u with val := v.val, rng := v.rng, rem := v.rem, nbitsTotal := v.nbitsTotal, offs := v.offs }
  | _, _, _ => True

theorem CodedFrame.refl (i : Instr) (u : RdUnit) : CodedFrame i u u := by
  cases i with
  | rdDec _ | rdDecbin _ | rdUpd _ _ _ | rdBitp _ | rdIcdf _ _ _ => rfl
  | _ => trivial

theorem isRdCommand_of_isCodedCommand {i : Instr} (h : isCodedCommand i = true) : isRdCommand i = true := by
  cases i with
  | ppParse _ _ | ppNext | ppToc _ => cases h
  | _ => rfl

/-- A command on coded bits that completes writes the registers of its frame only, and no counter of the model. -/
theorem mayWrite.codedFrame {i : Instr} {s u : State} {r : Results} (hi : isCodedCommand i = true)
    (h : mayWrite i s r u) : CodedFrame i s.rd u.rd ∧ u.freeCount = s.freeCount := by
  cases i with
  | rdDec _ | rdDecbin _ =>
    obtain ⟨-, -, hu, -⟩ := h
    rw [hu]; exact ⟨rfl, rfl⟩
  | rdUpd _ _ _ =>
    obtain ⟨-, hu, -⟩ := h
    rw [hu]; exact ⟨rfl, rfl⟩
  | rdBitp _ =>
    obtain ⟨-, -, -, -, hu, -⟩ := h
    rw [hu]; exact ⟨rfl, rfl⟩
  | rdIcdf _ _ _ =>
    obtain ⟨-, -, -, hu, -⟩ := h
    rw [hu]; exact ⟨rfl, rfl⟩
  | _ => cases hi

/-- However a command on coded bits ends, it keeps to its frame. -/
theorem exec_codedFrame {i : Instr} {s t : State} (hi : isCodedCommand i = true) (h : exec i s = .next t) :
    CodedFrame i s.rd t.rd ∧ t.pp = s.pp ∧ t.freeCount = s.freeCount ∧ SameSurroundings s t := by
  have hpp := exec_pp_of_rd (isRdCommand_of_isCodedCommand hi) h
  have hsame := exec_sameSurroundings h
  rcases exec_cases i s t h with ⟨r, u, rfl, hu⟩ | ⟨st, -, rfl⟩
  · obtain ⟨hrd, hcount⟩ := hu.codedFrame hi
    exact ⟨hrd, hpp, hcount, hsame⟩
  · exact ⟨.refl i s.rd, hpp, rfl, hsame⟩

/-- `PP.NEXT` writes no register but those of the iterator (R170, R171). -/
theorem exec_ppNext_frame {s t : State} (h : exec .ppNext s = .next t) :
    t.pp = { s.pp with scheme := t.pp.scheme, payBase := t.pp.payBase, payLen := t.pp.payLen, lpBase := t.pp.lpBase,
                       lpLen := t.pp.lpLen } := by
  rcases exec_cases .ppNext s t h with ⟨r, u, rfl, -, -, hu, -⟩ | ⟨st, -, rfl⟩
  · rw [hu]; rfl
  · rfl

/-- Settles O58: each clause is the frame of its command (`CodedFrame`). -/
theorem frameOfTheCodedCommands : Obligations.FrameOfTheCodedCommands := fun _ _ _ _ _ =>
  ⟨fun h => h.elim (exec_codedFrame rfl) (exec_codedFrame rfl), exec_codedFrame rfl,
    fun h => h.elim (exec_codedFrame rfl) (exec_codedFrame rfl)⟩

/-- Settles O60: a command leaves the other unit (O12) and its surroundings (O11), and `PP.NEXT` the rest of its own unit. -/
theorem frameOfTheInitialisersAndNext : Obligations.FrameOfTheInitialisersAndNext := by
  refine fun s t base len => ⟨fun h => ?_, fun h => ?_, fun h => ?_⟩
  · exact ⟨exec_pp_of_rd rfl h, exec_sameSurroundings h⟩
  · obtain ⟨hrd, hcount⟩ := exec_rd_of_pp rfl h
    exact ⟨hrd, hcount, exec_sameSurroundings h⟩
  · obtain ⟨hrd, hcount⟩ := exec_rd_of_pp rfl h
    exact ⟨exec_ppNext_frame h, hrd, hcount, exec_sameSurroundings h⟩

end Sys2Proof.Machine

namespace Sys2Proof.Machine

/-!
Decode and update (O22 to O26).
-/

/-! ### Commands answered `OK` -/

/-- A check of a command answered `OK` held, and the rest of the command made the answer. -/
theorem check_of_answered_ok {s t : State} {p : Prop} [Decidable p] {st : Status} {r : Results}
    {f : Unit → Except Halt (Results × State)} (ht : conclude s (require p (.answer st) >>= f) = .next t)
    (hr : t.lastResponse = some { status := .ok, results := r }) (hst : st ≠ .ok) : p ∧ conclude s (f ()) = .next t := by
  by_cases hp : p
  · rw [require_bind hp] at ht
    exact ⟨hp, ht⟩
  · cases ht.symm.trans (conclude_check_fails hp)
    cases (lastResponse_refuse s st).symm.trans hr
    exact absurd rfl hst

/-- A command answered `OK` has completed its body, when the body does not itself end with that status. -/
theorem conclude_answered_ok {s t : State} {body : Except Halt (Results × State)} {r : Results}
    (ht : conclude s body = .next t) (hr : t.lastResponse = some { status := .ok, results := r })
    (hb : HaltsWithin (· ≠ .ok) body) : ∃ u, body = .ok (r, u) ∧ t = u.answer .ok r := by
  rcases conclude_eq_next.1 ht with ⟨x, u, hbody, rfl⟩ | ⟨st, hbody, rfl⟩
  · cases (lastResponse_answer u .ok x).symm.trans hr
    exact ⟨u, hbody, rfl⟩
  · cases (lastResponse_refuse s st).symm.trans hr
    exact absurd rfl (hb _ hbody)

/-! ### Decode -/

/-- The offset is the top of the range iff `val` is below the divisor (R85). -/
theorem offsetOf_eq_top_iff {val ext total : Nat} (he : 0 < ext) (h2 : 2 ≤ total) :
    offsetOf val ext total = total - 1 ↔ val < ext := by
  have hdiv : val < ext ↔ val / ext < 1 := by rw [Nat.div_lt_iff_lt_mul he, one_mul]
  rw [hdiv, offsetOf]
  generalize val / ext = q
  omega

/-- `s` after a decode of `total`: the divisor is cached and an update awaited (R85). -/
def State.decoded (total : Nat) (s : State) : State :=
  { s with rd := { s.rd with ext := BitVec.ofNat 32 (s.rd.rng.toNat / total), phase := .pair } }

theorem State.decoded_ext (total : Nat) (s : State) : (s.decoded total).rd.ext.toNat = s.rd.rng.toNat / total :=
  Nat.mod_eq_of_lt ((Nat.div_le_self _ _).trans_lt s.rd.rng.isLt)

/-- The cached divisor of a legal total is not zero (R14, R90). -/
theorem RdUnit.Live.decoded_ext_pos {total : Word} {s : State} (hu : s.rd.Live s.pkt.size) (htotal : totalLegal total) :
    0 < (s.decoded total.toNat).rd.ext.toNat := by
  rw [State.decoded_ext]
  exact (Nat.two_pow_pos 7).trans_le (divisor_bounds hu.rngLow hu.rngHigh htotal.1 htotal.2).1

/-- `RD.DEC` of a legal total completes (R85). -/
theorem execRdDec_completes {total : Word} {s : State} (hu : s.rd.Live s.pkt.size) (hready : s.rd.phase = .ready)
    (htotal : totalLegal total) :
    execRdDec total s = .next ((s.decoded total.toNat).answer .ok
      { r0 := BitVec.ofNat 32 (offsetOf s.rd.val.toNat (s.rd.rng.toNat / total.toNat) total.toNat),
        r1 := BitVec.ofNat 32 (s.rd.rng.toNat / total.toNat) }) := by
  obtain ⟨hlow, hhigh⟩ := divisor_bounds hu.rngLow hu.rngHigh htotal.1 htotal.2
  rw [execRdDec, requireReady, require_bind hready, requireOperand, require_bind htotal, decodeFrequency,
    cacheAndDecode_eq (by omega) (by omega)]
  rfl

/-- A number up to a power-of-two total, as an operand (R86, R106). -/
theorem toNat_ofNat_of_le_two_pow {x bits : Nat} (hbits : bits ≤ maxTotalBits) (hx : x ≤ 2 ^ bits) :
    (BitVec.ofNat 32 x).toNat = x := by
  have hle : 2 ^ bits ≤ 2 ^ 16 := Nat.pow_le_pow_right Nat.two_pos hbits
  exact Nat.mod_eq_of_lt (by omega)

theorem toNat_ofNat_two_pow {bits : Nat} (h : bits ≤ maxTotalBits) : (BitVec.ofNat 32 (2 ^ bits)).toNat = 2 ^ bits :=
  toNat_ofNat_of_le_two_pow h le_rfl

/-- A power of two from 2 to 65536 is a legal total (R86). -/
theorem totalLegal_two_pow {bits : Word} (h : binBitsLegal bits) : totalLegal (BitVec.ofNat 32 (2 ^ bits.toNat)) := by
  unfold totalLegal
  rw [toNat_ofNat_two_pow h.2]
  exact ⟨Nat.pow_le_pow_right Nat.two_pos h.1, Nat.pow_le_pow_right Nat.two_pos h.2⟩

/-- `RD.DECBIN bits` is `RD.DEC 2^bits` (R86). -/
theorem execRdDecbin_eq_execRdDec {bits : Word} (h : binBitsLegal bits) (s : State) :
    execRdDecbin bits s = execRdDec (BitVec.ofNat 32 (2 ^ bits.toNat)) s := by
  unfold execRdDecbin execRdDec requireOperand
  rw [require_bind h, require_bind (totalLegal_two_pow h), decodeBin_eq, toNat_ofNat_two_pow h.2]

/-- `RD.DECBIN` of a legal operand completes (R86). -/
theorem execRdDecbin_completes {bits : Word} {s : State} (hu : s.rd.Live s.pkt.size) (hready : s.rd.phase = .ready)
    (hbits : binBitsLegal bits) :
    execRdDecbin bits s = .next ((s.decoded (2 ^ bits.toNat)).answer .ok
      { r0 := BitVec.ofNat 32 (offsetOf s.rd.val.toNat (s.rd.rng.toNat / 2 ^ bits.toNat) (2 ^ bits.toNat)),
        r1 := BitVec.ofNat 32 (s.rd.rng.toNat / 2 ^ bits.toNat) }) := by
  rw [execRdDecbin_eq_execRdDec hbits, execRdDec_completes hu hready (totalLegal_two_pow hbits),
    toNat_ofNat_two_pow hbits.2]

/-- Settles O22: the two checks, the completed decode, and the arithmetic of the divisor and the offset. -/
theorem rdDecAnswersTheOffset : Obligations.RdDecAnswersTheOffset := by
  refine fun total s => ⟨fun hphase => ?_, fun hready hrange => ?_, fun hs hready h2 hmax => ?_⟩
  · exact conclude_check_fails hphase
  · exact conclude_operand_fails hready hrange
  · have hu := hs.live_of_ready hready
    obtain ⟨hlow, hhigh⟩ := divisor_bounds hu.rngLow hu.rngHigh h2 hmax
    exact ⟨execRdDec_completes hu hready ⟨h2, hmax⟩, hlow, hhigh,
      Nat.le_sub_one_of_lt (offsetOf_lt (by omega)), offsetOf_eq_top_iff (by omega) h2⟩

/-- Settles O23: with its own operand range, `RD.DECBIN bits` is `RD.DEC 2^bits`. -/
theorem rdDecbinAnswersTheOffset : Obligations.RdDecbinAnswersTheOffset := by
  refine fun bits s => ⟨fun hphase => ?_, fun hready hrange => ?_, fun h1 h16 => ?_, fun hs hready h1 h16 => ?_⟩
  · exact conclude_check_fails hphase
  · exact conclude_operand_fails hready hrange
  · exact execRdDecbin_eq_execRdDec ⟨h1, h16⟩ s
  · exact execRdDecbin_completes (hs.live_of_ready hready) hready ⟨h1, h16⟩

/-! ### Update -/

/-- The checks (u1), (u2) and (u3) of `RD.UPD` all pass (R88). -/
def UpdateAllowed (low high total : Word) (u : RdUnit) : Prop :=
  intervalLegal low high total ∧ u.ext.toNat * total.toNat ≤ u.rng.toNat ∧
    low.toNat ≤ offsetOf u.val.toNat u.ext.toNat total.toNat ∧ offsetOf u.val.toNat u.ext.toNat total.toNat < high.toNat

/-- The new `rng` of an update before it is normalized (R87). -/
def narrowedRng (low high total : Nat) (u : RdUnit) : Nat :=
  if 0 < low then u.ext.toNat * (high - low) else u.rng.toNat - u.ext.toNat * (total - high)

/-- What (u3) amounts to once (u1) and (u2) hold (R88): `val` holds the excluded tail, and less than the tail and the new
`rng` together. -/
theorem offset_in_interval_iff {u : RdUnit} {low high total : Nat} (he : 0 < u.ext.toNat)
    (hval : u.val.toNat < u.rng.toNat) (hlh : low < high) (hht : high ≤ total) (hu2 : u.ext.toNat * total ≤ u.rng.toNat) :
    (low ≤ offsetOf u.val.toNat u.ext.toNat total ∧ offsetOf u.val.toNat u.ext.toNat total < high) ↔
      u.ext.toNat * (total - high) ≤ u.val.toNat ∧
        u.val.toNat - u.ext.toNat * (total - high) < narrowedRng low high total u := by
  have htail : u.ext.toNat * (total - high) ≤ u.ext.toNat * total := Nat.mul_le_mul_left _ (Nat.sub_le _ _)
  have hsplit : u.ext.toNat * (total - low) = u.ext.toNat * (total - high) + u.ext.toNat * (high - low) := by
    rw [← Nat.mul_add]; congr 1; omega
  rw [offset_inside he hlh hht, narrowedRng, hsplit]
  split <;> omega

section
variable {low high total : Word} {u : RdUnit}

theorem updateChecks_pass (he : 0 < u.ext.toNat) (h : UpdateAllowed low high total u) :
    updateChecks low high total u = .ok () := by
  obtain ⟨h1, h2, h3⟩ := h
  rw [updateChecks, requireOperand, require_bind h1, requireOperand, require_bind h2, cachedOffset, if_neg he.ne', ok_bind]
  exact require_of h3

theorem updateChecks_fail (he : 0 < u.ext.toNat) (h : ¬UpdateAllowed low high total u) :
    updateChecks low high total u = .error (.answer .operand) := by
  unfold updateChecks requireOperand
  by_cases h1 : intervalLegal low high total
  · rw [require_bind h1]
    by_cases h2 : u.ext.toNat * total.toNat ≤ u.rng.toNat
    · rw [require_bind h2, cachedOffset, if_neg he.ne', ok_bind]
      exact require_not fun h3 => h ⟨h1, h2, h3⟩
    · exact require_bind_not h2
  · exact require_bind_not h1

theorem execRdUpd_refused {s : State} (hpair : s.rd.phase = .pair) (he : 0 < s.rd.ext.toNat)
    (h : ¬UpdateAllowed low high total s.rd) : execRdUpd low high total s = .next (s.refuse .operand) := by
  rw [execRdUpd, requirePair, require_bind hpair, updateChecks_fail he h]
  rfl

/-- `RD.UPD` whose checks pass completes with what the update writes (R87). -/
theorem execRdUpd_completes {s : State} {w : RdUnit} (hpair : s.rd.phase = .pair) (he : 0 < s.rd.ext.toNat)
    (h : UpdateAllowed low high total s.rd) (hw : update s.pkt low.toNat high.toNat total.toNat s.rd = .ok w) :
    execRdUpd low high total s = .next ({ s with rd := { w with phase := .ready } }.answer .ok .zero) := by
  rw [execRdUpd, requirePair, require_bind hpair, updateChecks_pass he h, ok_bind, hw]
  rfl

/-- An update whose checks pass narrows `val` and `rng` and normalizes (R87). -/
theorem update_of_allowed {m : ByteSpace} (hu : u.Live m.size) (he : 0 < u.ext.toNat) (h : UpdateAllowed low high total u) :
    ∃ w, update m low.toNat high.toNat total.toNat u = .ok w ∧
      Normalized m u (u.val.toNat - u.ext.toNat * (total.toNat - high.toNat))
        (narrowedRng low.toNat high.toNat total.toNat u) w := by
  obtain ⟨⟨⟨hlh, hht⟩, -⟩, hu2, hu3⟩ := h
  exact update_spec hu.viewOk hu.valBelow hu.rngHigh he hlh hht hu2 hu3

/-- The symbol that is the whole range leaves a normalized unit as it was (R87). -/
theorem update_whole_range {m : ByteSpace} (h : codeBot < u.rng.toNat) (total : Nat) : update m 0 total total u = .ok u := by
  have hsame : { u with val := BitVec.ofNat 31 (u.val.toNat - u.ext.toNat * (total - total)),
                        rng := BitVec.ofNat 32 (u.rng.toNat - u.ext.toNat * (total - total)) } = u := by
    simp
  rw [update, if_neg (lt_irrefl 0), hsame]
  exact normalize_keeps h

end

theorem Inv.live_of_pair {s : State} (hs : Inv s) (h : s.rd.phase = .pair) : s.rd.Live s.pkt.size :=
  hs.rd (by rw [h]; nofun)

theorem Inv.ext_pos_of_pair {s : State} (hs : Inv s) (h : s.rd.phase = .pair) : 0 < s.rd.ext.toNat :=
  Nat.two_pow_pos 7 |>.trans_le ((hs.live_of_pair h).pairExt h).1

/-- The checks as the statements write them. -/
theorem updateAllowed_iff {low high total : Word} {u : RdUnit} : UpdateAllowed low high total u ↔
    (low.toNat < high.toNat ∧ high.toNat ≤ total.toNat ∧ 2 ≤ total.toNat ∧ total.toNat ≤ 65536) ∧
      u.ext.toNat * total.toNat ≤ u.rng.toNat ∧ low.toNat ≤ offsetOf u.val.toNat u.ext.toNat total.toNat ∧
      offsetOf u.val.toNat u.ext.toNat total.toNat < high.toNat := by
  simp only [UpdateAllowed, intervalLegal, totalLegal, maxTotal, and_assoc]

/-- Settles O24: the phase check, then the checks of R88, then the narrowed and normalized registers. -/
theorem rdUpdNarrowsToTheSymbol : Obligations.RdUpdNarrowsToTheSymbol := by
  refine fun low high total s => ⟨fun hphase => conclude_check_fails hphase, fun hs hpair => ?_⟩
  have hu := hs.live_of_pair hpair
  have he := hs.ext_pos_of_pair hpair
  refine ⟨fun h => ?_, fun h => ?_, fun h hlow hhigh => ?_⟩
  · exact execRdUpd_refused hpair he (mt updateAllowed_iff.1 h)
  · obtain ⟨w, hw, hnorm⟩ := update_of_allowed hu he (updateAllowed_iff.2 h)
    exact ⟨w, hnorm, execRdUpd_completes hpair he (updateAllowed_iff.2 h) hw⟩
  · subst hlow hhigh
    exact execRdUpd_completes hpair he (updateAllowed_iff.2 h) (update_whole_range hu.rngLow _)

/-- Settles O25: a failed check refuses, (u3) by `offset_in_interval_iff`, and the bounds by `interval_bounds`. -/
theorem rdUpdChecks : Obligations.RdUpdChecks := by
  intro low high total s hs hpair
  have hu := hs.live_of_pair hpair
  have he := hs.ext_pos_of_pair hpair
  refine ⟨fun h => ?_, fun ⟨hlh, hht, _⟩ hu2 => ?_, fun ⟨hlh, hht, _⟩ hu2 hu3 => ?_⟩
  · exact execRdUpd_refused hpair he (mt updateAllowed_iff.1 h)
  · exact offset_in_interval_iff he hu.valBelow hlh hht hu2
  · obtain ⟨-, hbelow, hle⟩ := interval_bounds hu.valBelow he hlh hht hu2 hu3
    exact ⟨Nat.zero_lt_of_lt hbelow, hle⟩

/-! ### An update after a decode -/

/-- After a decode of `total`, the checks of an update with that total come down to (u1) and the offset answered (R89). -/
theorem updateAllowed_of_decoded {low high total : Word} {s : State} (htotal : totalLegal total)
    (hlow : low.toNat ≤ offsetOf s.rd.val.toNat (s.rd.rng.toNat / total.toNat) total.toNat)
    (hhigh : offsetOf s.rd.val.toNat (s.rd.rng.toNat / total.toNat) total.toNat < high.toNat)
    (hht : high.toNat ≤ total.toNat) : UpdateAllowed low high total (s.decoded total.toNat).rd := by
  unfold UpdateAllowed
  rw [State.decoded_ext]
  exact ⟨⟨⟨hlow.trans_lt hhigh, hht⟩, htotal⟩, Nat.div_mul_le_self _ _, hlow, hhigh⟩

/-- A decode answered `OK` was legal, answered the offset, and has written what `State.decoded` says (R85). -/
theorem execRdDec_answered_ok {total : Word} {s t : State} {r : Results} (hs : Inv s)
    (ht : execRdDec total s = .next t) (hr : t.lastResponse = some { status := .ok, results := r }) :
    totalLegal total ∧ t = (s.decoded total.toNat).answer .ok r ∧
      r.r0.toNat = offsetOf s.rd.val.toNat (s.rd.rng.toNat / total.toNat) total.toNat := by
  obtain ⟨hready, ht'⟩ := check_of_answered_ok ht hr nofun
  obtain ⟨htotal, -⟩ := check_of_answered_ok ht' hr nofun
  cases ht.symm.trans (execRdDec_completes (hs.live_of_ready hready) hready htotal)
  cases (lastResponse_answer _ _ _).symm.trans hr
  refine ⟨htotal, rfl, Nat.mod_eq_of_lt ?_⟩
  exact (offsetOf_lt (by omega)).trans total.isLt

/-- An update that follows the contract with the decode before it completes (R89). -/
theorem execRdUpd_after_execRdDec {low high total : Word} {s t : State} {r : Results} (hs : Inv s)
    (ht : execRdDec total s = .next t) (hr : t.lastResponse = some { status := .ok, results := r })
    (hlow : low.toNat ≤ r.r0.toNat) (hhigh : r.r0.toNat < high.toNat) (hht : high.toNat ≤ total.toNat) :
    ∃ v, execRdUpd low high total t = .next v ∧ v.lastResponse = some { status := .ok, results := .zero } := by
  obtain ⟨htotal, rfl, ho⟩ := execRdDec_answered_ok hs ht hr
  rw [ho] at hlow hhigh
  obtain ⟨t', ht', hinv⟩ := execRdDec_keeps_inv hs total
  cases ht.symm.trans ht'
  have hpair : ((s.decoded total.toNat).answer .ok r).rd.phase = .pair := rfl
  have hallow := updateAllowed_of_decoded htotal hlow hhigh hht
  have he := hinv.ext_pos_of_pair hpair
  obtain ⟨w, hw, -⟩ := update_of_allowed (hinv.live_of_pair hpair) he hallow
  exact ⟨_, execRdUpd_completes hpair he hallow hw, lastResponse_answer _ _ _⟩

/-- Settles O26: in `PAIR` the phase check refuses; and what a completed decode has written makes the checks of R88 hold.
`RD.DECBIN` is `RD.DEC` of a power of two. -/
theorem pairedUpdateIsNeverRefused : Obligations.PairedUpdateIsNeverRefused := by
  refine ⟨fun s x y z hpair => ?_, fun total o ext low high s t hs ht hr hlow hhigh hht => ?_,
    fun bits o ext low high s t hs ht hr hlow hhigh hht => ?_⟩
  · have hphase : ¬s.rd.phase = .ready := by rw [hpair]; nofun
    exact ⟨conclude_check_fails hphase, conclude_check_fails hphase, conclude_check_fails hphase,
      conclude_check_fails hphase, conclude_check_fails hphase, conclude_check_fails hphase⟩
  · exact execRdUpd_after_execRdDec hs ht hr hlow hhigh hht
  · obtain ⟨-, ht'⟩ := check_of_answered_ok ht hr nofun
    obtain ⟨hbits, -⟩ := check_of_answered_ok ht' hr nofun
    have hdec := (execRdDecbin_eq_execRdDec hbits s).symm.trans ht
    exact execRdUpd_after_execRdDec hs hdec hr hlow hhigh (by rwa [toNat_ofNat_two_pow hbits.2])

end Sys2Proof.Machine

namespace Sys2Proof.Machine

/-!
The state after `RD.INIT` (O19) and what the tell commands answer there (O43).
-/

/-! ### The first four bytes -/

/-- The cursor after the first byte of a view (R45). -/
theorem firstByteRead_offs {m : ByteSpace} {u : RdUnit} (h0 : u.offs.toNat = 0) :
    (firstByteRead m u).offs.toNat = min 1 u.len.toNat := by
  show (BitVec.ofNat 25 (min (u.offs.toNat + 1) u.len.toNat)).toNat = _
  rw [h0]
  exact Nat.mod_eq_of_lt ((min_le_right _ _).trans_lt u.len.isLt)

/-- After the first byte of a view the bytes from the second on are the next ones (R45). -/
theorem viewByte_firstByteRead {m : ByteSpace} {u : RdUnit} (h0 : u.offs.toNat = 0) (j : Nat) :
    viewByte m (firstByteRead m u) ((firstByteRead m u).offs.toNat + j) = viewByte m u (j + 1) := by
  rw [firstByteRead_offs h0, viewByte_congr m (v := firstByteRead m u) (u := u) rfl rfl]
  unfold viewByte
  by_cases hj : j + 1 < u.len.toNat
  · rw [show min 1 u.len.toNat + j = j + 1 by omega]
  · rw [if_neg (by omega), if_neg hj]

theorem nextBytes_three_firstByteRead {m : ByteSpace} {u : RdUnit} (h0 : u.offs.toNat = 0) :
    nextBytes m (firstByteRead m u) 3 = (viewByte m u 1 * 256 + viewByte m u 2) * 256 + viewByte m u 3 := by
  simp only [nextBytes, viewByte_firstByteRead h0, Nat.zero_mul, Nat.zero_add, Nat.reduceAdd]

theorem firstByteRead_rem {m : ByteSpace} {u : RdUnit} (h0 : u.offs.toNat = 0) :
    (firstByteRead m u).rem.toNat = viewByte m u 0 := by
  show (BitVec.ofNat 8 (viewByte m u u.offs.toNat)).toNat = _
  rw [h0]
  exact Nat.mod_eq_of_lt (viewByte_lt m u 0)

/-- The first byte's complement and three iterations' symbol bits are the complement of the first 31 bits of the view
(R83). -/
theorem initialVal_eq {b0 b1 b2 b3 : Nat} (h0 : b0 < 256) (h1 : b1 < 256) (h2 : b2 < 256) (h3 : b3 < 256) :
    (127 - b0 / 2) * 256 ^ 3 + (256 ^ 3 - 1 - (b0 % 2 * 256 ^ 3 + ((b1 * 256 + b2) * 256 + b3)) / 2) =
      0x7FFFFFFF - (((b0 * 256 + b1) * 256 + b2) * 256 + b3) / 2 := by
  omega

/-- `rng = 128` takes three iterations to exceed 2^23 (R83). -/
theorem Normalized.by_three {m : ByteSpace} {u w : RdUnit} {val : Nat} (h : Normalized m u val 128 w) :
    NormalizedBy m 3 u val 128 w := by
  obtain ⟨k, hk, hgt, -, hw⟩ := h
  have h3 : 3 ≤ k := by
    by_contra hlt
    have hle : 256 ^ k ≤ 256 ^ 2 := Nat.pow_le_pow_right (by norm_num) (by omega)
    have hcb : codeBot = 128 * 256 ^ 2 := rfl
    omega
  obtain rfl : k = 3 := by omega
  exact hw

/-- `u`, at the start of its view, after the rest of `RD.INIT` (R83). -/
def startedDecoder (m : ByteSpace) (u : RdUnit) : RdUnit :=
  { u with
    val := BitVec.ofNat 31 (0x7FFFFFFF -
      (((viewByte m u 0 * 256 + viewByte m u 1) * 256 + viewByte m u 2) * 256 + viewByte m u 3) / 2)
    rng := 0x80000000
    rem := BitVec.ofNat 8 (viewByte m u 3)
    nbitsTotal := 33
    offs := BitVec.ofNat 25 (min u.len.toNat 4) }

/-- The rest of `RD.INIT` in closed form (R83). -/
theorem startDecoder_eq {m : ByteSpace} {u : RdUnit} (h : u.ViewOk m.size) (h0 : u.offs.toNat = 0) :
    startDecoder m u = .ok (startedDecoder m u) := by
  obtain ⟨w, hw, hnorm⟩ := startDecoder_spec h
  rw [h0] at hnorm
  have hrem : viewByte m (firstByteRead m u) ((firstByteRead m u).offs.toNat + 3 - 1) = viewByte m u 3 :=
    viewByte_firstByteRead h0 2
  have hoffs : min ((firstByteRead m u).offs.toNat + 3) (firstByteRead m u).len.toNat = min u.len.toNat 4 := by
    rw [firstByteRead_offs h0]
    show min (min 1 u.len.toNat + 3) u.len.toNat = _
    omega
  rw [hw, hnorm.by_three, firstByteRead_rem h0, nextBytes_three_firstByteRead h0, hrem, hoffs,
    initialVal_eq (viewByte_lt m u 0) (viewByte_lt m u 1) (viewByte_lt m u 2) (viewByte_lt m u 3)]
  rfl

/-! ### `RD.INIT` -/

/-- `RD.INIT` of a legal view, in closed form (R83). -/
theorem execRdInit_eq {base len : Word} {s : State} (h : viewLegal base len s.pkt.size) :
    execRdInit base len s = .next ({ s with
      rd := startedDecoder s.pkt (emptyDecoder base len (Config.freeExt s.freeCount))
      freeCount := s.freeCount + 1 }.answer .ok .zero) := by
  rw [execRdInit, requireOperand, require_bind h, startDecoder_eq (emptyDecoder_viewOk h) rfl]
  rfl

/-- A byte of the view of a new decoder (R45, R80). -/
theorem viewByte_emptyDecoder {m : ByteSpace} {base len : Word} {ext : BitVec 32} (h : viewBounded base len) (j : Nat) :
    viewByte m (emptyDecoder base len ext) j =
      if j < len.toNat then (m.bytes.read (base.toNat + j)).toNat else 0 := by
  show (if j < (len.setWidth 25).toNat then (m.bytes.read ((base.setWidth 25).toNat + j)).toNat else 0) = _
  rw [setWidth25_toNat h.1, setWidth25_toNat h.2]

/-- Settles O19: the closed form, with the view's registers as the operands they hold. -/
theorem rdInitStartsTheDecoder : Obligations.RdInitStartsTheDecoder := by
  intro base len s hbase hlen hin b w
  have hview : viewLegal base len s.pkt.size := ⟨⟨hbase, hlen⟩, hin⟩
  refine ⟨Config.freeExt s.freeCount, s.freeCount + 1, (execRdInit_eq hview).trans ?_⟩
  have hlen' : (emptyDecoder base len (Config.freeExt s.freeCount)).len.toNat = len.toNat := setWidth25_toNat hlen
  simp only [startedDecoder, viewByte_emptyDecoder hview.1, hlen']
  rw [BitVec.ofNat_toNat, BitVec.ofNat_toNat]
  rfl

/-! ### The tell commands -/

/-- A tell command on a normalized `rng` answers its count and writes nothing (R121, R123, R125). -/
theorem conclude_tell {s : State} {x y : Word} (hinit : s.rd.phase ≠ .idle) (hrng : rngNormalized s.rd.rng.toNat)
    (hxy : x = y) :
    conclude s (requireTellable s >>= fun _ => .ok ({ r0 := x }, s)) = .next (s.answer .ok { r0 := y }) := by
  rw [requireTellable, requireInitialised, require_bind hinit, require_of hrng, hxy]
  rfl

/-- The tell commands at `rng = 2^31`, whose logarithm has no fraction, with 33 bits counted (R121 to R125). -/
theorem exec_tell_at_codeTop {t : State} (hinit : t.rd.phase ≠ .idle) (hrng : t.rd.rng = 0x80000000)
    (hn : t.rd.nbitsTotal = 33) :
    exec .rdTell t = .next (t.answer .ok { r0 := match t.params.tellLog with | .flog2 => 2 | .ilog => 1 }) ∧
      exec .rdTellf t = .next (t.answer .ok { r0 := match t.params.tellLog with | .flog2 => 16 | .ilog => 8 }) ∧
      exec .rdTellff t = .next (t.answer .ok { r0 := match t.params.tellLog with | .flog2 => 16 | .ilog => 8 }) := by
  have hnorm : rngNormalized t.rd.rng.toNat := by rw [hrng]; decide
  refine ⟨conclude_tell hinit hnorm ?_, conclude_tell hinit hnorm ?_, conclude_tell hinit hnorm ?_⟩
  · rw [tellWhole, hrng, hn]
    cases t.params.tellLog <;> decide
  · rw [tellEighths, hrng, hn]
    cases t.params.tellLog <;> decide
  · rw [tellEighths, hrng, hn]
    cases t.params.tellLog <;> decide

/-- Settles O43: `RD.INIT` leaves `rng = 2^31` with 33 bits counted (O19). -/
theorem tellAfterInit : Obligations.TellAfterInit := fun _ _ _ hview =>
  ⟨_, execRdInit_eq hview, exec_tell_at_codeTop nofun rfl rfl⟩

end Sys2Proof.Machine

namespace Sys2Proof.Machine

/-!
`RD.ICDF` is `RD.DECBIN` and `RD.UPD` with the interval of its entry (O32).
-/

/-! ### `Normalize()` and the registers of a pending decode -/

/-- `u` with a decode pending: another divisor and another phase. -/
def RdUnit.withDecode (ext : BitVec 32) (phase : RdPhase) (u : RdUnit) : RdUnit := { u with ext := ext, phase := phase }

theorem fwdByte_withDecode (m : ByteSpace) (ext : BitVec 32) (phase : RdPhase) (u : RdUnit) :
    fwdByte m (u.withDecode ext phase) = (fun bu => (bu.1, bu.2.withDecode ext phase)) <$> fwdByte m u := by
  unfold fwdByte
  by_cases h : u.offs.toNat < u.len.toNat
  · rw [if_pos h, if_pos (show (u.withDecode ext phase).offs.toNat < (u.withDecode ext phase).len.toNat from h), map_bind]
    rfl
  · rw [if_neg h, if_neg (show ¬(u.withDecode ext phase).offs.toNat < (u.withDecode ext phase).len.toNat from h)]
    rfl

theorem normalizeStep_withDecode (m : ByteSpace) (ext : BitVec 32) (phase : RdPhase) (u : RdUnit) :
    normalizeStep m (u.withDecode ext phase) = RdUnit.withDecode ext phase <$> normalizeStep m u := by
  unfold normalizeStep
  rw [fwdByte_withDecode]
  cases fwdByte m u <;> rfl

theorem normalizeLoop_withDecode (m : ByteSpace) (ext : BitVec 32) (phase : RdPhase) : ∀ (n : Nat) (u : RdUnit),
    normalizeLoop m n (u.withDecode ext phase) = RdUnit.withDecode ext phase <$> normalizeLoop m n u := by
  intro n
  induction n with
  | zero =>
    intro u
    show (if u.rng.toNat ≤ codeBot then _ else _) = _ <$> (if u.rng.toNat ≤ codeBot then _ else _)
    split <;> rfl
  | succ n ih =>
    intro u
    show (if u.rng.toNat ≤ codeBot then _ else _) = _ <$> (if u.rng.toNat ≤ codeBot then _ else _)
    split
    · rw [normalizeStep_withDecode]
      cases normalizeStep m u with
      | error e => rfl
      | ok v => exact ih v
    · rfl

/-- `Normalize()` neither reads nor writes the divisor and the phase (R82, R84). -/
theorem normalize_withDecode (m : ByteSpace) (ext : BitVec 32) (phase : RdPhase) (u : RdUnit) :
    normalize m (u.withDecode ext phase) = RdUnit.withDecode ext phase <$> normalize m u :=
  normalizeLoop_withDecode m ext phase 3 u

/-! ### What a scan that ends has found -/

/-- A scan that answers has passed entries above `val` and stopped at the first that is not; each was within the scale
(R106). -/
theorem icdfScan_eq_ok {tbl : ByteSpace} {tblBase ftb r val : Nat} : ∀ {left k t : Nat} {y : Symbol},
    icdfScan tbl tblBase ftb r val left k t = .ok y → val < t →
      ∃ j, j < left ∧ y.index = k + j + 1 ∧ y.lower = r * (tbl.bytes.read (tblBase + (k + j))).toNat ∧
        y.upper = (if j = 0 then t else r * (tbl.bytes.read (tblBase + (k + j - 1))).toNat) ∧
        y.lower ≤ val ∧ val < y.upper ∧ (tbl.bytes.read (tblBase + (k + j))).toNat ≤ 2 ^ ftb := by
  intro left
  induction left with
  | zero => intro k t y h; cases h
  | succ left ih =>
    intro k t y h hvt
    rw [icdfScan] at h
    obtain ⟨e, he, h⟩ := bind_eq_ok.1 h
    obtain ⟨_, hle, h⟩ := bind_eq_ok.1 h
    obtain ⟨-, rfl⟩ := ByteSpace.get_eq_ok.1 he
    split at h
    next hstop =>
      cases h
      exact ⟨0, Nat.succ_pos _, rfl, rfl, rfl, hstop, hvt, require_eq_ok.1 hle⟩
    next hpass =>
      obtain ⟨j, hj, hindex, hlower, hupper, h1, h2, h3⟩ := ih h (Nat.lt_of_not_le hpass)
      have hnext : k + 1 + j = k + (j + 1) := by omega
      rw [hnext] at hindex hlower hupper h3
      refine ⟨j + 1, Nat.succ_lt_succ hj, hindex, hlower, ?_, h1, h2, h3⟩
      rw [hupper, if_neg (Nat.succ_ne_zero j)]
      cases j <;> rfl

/-- `y` is the symbol of entry `k` for a unit with `r = rng / 2^ftb` (R106): its edges are those of the entry and of the one
before it, and they hold `val`. -/
structure SymbolAt (tbl : ByteSpace) (tblBase : Word) (ftb k : Nat) (u : RdUnit) (y : Symbol) : Prop where
  entryLe : tableEntry tbl tblBase k ≤ 2 ^ ftb
  lower : y.lower = u.rng.toNat / 2 ^ ftb * tableEntry tbl tblBase k
  upper : y.upper = if k = 0 then u.rng.toNat else u.rng.toNat / 2 ^ ftb * tableEntry tbl tblBase (k - 1)
  lowerLe : y.lower ≤ u.val.toNat
  valLt : u.val.toNat < y.upper

/-- Indices within a table are told apart by their 32-bit results (R106). -/
theorem index_inj {len : Word} {j k : Nat} (hj : j < len.toNat) (hk : k < len.toNat)
    (h : BitVec.ofNat 32 (j + 1) = BitVec.ofNat 32 (k + 1)) : j = k := by
  have hlen := len.isLt
  have hnat := congrArg BitVec.toNat h
  rw [BitVec.toNat_ofNat, BitVec.toNat_ofNat, Nat.mod_eq_of_lt (by omega), Nat.mod_eq_of_lt (by omega)] at hnat
  omega

/-- An `RD.ICDF` answered with index `k + 1` had a legal scale and has taken the symbol of entry `k` (R106). -/
theorem execRdIcdf_answered_ok {tblBase tblLen ftb : Word} {s t : State} {k : Nat} (hu : s.rd.Live s.pkt.size)
    (ht : execRdIcdf tblBase tblLen ftb s = .next t)
    (hr : t.lastResponse = some { status := .ok, results := { r0 := BitVec.ofNat 32 (k + 1) } }) (hk : k < tblLen.toNat) :
    ftbLegal ftb ∧ ∃ y, SymbolAt s.tbl tblBase ftb.toNat k s.rd y ∧ normalize s.pkt (takeSymbol y s.rd) = .ok t.rd := by
  obtain ⟨-, ht⟩ := check_of_answered_ok ht hr nofun
  obtain ⟨-, ht⟩ := check_of_answered_ok ht hr nofun
  obtain ⟨hftb, ht⟩ := check_of_answered_ok ht hr nofun
  obtain ⟨v, hbody, rfl⟩ := conclude_answered_ok ht hr <| haltsWithin_bind (haltsWithin_icdfScan nofun _ _ _) fun _ =>
    haltsWithin_bind haltsWithin_normalize fun _ => haltsWithin_ok
  obtain ⟨y, hy, hbody⟩ := bind_eq_ok.1 hbody
  obtain ⟨w, hw, hbody⟩ := bind_eq_ok.1 hbody
  simp only [Except.ok.injEq, Prod.mk.injEq, Results.mk.injEq, and_true] at hbody
  obtain ⟨hr0, rfl⟩ := hbody
  obtain ⟨j, hj, hindex, hlower, hupper, hle, hlt, hentry⟩ := icdfScan_eq_ok hy hu.valBelow
  simp only [Nat.zero_add, Nat.shiftRight_eq_div_pow] at hindex hlower hupper hentry
  rw [hindex] at hr0
  obtain rfl := index_inj hj hk hr0
  exact ⟨hftb, y, ⟨hentry, hlower, hupper, hle, hlt⟩, hw⟩

/-! ### The interval of a symbol -/

/-- The entry before entry `k`, or the scale before the first (R107). -/
def entryBefore (tbl : ByteSpace) (tblBase : Word) (ftb k : Nat) : Nat :=
  if k = 0 then 2 ^ ftb else tableEntry tbl tblBase (k - 1)

section
variable {tbl : ByteSpace} {tblBase : Word} {ftb k : Nat} {s : State} {y : Symbol}

/-- The entries around a symbol fall (R107). -/
theorem SymbolAt.entry_lt (h : SymbolAt tbl tblBase ftb k s.rd y)
    (hprev : tableEntry tbl tblBase (k - 1) < 2 ^ ftb) :
    tableEntry tbl tblBase k < entryBefore tbl tblBase ftb k ∧ entryBefore tbl tblBase ftb k ≤ 2 ^ ftb := by
  unfold entryBefore
  by_cases hk : k = 0
  · subst hk
    exact ⟨by simpa using hprev, by simp⟩
  · rw [if_neg hk]
    refine ⟨?_, hprev.le⟩
    have hedges := h.lowerLe.trans_lt h.valLt
    rw [h.lower, h.upper, if_neg hk] at hedges
    exact Nat.lt_of_mul_lt_mul_left hedges

/-- The excluded tail of the update is the lower edge of the symbol (R107). -/
theorem SymbolAt.tail_eq (h : SymbolAt tbl tblBase ftb k s.rd y) :
    (s.decoded (2 ^ ftb)).rd.ext.toNat * (2 ^ ftb - (2 ^ ftb - tableEntry tbl tblBase k)) = y.lower := by
  rw [State.decoded_ext, h.lower, Nat.sub_sub_self h.entryLe]

/-- The update leaves the width of the symbol as `rng` (R107). For `k > 0` this needs the entry before to be below the scale:
`low` is then above 0, and no remainder of `rng` is kept. -/
theorem SymbolAt.narrowedRng_eq (h : SymbolAt tbl tblBase ftb k s.rd y)
    (hprev : tableEntry tbl tblBase (k - 1) < 2 ^ ftb) :
    narrowedRng (2 ^ ftb - entryBefore tbl tblBase ftb k) (2 ^ ftb - tableEntry tbl tblBase k) (2 ^ ftb)
      (s.decoded (2 ^ ftb)).rd = y.upper - y.lower := by
  have htail := h.tail_eq
  unfold narrowedRng entryBefore
  by_cases hk : k = 0
  · rw [htail, if_pos hk, if_neg (by omega), h.upper, if_pos hk]
    rfl
  · have hle := h.entryLe
    rw [if_neg hk, if_pos (by omega), State.decoded_ext, h.upper, if_neg hk, h.lower, ← Nat.mul_sub]
    congr 1
    omega

/-- The offset of the decode lies in the interval of the symbol the scan finds (R107). -/
theorem SymbolAt.offset_in_interval (h : SymbolAt tbl tblBase ftb k s.rd y) (hval : s.rd.val.toNat < s.rd.rng.toNat)
    (hext : 0 < (s.decoded (2 ^ ftb)).rd.ext.toNat) (hprev : tableEntry tbl tblBase (k - 1) < 2 ^ ftb) :
    2 ^ ftb - entryBefore tbl tblBase ftb k ≤ offsetOf s.rd.val.toNat (s.rd.rng.toNat / 2 ^ ftb) (2 ^ ftb) ∧
      offsetOf s.rd.val.toNat (s.rd.rng.toNat / 2 ^ ftb) (2 ^ ftb) < 2 ^ ftb - tableEntry tbl tblBase k := by
  obtain ⟨hlt, hle⟩ := h.entry_lt hprev
  rw [← State.decoded_ext]
  refine (offset_in_interval_iff (u := (s.decoded (2 ^ ftb)).rd) hext hval (by omega) (Nat.sub_le _ _) ?_).2 ?_
  · rw [State.decoded_ext]
    exact Nat.div_mul_le_self _ _
  · rw [h.tail_eq, h.narrowedRng_eq hprev]
    have h1 := h.lowerLe
    have h2 := h.valLt
    exact ⟨h1, show s.rd.val.toNat - y.lower < _ by omega⟩

/-- The update after the decode computes as the symbol command does (R107). -/
theorem SymbolAt.update_eq (h : SymbolAt tbl tblBase ftb k s.rd y)
    (hprev : tableEntry tbl tblBase (k - 1) < 2 ^ ftb) (m : ByteSpace) :
    update m (2 ^ ftb - entryBefore tbl tblBase ftb k) (2 ^ ftb - tableEntry tbl tblBase k) (2 ^ ftb)
      (s.decoded (2 ^ ftb)).rd =
        RdUnit.withDecode (s.decoded (2 ^ ftb)).rd.ext .pair <$> normalize m (takeSymbol y s.rd) := by
  have hrng := h.narrowedRng_eq hprev
  unfold narrowedRng at hrng
  rw [← normalize_withDecode, update, hrng, h.tail_eq]
  rfl

/-- After the decode of the scale, the update with the interval of the symbol the scan finds completes, with the registers of
that symbol taken and the divisor of the decode (R107). -/
theorem SymbolAt.update_completes {low high total : Word} {w : RdUnit} (h : SymbolAt s.tbl tblBase ftb k s.rd y)
    (hu : s.rd.Live s.pkt.size) (hprev : tableEntry s.tbl tblBase (k - 1) < 2 ^ ftb)
    (hw : normalize s.pkt (takeSymbol y s.rd) = .ok w) (hlegal : totalLegal total) (htotal : total.toNat = 2 ^ ftb)
    (hlow : low.toNat = 2 ^ ftb - entryBefore s.tbl tblBase ftb k)
    (hhigh : high.toNat = 2 ^ ftb - tableEntry s.tbl tblBase k) (r : Results) :
    execRdUpd low high total ((s.decoded (2 ^ ftb)).answer .ok r) =
      .next ({ (s.decoded (2 ^ ftb)).answer .ok r with
        rd := { w with ext := (s.decoded (2 ^ ftb)).rd.ext, phase := .ready } }.answer .ok .zero) := by
  have hext := hu.decoded_ext_pos hlegal
  rw [htotal] at hext
  obtain ⟨hoff₁, hoff₂⟩ := h.offset_in_interval hu.valBelow hext hprev
  have hupdate := h.update_eq hprev s.pkt
  rw [hw, ← hlow, ← hhigh, ← htotal] at hupdate
  rw [← hlow, ← htotal] at hoff₁
  rw [← hhigh, ← htotal] at hoff₂
  have hallow := updateAllowed_of_decoded hlegal hoff₁ hoff₂ (by omega)
  rw [← htotal] at hext ⊢
  exact execRdUpd_completes (s := (s.decoded total.toNat).answer .ok r) rfl hext hallow hupdate

end

/-- Settles O32: the decode caches the divisor of the scan, its offset lies in the symbol's interval, and the update computes
the registers of the symbol command. -/
theorem rdIcdfIsDecbinThenUpd : Obligations.RdIcdfIsDecbinThenUpd := by
  intro tblBase tblLen ftb s t₁ k hs hready ht hr hk hprev
  have hu := hs.live_of_ready hready
  obtain ⟨hftb, y, hy, hw⟩ := execRdIcdf_answered_ok hu ht hr hk
  have hframe := normalize_frame hw
  have hphase : t₁.rd.phase = .ready := by rw [hframe]; exact hready
  refine ⟨_, _, execRdDecbin_completes hu hready hftb,
    hy.update_completes hu hprev hw (totalLegal_two_pow hftb) (toNat_ofNat_two_pow hftb.2)
      (toNat_ofNat_of_le_two_pow hftb.2 (Nat.sub_le _ _)) (toNat_ofNat_of_le_two_pow hftb.2 (Nat.sub_le _ _)) _,
    lastResponse_answer _ _ _, ?_, ?_⟩
  · rw [← hphase]; rfl
  · rw [hframe]; rfl

end Sys2Proof.Machine

namespace Sys2Proof.Machine

/-!
`RD.BITP` (O27), and that it is `RD.DECBIN` and an `RD.UPD` (O28).
-/

/-! ### The bit -/

/-- `RD.BITP` of a legal operand completes with what normalizing the part of `rng` taken leaves (R100). -/
theorem execRdBitp_completes {logp : Word} {s : State} {w : RdUnit} (hready : s.rd.phase = .ready)
    (hlogp : logpLegal logp) (hw : normalize s.pkt (takeBit (s.rd.rng.toNat / 2 ^ logp.toNat) s.rd) = .ok w) :
    execRdBitp logp s = .next ({ s with rd := w }.answer .ok
      { r0 := if s.rd.val.toNat < s.rd.rng.toNat / 2 ^ logp.toNat then 1 else 0 }) := by
  rw [execRdBitp, requireReady, require_bind hready, requireOperand, require_bind hlogp, Nat.shiftRight_eq_div_pow]
  simp only [hw, bitOutcome, decide_eq_true_eq]
  rfl

/-- Taking a bit of a live unit ends (R100). -/
theorem RdUnit.Live.takeBit_normalizes {m : ByteSpace} {u : RdUnit} (hu : u.Live m.size) (d : Nat) :
    ∃ w, normalize m (takeBit (u.rng.toNat / d) u) = .ok w ∧
      Normalized m u (if u.val.toNat < u.rng.toNat / d then u.val.toNat else u.val.toNat - u.rng.toNat / d)
        (if u.val.toNat < u.rng.toNat / d then u.rng.toNat / d else u.rng.toNat - u.rng.toNat / d) w :=
  takeBit_spec hu.viewOk hu.valBelow hu.rngHigh (Nat.div_le_self _ _)

/-- Settles O27: the two checks, then the bit by which side of the part `val` lies on. -/
theorem rdBitpDecodesOneBit : Obligations.RdBitpDecodesOneBit := by
  refine fun logp s => ⟨fun hphase => ?_, fun hready hrange => ?_, fun hs hready h1 h16 => ?_⟩
  · exact conclude_check_fails hphase
  · exact conclude_operand_fails hready hrange
  have hu := hs.live_of_ready hready
  obtain ⟨hlow, hhigh⟩ := divisor_bounds hu.rngLow hu.rngHigh (Nat.pow_le_pow_right Nat.two_pos h1)
    (Nat.pow_le_pow_right Nat.two_pos h16)
  obtain ⟨w, hw, hnorm⟩ := hu.takeBit_normalizes (2 ^ logp.toNat)
  have hexec := execRdBitp_completes hready ⟨h1, h16⟩ hw
  refine ⟨hlow, hhigh, fun hbelow => ⟨w, ?_⟩, fun habove => ⟨w, ?_⟩⟩
  · simp only [if_pos hbelow] at hnorm hexec
    exact ⟨hnorm, hexec⟩
  · simp only [if_neg habove.not_gt] at hnorm hexec
    exact ⟨hnorm, hexec⟩

/-! ### The interval of a bit -/

/-- The offset a decode of `total` answers (R85). -/
def RdUnit.offsetIn (total : Nat) (u : RdUnit) : Nat := offsetOf u.val.toNat (u.rng.toNat / total) total

/-- The lower end of the interval of the bit, for the offset `o` out of `total` (R101). -/
def bitLow (total o : Nat) : Nat := if o = total - 1 then total - 1 else 0

/-- The upper end of that interval (R101). -/
def bitHigh (total o : Nat) : Nat := if o = total - 1 then total else total - 1

/-- The interval of the bit holds the offset (R101). -/
theorem offset_in_bit_interval {total o : Nat} (h : o < total) :
    bitLow total o ≤ o ∧ o < bitHigh total o ∧ bitHigh total o ≤ total := by
  unfold bitLow bitHigh
  split <;> omega

/-- The operands that hold the interval of the bit (R101). -/
theorem bit_interval_operands {bits o : Nat} (h : bits ≤ maxTotalBits) :
    (if o = 2 ^ bits - 1 then BitVec.ofNat 32 (2 ^ bits - 1) else 0).toNat = bitLow (2 ^ bits) o ∧
      (if o = 2 ^ bits - 1 then BitVec.ofNat 32 (2 ^ bits) else BitVec.ofNat 32 (2 ^ bits - 1)).toNat =
        bitHigh (2 ^ bits) o := by
  have hlast : (BitVec.ofNat 32 (2 ^ bits - 1)).toNat = 2 ^ bits - 1 := toNat_ofNat_of_le_two_pow h (Nat.sub_le _ _)
  rw [apply_ite BitVec.toNat, apply_ite BitVec.toNat, hlast, toNat_ofNat_two_pow h]
  exact ⟨rfl, rfl⟩

section
variable {total : Nat} {s : State}

/-- The update with the interval of the bit computes as `RD.BITP` does: the bit is 1 iff the offset is the last (R101). -/
theorem update_bit_interval (h2 : 2 ≤ total) (hext : 0 < (s.decoded total).rd.ext.toNat) (m : ByteSpace) :
    update m (bitLow total (s.rd.offsetIn total)) (bitHigh total (s.rd.offsetIn total)) total (s.decoded total).rd =
      RdUnit.withDecode (s.decoded total).rd.ext .pair <$> normalize m (takeBit (s.rd.rng.toNat / total) s.rd) := by
  have hlast : total - (total - 1) = 1 := by omega
  rw [← normalize_withDecode, update, bitLow, bitHigh, takeBit, bitOutcome, State.decoded_ext]
  rw [State.decoded_ext] at hext
  have htop : s.rd.offsetIn total = total - 1 ↔ s.rd.val.toNat < s.rd.rng.toNat / total := offsetOf_eq_top_iff hext h2
  by_cases hbit : s.rd.val.toNat < s.rd.rng.toNat / total
  · rw [if_pos (htop.2 hbit), if_pos (htop.2 hbit), if_pos (by omega), if_pos (decide_eq_true hbit), hlast]
    simp [State.decoded, RdUnit.withDecode]
  · rw [if_neg (mt htop.1 hbit), if_neg (mt htop.1 hbit), if_neg (lt_irrefl 0), if_neg (by simpa using hbit), hlast,
      Nat.mul_one]
    rfl

/-- After a decode, the update with the interval of the bit completes, with the registers of `RD.BITP` and the divisor of the
decode (R101). -/
theorem execRdUpd_bit_interval {low high totalOp : Word} {w : RdUnit} (hu : s.rd.Live s.pkt.size)
    (htotal : totalOp.toNat = total) (hlegal : totalLegal totalOp)
    (hw : normalize s.pkt (takeBit (s.rd.rng.toNat / total) s.rd) = .ok w)
    (hlow : low.toNat = bitLow total (s.rd.offsetIn total)) (hhigh : high.toNat = bitHigh total (s.rd.offsetIn total))
    (r : Results) :
    execRdUpd low high totalOp ((s.decoded total).answer .ok r) =
      .next ({ (s.decoded total).answer .ok r with
        rd := { w with ext := (s.decoded total).rd.ext, phase := .ready } }.answer .ok .zero) := by
  subst htotal
  have hext := hu.decoded_ext_pos hlegal
  obtain ⟨h1, h2, h3⟩ := offset_in_bit_interval (o := s.rd.offsetIn totalOp.toNat)
    (offsetOf_lt (Nat.zero_lt_of_lt hlegal.1))
  have hupdate := update_bit_interval hlegal.1 hext s.pkt
  rw [hw, ← hlow, ← hhigh] at hupdate
  rw [← hlow] at h1
  rw [← hhigh] at h2 h3
  exact execRdUpd_completes (s := (s.decoded totalOp.toNat).answer .ok r) rfl hext
    (updateAllowed_of_decoded hlegal h1 h2 h3) hupdate

end

/-- Settles O28: the decode caches the part of `rng`, and the update with the interval of the bit computes the registers of
`RD.BITP`. -/
theorem rdBitpIsDecbinThenUpd : Obligations.RdBitpIsDecbinThenUpd := by
  intro logp s hs hready h1 h16
  have hu := hs.live_of_ready hready
  have hlegal : totalLegal (BitVec.ofNat 32 (2 ^ logp.toNat)) := totalLegal_two_pow ⟨h1, h16⟩
  have htotal : (BitVec.ofNat 32 (2 ^ logp.toNat)).toNat = 2 ^ logp.toNat := toNat_ofNat_two_pow h16
  have hpos : 0 < s.rd.rng.toNat / 2 ^ logp.toNat := by
    rw [← State.decoded_ext, ← htotal]
    exact hu.decoded_ext_pos hlegal
  obtain ⟨w, hw, -⟩ := hu.takeBit_normalizes (2 ^ logp.toNat)
  have hframe := normalize_frame hw
  rw [takeBit_frame] at hframe
  have hphase : w.phase = .ready := by rw [hframe]; exact hready
  have hoff : (BitVec.ofNat 32 (s.rd.offsetIn (2 ^ logp.toNat))).toNat = s.rd.offsetIn (2 ^ logp.toNat) :=
    toNat_ofNat_of_le_two_pow h16 (offsetOf_lt (Nat.two_pow_pos _)).le
  obtain ⟨hlow, hhigh⟩ := bit_interval_operands (o := (BitVec.ofNat 32 (s.rd.offsetIn (2 ^ logp.toNat))).toNat) h16
  refine ⟨_, _, _, _, _, _, execRdBitp_completes hready ⟨h1, h16⟩ hw, lastResponse_answer _ _ _,
    execRdDecbin_completes hu hready ⟨h1, h16⟩, lastResponse_answer _ _ _,
    execRdUpd_bit_interval hu htotal hlegal hw (hlow.trans (by rw [hoff])) (hhigh.trans (by rw [hoff])) _,
    lastResponse_answer _ _ _, ?_, ?_, ?_⟩
  · rw [← hphase]; rfl
  · rw [hframe]; rfl
  · refine if_congr ?_ rfl rfl
    exact (offsetOf_eq_top_iff hpos (htotal ▸ hlegal.1)).symm.trans (Eq.congr_left hoff).symm

end Sys2Proof.Machine

namespace Sys2Proof.Machine

/-!
`RD.ICDF`: what the scan returns (O29), what it refuses (O30), and terminated tables (O31).
-/

section
variable {tblBase tblLen ftb : Word} {s : State}

/-- `RD.ICDF` with legal operands is its scan, then the symbol taken and normalized (R106). -/
theorem execRdIcdf_eq (hready : s.rd.phase = .ready) (htbl : tableLegal tblBase tblLen s.tbl.size) (hftb : ftbLegal ftb) :
    execRdIcdf tblBase tblLen ftb s = conclude s (do
      let y ← icdfScan s.tbl tblBase.toNat ftb.toNat (s.rd.rng.toNat / 2 ^ ftb.toNat) s.rd.val.toNat
        tblLen.toNat 0 s.rd.rng.toNat
      let u ← normalize s.pkt (takeSymbol y s.rd)
      .ok ({ r0 := BitVec.ofNat 32 y.index }, { s with rd := u })) := by
  rw [execRdIcdf, requireReady, require_bind hready, requireOperand, require_bind htbl, requireOperand, require_bind hftb,
    Nat.shiftRight_eq_div_pow]

/-- The symbol of entry `k` (R106). -/
def symbolOf (tbl : ByteSpace) (tblBase : Word) (ftb k : Nat) (u : RdUnit) : Symbol :=
  { index := k + 1
    lower := u.rng.toNat / 2 ^ ftb * tableEntry tbl tblBase k
    upper := if k = 0 then u.rng.toNat else u.rng.toNat / 2 ^ ftb * tableEntry tbl tblBase (k - 1) }

/-- Entry `k` is the first one that `val` reaches, and no entry up to it is above the scale (R106). -/
structure FirstReached (tbl : ByteSpace) (tblBase : Word) (ftb k : Nat) (u : RdUnit) : Prop where
  entriesLe : ∀ j, j ≤ k → tableEntry tbl tblBase j ≤ 2 ^ ftb
  passed : ∀ j, j < k → u.val.toNat < u.rng.toNat / 2 ^ ftb * tableEntry tbl tblBase j
  reached : u.rng.toNat / 2 ^ ftb * tableEntry tbl tblBase k ≤ u.val.toNat

/-- The scan finds the symbol of the first entry reached (R106). -/
theorem FirstReached.scan {k : Nat} (h : FirstReached s.tbl tblBase ftb.toNat k s.rd)
    (htbl : tableLegal tblBase tblLen s.tbl.size) (hk : k < tblLen.toNat) :
    icdfScan s.tbl tblBase.toNat ftb.toNat (s.rd.rng.toNat / 2 ^ ftb.toNat) s.rd.val.toNat tblLen.toNat 0 s.rd.rng.toNat =
      .ok (symbolOf s.tbl tblBase ftb.toNat k s.rd) := by
  have hin := htbl.2
  obtain ⟨hle, hpass, hreach⟩ := h
  simp only [tableEntry] at hle hpass hreach
  have hscan := icdfScan_stops (tbl := s.tbl) (tblBase := tblBase.toNat) (t := s.rd.rng.toNat) (k := 0) hk (by omega)
    (by simpa using hle) (by simpa using hpass) (by simpa using hreach)
  rw [hscan]
  simp only [Nat.zero_add]
  rfl

/-- The edges of the first entry reached hold `val` and lie within `rng` (R106). -/
theorem FirstReached.symbol_bounds {tbl : ByteSpace} {scale k : Nat} {u : RdUnit} (h : FirstReached tbl tblBase scale k u)
    (hval : u.val.toNat < u.rng.toNat) :
    (symbolOf tbl tblBase scale k u).lower ≤ u.val.toNat ∧ u.val.toNat < (symbolOf tbl tblBase scale k u).upper ∧
      (symbolOf tbl tblBase scale k u).upper ≤ u.rng.toNat := by
  refine ⟨h.reached, ?_, ?_⟩
  · unfold symbolOf
    split
    next => exact hval
    next hk => exact h.passed (k - 1) (by omega)
  · unfold symbolOf
    split
    next => exact le_rfl
    next hk => exact (Nat.mul_le_mul_left _ (h.entriesLe (k - 1) (by omega))).trans (Nat.div_mul_le_self _ _)

/-- `RD.ICDF` answers the index of the first entry reached and takes its symbol (R106). -/
theorem FirstReached.completes {k : Nat} (h : FirstReached s.tbl tblBase ftb.toNat k s.rd) (hu : s.rd.Live s.pkt.size)
    (hready : s.rd.phase = .ready) (htbl : tableLegal tblBase tblLen s.tbl.size) (hftb : ftbLegal ftb)
    (hk : k < tblLen.toNat) :
    ∃ w, Normalized s.pkt s.rd (s.rd.val.toNat - (symbolOf s.tbl tblBase ftb.toNat k s.rd).lower)
        ((symbolOf s.tbl tblBase ftb.toNat k s.rd).upper - (symbolOf s.tbl tblBase ftb.toNat k s.rd).lower) w ∧
      execRdIcdf tblBase tblLen ftb s = .next ({ s with rd := w }.answer .ok { r0 := BitVec.ofNat 32 (k + 1) }) := by
  obtain ⟨hlow, hup, htop⟩ := h.symbol_bounds hu.valBelow
  obtain ⟨w, hw, hnorm⟩ := takeSymbol_spec hu.viewOk hu.rngHigh hlow hup htop
  refine ⟨w, hnorm, ?_⟩
  rw [execRdIcdf_eq hready htbl hftb, h.scan htbl hk, ok_bind, hw]
  rfl

/-- An `RD.ICDF` answered `OK` answers the 1-based index of an entry of its table (R107 (a)). -/
theorem execRdIcdf_index {t : State} {r : Results} (hval : s.rd.val.toNat < s.rd.rng.toNat)
    (ht : execRdIcdf tblBase tblLen ftb s = .next t) (hr : t.lastResponse = some { status := .ok, results := r }) :
    ∃ k, k < tblLen.toNat ∧ r.r0 = BitVec.ofNat 32 (k + 1) := by
  obtain ⟨-, ht⟩ := check_of_answered_ok ht hr nofun
  obtain ⟨-, ht⟩ := check_of_answered_ok ht hr nofun
  obtain ⟨-, ht⟩ := check_of_answered_ok ht hr nofun
  obtain ⟨v, hbody, -⟩ := conclude_answered_ok ht hr <| haltsWithin_bind (haltsWithin_icdfScan nofun _ _ _) fun _ =>
    haltsWithin_bind haltsWithin_normalize fun _ => haltsWithin_ok
  obtain ⟨y, hy, hbody⟩ := bind_eq_ok.1 hbody
  obtain ⟨w, -, hbody⟩ := bind_eq_ok.1 hbody
  cases hbody
  obtain ⟨k, hk, hindex, -⟩ := icdfScan_eq_ok hy hval
  exact ⟨k, hk, by rw [hindex, Nat.zero_add]⟩

end

/-- Settles O29: the scan stops at the first entry reached (`FirstReached.scan`), whose edges hold `val`. -/
theorem rdIcdfReturnsTheFirstEntryReached : Obligations.RdIcdfReturnsTheFirstEntryReached := by
  intro tblBase tblLen ftb s k hs hready htbl h1 h16 hk e r hle hpass hreach
  have hfirst : FirstReached s.tbl tblBase ftb.toNat k s.rd := ⟨hle, hpass, hreach⟩
  exact hfirst.completes (hs.live_of_ready hready) hready htbl ⟨h1, h16⟩ hk

/-- Settles O30: the scan is refused (`icdfScan_refuses`), and a refusal changes nothing. -/
theorem rdIcdfRefusesABadTable : Obligations.RdIcdfRefusesABadTable := by
  intro tblBase tblLen ftb s k hready htbl h1 h16 hk e hpass hstop
  have hin := htbl.2
  have hscan := icdfScan_refuses (tbl := s.tbl) (tblBase := tblBase.toNat) (ftb := ftb.toNat)
    (r := s.rd.rng.toNat / 2 ^ ftb.toNat) (val := s.rd.val.toNat) (t := s.rd.rng.toNat) (k := 0) hk (by omega)
    (by simpa [e, tableEntry] using hpass) (by simpa [e, tableEntry] using hstop)
  show execRdIcdf tblBase tblLen ftb s = _
  rw [execRdIcdf_eq hready htbl ⟨h1, h16⟩, hscan]
  rfl

/-- A table that ends in 0 with no entry above the scale has a first entry that `val` reaches (R107 (b)). -/
theorem exists_firstReached {tbl : ByteSpace} {tblBase : Word} {ftb n : Nat} {u : RdUnit} (hn : 1 ≤ n)
    (hle : ∀ j, j < n → tableEntry tbl tblBase j ≤ 2 ^ ftb) (hlast : tableEntry tbl tblBase (n - 1) = 0) :
    ∃ k, k < n ∧ FirstReached tbl tblBase ftb k u := by
  have hreach : ∃ k, u.rng.toNat / 2 ^ ftb * tableEntry tbl tblBase k ≤ u.val.toNat := ⟨n - 1, by simp [hlast]⟩
  have hk : Nat.find hreach < n := by
    have : Nat.find hreach ≤ n - 1 := Nat.find_min' hreach (by simp [hlast])
    omega
  exact ⟨Nat.find hreach, hk, fun j hj => hle j (by omega), fun j hj => Nat.lt_of_not_le (Nat.find_min hreach hj),
    Nat.find_spec hreach⟩

/-- Settles O31: the index by what an ending scan has found; a terminated table has an entry that is reached; and a first
entry 0 takes all of `rng`, which is normalized already. -/
theorem aTerminatedTableAlwaysDecodes : Obligations.ATerminatedTableAlwaysDecodes := by
  intro tblBase tblLen ftb s hs hready
  have hu := hs.live_of_ready hready
  refine ⟨fun t r ht hr hok => ?_, fun htbl h1 h16 hle hlast => ?_, fun htbl h1 h16 h0 => ?_⟩
  · obtain ⟨st, r⟩ := r
    cases hok
    obtain ⟨k, hk, hr0⟩ := execRdIcdf_index hu.valBelow ht hr
    have hlen := tblLen.isLt
    simp only [hr0, BitVec.toNat_ofNat]
    omega
  · obtain ⟨k, hk, hfirst⟩ := exists_firstReached (u := s.rd) htbl.1.1 hle hlast
    obtain ⟨w, -, hexec⟩ := hfirst.completes hu hready htbl ⟨h1, h16⟩ hk
    exact ⟨_, _, hexec, lastResponse_answer _ _ _⟩
  · have hfirst : FirstReached s.tbl tblBase ftb.toNat 0 s.rd :=
      ⟨fun j hj => by simp [Nat.le_zero.1 hj, h0], nofun, by simp [h0]⟩
    have htake : takeSymbol (symbolOf s.tbl tblBase ftb.toNat 0 s.rd) s.rd = s.rd := by
      simp [takeSymbol, symbolOf, h0]
    show execRdIcdf tblBase tblLen ftb s = _
    rw [execRdIcdf_eq hready htbl ⟨h1, h16⟩, hfirst.scan htbl htbl.1.1, ok_bind, htake, normalize_keeps hu.rngLow]
    rfl

end Sys2Proof.Machine

namespace Sys2Proof.Machine

/-!
`RD.BITS`: the refill of the cache in closed form (O34) and the raw bits taken (O33).
-/

/-! ### The refill -/

/-- How many tail bytes `RawBits(n)` reads (R108). -/
def refillBytes (n : Nat) (u : RdUnit) : Nat := if u.nendBits.toNat < n then (32 - u.nendBits.toNat) / 8 else 0

/-- How many bits the cache holds once it is refilled for `n` (R108). -/
def heldBits (n : Nat) (u : RdUnit) : Nat := u.nendBits.toNat + 8 * refillBytes n u

/-- A refill leaves at least the bits asked for and no more than the cache has room for (R108). -/
theorem heldBits_bounds {n : Nat} {u : RdUnit} (hcache : u.nendBits.toNat ≤ 32) (hn : n ≤ maxRaw) :
    n ≤ heldBits n u ∧ heldBits n u ≤ 32 ∧
      (u.nendBits.toNat < n → 1 ≤ refillBytes n u ∧ refillBytes n u ≤ 4 ∧ 24 < heldBits n u) := by
  have h25 : maxRaw = 25 := rfl
  unfold heldBits refillBytes
  split <;> omega

/-- A clean cache of `k` bits holds the first `k` raw bits still to come (R20, R108). -/
theorem RdUnit.RawOk.endWindow_eq {m : ByteSpace} {u : RdUnit} {size : Nat} (h : u.RawOk size) :
    u.endWindow.toNat = rawStream m u % 2 ^ u.nendBits.toNat := by
  rw [rawStream, Nat.add_mul_mod_self_left, Nat.mod_eq_of_lt h.cacheClean]

/-- The refill: the number of tail bytes read, and the raw bits still to come as they were (R108). -/
theorem refill_spec {m : ByteSpace} {n : Nat} {u : RdUnit} (h : u.RawOk m.size) (hn : n ≤ maxRaw) :
    ∃ v, refill m n u = .ok v ∧ v.RawOk m.size ∧ SameButRaw u v ∧ rawStream m v = rawStream m u ∧
      v.nendBits.toNat = heldBits n u ∧ v.endOffs.toNat = min (u.endOffs.toNat + refillBytes n u) u.len.toNat := by
  have h25 : maxRaw = 25 := rfl
  unfold refill heldBits refillBytes
  split
  · obtain ⟨v, hv, hok, hbits, hstream, hsame, hcursor⟩ := refillLoop_spec (k := 4) h (by omega) (by omega)
    exact ⟨v, hv, hok, hsame, hstream, hbits, hcursor⟩
  · exact ⟨u, rfl, h, rfl, rfl, rfl, (min_eq_left h.endOffsInside).symm⟩

/-- `u` after `n` raw bits are taken, in its registers (R108). -/
def afterRawBits (m : ByteSpace) (n : Nat) (u : RdUnit) : RdUnit :=
  { u with
    endOffs := BitVec.ofNat 25 (min (u.endOffs.toNat + refillBytes n u) u.len.toNat)
    endWindow := BitVec.ofNat 32 (rawStream m u % 2 ^ heldBits n u / 2 ^ n)
    nendBits := BitVec.ofNat 6 (heldBits n u - n)
    nbitsTotal := u.nbitsTotal + BitVec.ofNat 32 n }

/-- `RawBits(n)` in closed form (R108). -/
theorem rawBits_eq {m : ByteSpace} {n : Nat} {u : RdUnit} (h : u.RawOk m.size) (hn : n ≤ maxRaw) :
    rawBits m n u = .ok (rawStream m u % 2 ^ heldBits n u % 2 ^ n, afterRawBits m n u) := by
  obtain ⟨v, hv, hok, hsame, hstream, hbits, hcursor⟩ := refill_spec h hn
  have hcache : v.endWindow.toNat = rawStream m u % 2 ^ heldBits n u := by
    rw [hok.endWindow_eq (m := m), hstream, hbits]
  have hwindow : v.endWindow >>> n = BitVec.ofNat 32 (rawStream m u % 2 ^ heldBits n u / 2 ^ n) := by
    apply BitVec.eq_of_toNat_eq
    rw [← hcache, BitVec.toNat_ushiftRight, Nat.shiftRight_eq_div_pow, BitVec.toNat_ofNat,
      Nat.mod_eq_of_lt ((Nat.div_le_self _ _).trans_lt v.endWindow.isLt)]
  have hoffs : v.endOffs = BitVec.ofNat 25 (min (u.endOffs.toNat + refillBytes n u) u.len.toNat) := by
    rw [← hcursor, BitVec.ofNat_toNat, BitVec.setWidth_eq]
  rw [rawBits, hv, ok_bind, hcache, hwindow, hbits]
  unfold SameButRaw at hsame
  rw [hsame, hoffs]
  rfl

/-! ### `RD.BITS` -/

/-- `RD.BITS` of a legal operand is `RawBits(n)` (R109). -/
theorem execRdBits_completes {n : Word} {s : State} {x : Nat} {w : RdUnit} (hready : s.rd.phase = .ready)
    (hn : rawLegal n) (hw : rawBits s.pkt n.toNat s.rd = .ok (x, w)) :
    execRdBits n s = .next ({ s with rd := w }.answer .ok { r0 := BitVec.ofNat 32 x }) := by
  rw [execRdBits, requireReady, require_bind hready, requireOperand, require_bind hn, hw]
  rfl

/-- Taking no raw bits reads no byte and changes nothing, whatever the unit (R108, R109). -/
theorem rawBits_zero (m : ByteSpace) (u : RdUnit) : rawBits m 0 u = .ok (0, u) := by
  rw [rawBits, refill, if_neg (Nat.not_lt_zero _), ok_bind]
  simp [Nat.mod_one]

/-- Settles O33: the two checks; no bits for `n = 0`; else what `rawBits_spec` says of the raw bits still to come. -/
theorem rdBitsTakesTheNextRawBits : Obligations.RdBitsTakesTheNextRawBits := by
  refine fun n s => ⟨fun hphase => ?_, fun hready hrange => ?_, fun hready h0 => ?_, fun hs hready hn => ?_⟩
  · exact conclude_check_fails hphase
  · exact conclude_operand_fails hready (Nat.not_le_of_lt hrange)
  · subst h0
    exact execRdBits_completes hready (Nat.zero_le _) (rawBits_zero s.pkt s.rd)
  · obtain ⟨w, hw, htaken, -⟩ := rawBits_spec (hs.live_of_ready hready).rawOk hn
    exact ⟨w, htaken, execRdBits_completes hready hn hw⟩

/-- Settles O34: the closed form of `RawBits(n)` (`rawBits_eq`), and the arithmetic of the refill. -/
theorem rawBitsRefillTheCache : Obligations.RawBitsRefillTheCache := by
  intro n s hs hready hn k held cache
  have hu := hs.live_of_ready hready
  exact ⟨execRdBits_completes hready hn (rawBits_eq hu.rawOk hn), heldBits_bounds hu.cacheSize hn⟩

/-! ### What the raw and uniform commands leave unchanged -/

/-- Settles O59: what a completed command may write (`mayWrite`), the other unit (O12) and the surroundings (O11). -/
theorem frameOfTheRawAndUniformCommands : Obligations.FrameOfTheRawAndUniformCommands := by
  refine fun s t n => ⟨fun h => ?_, fun h => ?_⟩
  · have hpp := exec_pp_of_rd (i := .rdBits n) rfl h
    have hsame := exec_sameSurroundings h
    rcases exec_cases (.rdBits n) s t h with ⟨r, u, rfl, -, -, -, hu, -⟩ | ⟨st, -, rfl⟩
    · refine ⟨?_, hpp, ?_, hsame⟩ <;> rw [State.answer, hu]
    · exact ⟨rfl, hpp, rfl, hsame⟩
  · have hpp := exec_pp_of_rd (i := .rdUint n) rfl h
    have hsame := exec_sameSurroundings h
    rcases exec_cases (.rdUint n) s t h with ⟨r, u, rfl, -, -, -, hu, hbase, hlen, hphase, -⟩ | ⟨st, -, rfl⟩
    · refine ⟨hbase, hlen, hphase, hpp, ?_, hsame⟩
      rw [State.answer, hu]
    · exact ⟨rfl, rfl, rfl, hpp, rfl, hsame⟩

end Sys2Proof.Machine

namespace Sys2Proof.Machine

/-!
`UniformBits` (O37) and `RD.UINT` on its two paths (O38, O39).
-/

/-! ### The bit count -/

/-- A number has at most `n` bits iff it is below `2^n` (R9). -/
theorem ilog_le_iff {x n : Nat} : ilog x ≤ n ↔ x < 2 ^ n := by
  unfold ilog
  split
  next h0 => simp [h0]
  next h0 => rw [Nat.succ_le_iff, Nat.log2_lt h0]

/-- A power of two has one bit more than the number before it, which is the case of R112 where the two counts agree. -/
theorem ilog_pred_of_two_pow (k : Nat) : ilog (2 ^ k - 1) + 1 = ilog (2 ^ k) := by
  have hpos : 0 < 2 ^ k := Nat.two_pow_pos k
  have hpred : ∀ n, ilog (2 ^ k - 1) ≤ n ↔ k ≤ n := fun n => by
    rw [ilog_le_iff, ← Nat.pow_le_pow_iff_right (a := 2) (by norm_num)]
    omega
  have hpow : ∀ n, ilog (2 ^ k) ≤ n ↔ k < n := fun n => by
    rw [ilog_le_iff, Nat.pow_lt_pow_iff_right (by norm_num)]
  have h1 := (hpred _).1 le_rfl
  have h2 := (hpred k).2 le_rfl
  have h3 := (hpow _).1 le_rfl
  have h4 := (hpow (k + 1)).2 (Nat.lt_succ_self k)
  omega

/-- Any other number has as many bits as the number before it (R112). -/
theorem ilog_pred_of_not_two_pow {x : Nat} (h : ¬∃ k, x = 2 ^ k) : ilog (x - 1) = ilog x := by
  have hsame : ∀ n, ilog (x - 1) ≤ n ↔ ilog x ≤ n := fun n => by
    have hne : x ≠ 2 ^ n := fun he => h ⟨n, he⟩
    rw [ilog_le_iff, ilog_le_iff]
    omega
  exact le_antisymm ((hsame _).2 le_rfl) ((hsame _).1 le_rfl)

/-- Settles O37: the bits of `total - 1`, and those of the number before it plus one. -/
theorem uniformBitsCountsBits : Obligations.UniformBitsCountsBits := by
  intro total h2 h32
  have hne : total - 1 ≠ 0 := by omega
  obtain ⟨hcover, -, hpos⟩ := uniformBits_bounds (p := .ilog) h2 h32
  refine ⟨pow_ilog_le hne, hcover, hpos, ilog_le_iff.2 (by omega), ?_, fun hnot => ?_⟩
  · rintro ⟨k, hk⟩
    show ilog (total - 1 - 1) + 1 = ilog (total - 1)
    rw [hk, ilog_pred_of_two_pow]
  · show ilog (total - 1 - 1) + 1 = ilog (total - 1) + 1
    rw [ilog_pred_of_not_two_pow hnot]

/-- Under either parameter value the bit count is at most one above the bits `total - 1` has (R112). -/
theorem two_pow_uniformBits_le {p : UniformBits} {total : Nat} (h2 : 2 ≤ total) :
    2 ^ (uniformBits p total - 2) ≤ total - 1 := by
  have hne : total - 1 ≠ 0 := by omega
  have hle : uniformBits p total ≤ ilog (total - 1) + 1 := by
    cases p with
    | ilog => exact Nat.le_succ _
    | ceil =>
      refine Nat.succ_le_succ (ilog_le_iff.2 ?_)
      have := ilog_lt_pow (total - 1)
      omega
  exact (Nat.pow_le_pow_right Nat.two_pos (by omega)).trans (pow_ilog_le hne)

/-- A total of at most 8 bits is at most 256 (R113). -/
theorem total_le_of_direct {p : UniformBits} {total : Nat} (h2 : 2 ≤ total) (h32 : total < 2 ^ 32)
    (h8 : uniformBits p total ≤ 8) : total ≤ 256 := by
  obtain ⟨hcover, -, -⟩ := uniformBits_bounds (p := p) h2 h32
  have hle : 2 ^ uniformBits p total ≤ 2 ^ 8 := Nat.pow_le_pow_right Nat.two_pos h8
  omega

/-- A total of more than 8 bits has a top part of 65 to 256 values, and at most 25 low bits (R113). -/
theorem split_bounds {p : UniformBits} {total : Nat} (h2 : 2 ≤ total) (h32 : total < 2 ^ 32)
    (h8 : 8 < uniformBits p total) :
    65 ≤ (total - 1) / 2 ^ (uniformBits p total - 8) + 1 ∧ (total - 1) / 2 ^ (uniformBits p total - 8) + 1 ≤ 256 ∧
      uniformBits p total - 8 ≤ 25 := by
  obtain ⟨hcover, h33, -⟩ := uniformBits_bounds (p := p) h2 h32
  have hlow := two_pow_uniformBits_le (p := p) h2
  obtain ⟨ftb, hftb⟩ : ∃ ftb, uniformBits p total = ftb + 8 := ⟨uniformBits p total - 8, by omega⟩
  have hpow : 2 ^ (ftb + 8 - 2) = 64 * 2 ^ ftb := by rw [show ftb + 8 - 2 = 6 + ftb by omega, pow_add]; rfl
  rw [hftb, hpow] at hlow
  rw [hftb, pow_add, mul_comm] at hcover
  rw [hftb, Nat.add_sub_cancel]
  have hge := (Nat.le_div_iff_mul_le (Nat.two_pow_pos ftb)).2 hlow
  have hlt := (Nat.div_lt_iff_lt_mul (Nat.two_pow_pos ftb)).2 hcover
  omega

/-! ### The symbol of width 1 -/

/-- `u` with the divisor of a decode of `total` cached (R85). -/
def RdUnit.cached (total : Nat) (u : RdUnit) : RdUnit := { u with ext := BitVec.ofNat 32 (u.rng.toNat / total) }

theorem RdUnit.cached_ext (total : Nat) (u : RdUnit) : (u.cached total).ext.toNat = u.rng.toNat / total :=
  Nat.mod_eq_of_lt ((Nat.div_le_self _ _).trans_lt u.rng.isLt)

/-- Caching a divisor in `READY` keeps the unit live: only a pending decode bounds it (R14). -/
theorem RdUnit.Live.cached {size : Nat} {u : RdUnit} (hu : u.Live size) (hready : u.phase = .ready) (total : Nat) :
    (u.cached total).Live size :=
  { hu with pairExt := fun hpair => absurd (hready.symm.trans hpair) nofun }

/-- The width of the symbol at offset `o`: the divisor, and at the bottom of the range also the remainder of `rng` (R87,
R113). -/
theorem unitSymbol_width (ext rng total o : Nat) :
    (if 0 < o then ext * (o + 1 - o) else rng - ext * (total - (o + 1))) =
      if 0 < o then ext else rng - ext * (total - 1) := by
  split
  next => rw [Nat.add_sub_cancel_left, Nat.mul_one]
  next h => rw [Nat.eq_zero_of_not_pos h]

/-- `w` is `u` after the symbol of width 1 at the offset of a decode of `total` has been taken (R113). -/
def UnitTaken (m : ByteSpace) (total : Nat) (u w : RdUnit) : Prop :=
  Normalized m (u.cached total) (u.val.toNat - u.rng.toNat / total * (total - (u.offsetIn total + 1)))
    (if 0 < u.offsetIn total then u.rng.toNat / total else u.rng.toNat - u.rng.toNat / total * (total - 1)) w

/-- The symbol of width 1 that `RD.UINT` decodes and takes out of `total`: the decode answers the offset, and the checks of
R88 that the update leaves out hold (R113, log 18). -/
theorem unitSymbol_spec {m : ByteSpace} {u : RdUnit} {total : Nat} (hu : u.Live m.size) (hready : u.phase = .ready)
    (h1 : 1 ≤ total) (h256 : total ≤ 256) :
    decodeFrequency total u = .ok (u.offsetIn total, u.cached total) ∧
      ∃ w, update m (u.offsetIn total) (u.offsetIn total + 1) total (u.cached total) = .ok w ∧ UnitTaken m total u w ∧
        w.Live m.size := by
  have hcb : codeBot = 8388608 := rfl
  have hlow := hu.rngLow
  have hpos : 0 < u.rng.toNat / total := Nat.div_pos (by omega) h1
  have hext := u.cached_ext total
  have hcached := hu.cached hready total
  have ho : u.offsetIn total < total := offsetOf_lt h1
  have hu2 : (u.cached total).ext.toNat * total ≤ u.rng.toNat := hext ▸ Nat.div_mul_le_self _ _
  have hu3 : u.offsetIn total ≤ offsetOf u.val.toNat (u.cached total).ext.toNat total ∧
      offsetOf u.val.toNat (u.cached total).ext.toNat total < u.offsetIn total + 1 := by
    rw [hext]
    exact ⟨le_rfl, Nat.lt_succ_self _⟩
  obtain ⟨w, hw, hnorm⟩ := update_spec hcached.viewOk hu.valBelow hu.rngHigh (hext ▸ hpos) (Nat.lt_succ_self _) ho hu2 hu3
  obtain ⟨-, hbelow, hle⟩ := interval_bounds hu.valBelow (hext ▸ hpos) (Nat.lt_succ_self _) ho hu2 hu3
  refine ⟨cacheAndDecode_eq hpos ((Nat.div_le_self _ _).trans_lt u.rng.isLt), w, hw, ?_,
    hnorm.live hbelow (hle.trans hu.rngHigh) hcached.rawOk hcached.pairExt⟩
  rw [Nat.succ_eq_add_one, unitSymbol_width, hext] at hnorm
  exact hnorm

/-! ### The two paths -/

/-- `RD.UINT` of a legal total is its body (R113). -/
theorem execRdUint_completes {total : Word} {s : State} {x : Nat} {w : RdUnit} (hready : s.rd.phase = .ready)
    (h2 : uintLegal total)
    (hw : decodeUniform s.pkt (uniformBits s.params.uniformBits total.toNat) total.toNat s.rd = .ok (x, w)) :
    execRdUint total s = .next ({ s with rd := w }.answer .ok { r0 := BitVec.ofNat 32 x }) := by
  rw [execRdUint, requireReady, require_bind hready, requireOperand, require_bind h2, hw]
  rfl

section
variable {m : ByteSpace} {u v w x : RdUnit} {bits total o lo : Nat}

/-- The body of `RD.UINT` where its total has at most 8 bits (R113). -/
theorem decodeUniform_direct (h8 : bits ≤ uintSplit) (hdec : decodeFrequency total u = .ok (o, v))
    (hw : update m o (o + 1) total v = .ok w) : decodeUniform m bits total u = .ok (o, w) := by
  rw [decodeUniform, if_pos h8, hdec, ok_bind]
  simp only [hw]
  rfl

/-- The body of `RD.UINT` where its total has more: the top part above the raw low bits, clamped (R113). -/
theorem decodeUniform_split (h8 : uintSplit < bits)
    (hdec : decodeFrequency ((total - 1) / 2 ^ (bits - 8) + 1) u = .ok (o, v))
    (hw : update m o (o + 1) ((total - 1) / 2 ^ (bits - 8) + 1) v = .ok w)
    (hx : rawBits m (bits - 8) w = .ok (lo, x)) (hlo : lo < 2 ^ (bits - 8)) :
    decodeUniform m bits total u = .ok (min (o * 2 ^ (bits - 8) + lo) (total - 1), x) := by
  have hnum : o <<< (bits - 8) ||| lo = o * 2 ^ (bits - 8) + lo := by
    rw [← Nat.shiftLeft_add_eq_or_of_lt hlo, Nat.shiftLeft_eq]
  rw [decodeUniform, if_neg (Nat.not_le_of_lt h8)]
  simp only [Nat.shiftRight_eq_div_pow, hdec, ok_bind, hw, hx, hnum]

end

/-- Settles O38: a total of at most 8 bits is at most 256, and its symbol of width 1 is the answer. -/
theorem rdUintDirect : Obligations.RdUintDirect := by
  intro total s hs hready h2 h8 ext o
  have hu := hs.live_of_ready hready
  have h1 : 1 ≤ total.toNat := by omega
  obtain ⟨hdec, w, hw, htaken, -⟩ := unitSymbol_spec hu hready h1 (total_le_of_direct h2 total.isLt h8)
  exact ⟨offsetOf_lt h1, w, htaken, execRdUint_completes hready h2 (decodeUniform_direct h8 hdec hw)⟩

/-- Settles O39: the top part is a symbol of width 1 out of `ft`, which leaves a live unit for the raw read of the low
bits. -/
theorem rdUintSplit : Obligations.RdUintSplit := by
  intro total s hs hready h2 h8 ftb ft ext o
  have hu := hs.live_of_ready hready
  obtain ⟨h65, h256, h25⟩ := split_bounds h2 total.isLt h8
  obtain ⟨hdec, w, hw, htaken, hlive⟩ := unitSymbol_spec hu hready (Nat.succ_pos _) h256
  obtain ⟨v, hv, hraw, -⟩ := rawBits_spec hlive.rawOk h25
  exact ⟨h65, h256, h25, w, v, htaken, hraw, execRdUint_completes hready h2
    (decodeUniform_split h8 hdec hw hv (Nat.mod_lt _ (Nat.two_pow_pos _)))⟩

end Sys2Proof.Machine

namespace Sys2Proof.Machine

/-!
The coded bits and the raw bits share only the view and the counter (O36).
-/

/-! ### The coded-bit operations and the raw-bit reader -/

/-- `u` with other contents of the raw-bit reader (R19, R20), and the counter moved by `d`. -/
def RdUnit.withRawReader (endOffs : BitVec 25) (endWindow : BitVec 32) (nendBits : BitVec 6) (d : BitVec 32) (u : RdUnit) :
    RdUnit :=
  { u with endOffs := endOffs, endWindow := endWindow, nendBits := nendBits, nbitsTotal := u.nbitsTotal + d }

section
variable (m : ByteSpace) (a : BitVec 25) (x : BitVec 32) (k : BitVec 6) (d : BitVec 32)

theorem fwdByte_withRawReader (u : RdUnit) :
    fwdByte m (u.withRawReader a x k d) = (fun bu => (bu.1, bu.2.withRawReader a x k d)) <$> fwdByte m u := by
  show (if u.offs.toNat < u.len.toNat then _ else _) = _ <$> (if u.offs.toNat < u.len.toNat then _ else _)
  split
  · rw [map_bind]; rfl
  · rfl

theorem normalizeStep_withRawReader (u : RdUnit) :
    normalizeStep m (u.withRawReader a x k d) = RdUnit.withRawReader a x k d <$> normalizeStep m u := by
  unfold normalizeStep
  rw [fwdByte_withRawReader]
  cases fwdByte m u with
  | error e => rfl
  | ok bu =>
    refine congrArg Except.ok ?_
    simp only [RdUnit.withRawReader, add_right_comm u.nbitsTotal d 8]

theorem normalizeLoop_withRawReader : ∀ (n : Nat) (u : RdUnit),
    normalizeLoop m n (u.withRawReader a x k d) = RdUnit.withRawReader a x k d <$> normalizeLoop m n u := by
  intro n
  induction n with
  | zero =>
    intro u
    show (if u.rng.toNat ≤ codeBot then _ else _) = _ <$> (if u.rng.toNat ≤ codeBot then _ else _)
    split <;> rfl
  | succ n ih =>
    intro u
    show (if u.rng.toNat ≤ codeBot then _ else _) = _ <$> (if u.rng.toNat ≤ codeBot then _ else _)
    split
    · rw [normalizeStep_withRawReader]
      cases normalizeStep m u with
      | error e => rfl
      | ok v => exact ih v
    · rfl

/-- `Normalize()` neither reads nor writes the raw-bit reader, and only adds to the counter (R82, R110). -/
theorem normalize_withRawReader (u : RdUnit) :
    normalize m (u.withRawReader a x k d) = RdUnit.withRawReader a x k d <$> normalize m u :=
  normalizeLoop_withRawReader m a x k d 3 u

/-- A decode leaves the raw-bit reader alone (R85, R110). -/
theorem cacheAndDecode_withRawReader (ext total : Nat) (u : RdUnit) :
    cacheAndDecode ext total (u.withRawReader a x k d) =
      (fun ou => (ou.1, ou.2.withRawReader a x k d)) <$> cacheAndDecode ext total u := by
  unfold cacheAndDecode
  rw [map_bind]
  rfl

/-- An update leaves the raw-bit reader alone, but for what it adds to the counter (R87, R110). -/
theorem update_withRawReader (low high total : Nat) (u : RdUnit) :
    update m low high total (u.withRawReader a x k d) = RdUnit.withRawReader a x k d <$> update m low high total u := by
  rw [update, update, ← normalize_withRawReader]
  rfl

/-- Taking a bit leaves the raw-bit reader alone (R100, R110). -/
theorem takeBit_withRawReader (part : Nat) (u : RdUnit) :
    takeBit part (u.withRawReader a x k d) = (takeBit part u).withRawReader a x k d := by
  show (if bitOutcome part u then _ else _) = RdUnit.withRawReader a x k d (if bitOutcome part u then _ else _)
  split <;> rfl

/-- Taking a symbol leaves the raw-bit reader alone (R106, R110). -/
theorem takeSymbol_withRawReader (y : Symbol) (u : RdUnit) :
    takeSymbol y (u.withRawReader a x k d) = (takeSymbol y u).withRawReader a x k d := rfl

theorem State.withRawReader_rd (s : State) : (s.withRawReader a x k d).rd = s.rd.withRawReader a x k d := rfl

/-- A command on coded bits neither reads nor writes the raw-bit reader, and only adds to the counter (R110). -/
theorem exec_withRawReader {i : Instr} (h : isCodedCommand i = true) (s : State) :
    exec i (s.withRawReader a x k d) = mapNext (State.withRawReader a x k d) (exec i s) := by
  cases i with
  | rdDec _ | rdDecbin _ | rdUpd _ _ _ | rdBitp _ | rdIcdf _ _ _ =>
    refine conclude_map (fun _ _ _ => rfl) rfl ?_
    simp only [map_bind, bind_map_left, State.withRawReader_rd, decodeFrequency, decodeBin, cacheAndDecode_withRawReader,
      update_withRawReader, takeBit_withRawReader, takeSymbol_withRawReader, normalize_withRawReader]
    rfl
  | _ => cases h

end

/-! ### The raw-bit operations and the coded-bit registers -/

/-- `u` with other contents of the coded-bit registers (R11, R12, R14, R15, R18), and the counter moved by `d`. -/
def RdUnit.withCoder (val : BitVec 31) (rng ext : BitVec 32) (rem : Byte) (offs : BitVec 25) (d : BitVec 32) (u : RdUnit) :
    RdUnit :=
  { u with val := val, rng := rng, ext := ext, rem := rem, offs := offs, nbitsTotal := u.nbitsTotal + d }

section
variable (m : ByteSpace) (val : BitVec 31) (rng ext : BitVec 32) (rem : Byte) (offs : BitVec 25) (d : BitVec 32)

theorem endByte_withCoder (u : RdUnit) :
    endByte m (u.withCoder val rng ext rem offs d) =
      (fun bu => (bu.1, bu.2.withCoder val rng ext rem offs d)) <$> endByte m u := by
  show (if u.endOffs.toNat < u.len.toNat then _ else _) = _ <$> (if u.endOffs.toNat < u.len.toNat then _ else _)
  split
  · rw [map_bind]; rfl
  · rfl

theorem refillStep_withCoder (u : RdUnit) :
    refillStep m (u.withCoder val rng ext rem offs d) = RdUnit.withCoder val rng ext rem offs d <$> refillStep m u := by
  unfold refillStep
  rw [endByte_withCoder]
  cases endByte m u <;> rfl

theorem refillLoop_withCoder : ∀ (n : Nat) (u : RdUnit), refillLoop m n (u.withCoder val rng ext rem offs d) =
    RdUnit.withCoder val rng ext rem offs d <$> refillLoop m n u := by
  intro n
  induction n with
  | zero => intro u; rfl
  | succ n ih =>
    intro u
    unfold refillLoop
    rw [refillStep_withCoder]
    cases refillStep m u with
    | error e => rfl
    | ok v =>
      show (if 24 < v.nendBits.toNat then _ else _) = _ <$> (if 24 < v.nendBits.toNat then _ else _)
      split
      · rfl
      · exact ih v

/-- The refill neither reads nor writes the coded-bit registers (R108, R110). -/
theorem refill_withCoder (n : Nat) (u : RdUnit) :
    refill m n (u.withCoder val rng ext rem offs d) = RdUnit.withCoder val rng ext rem offs d <$> refill m n u := by
  show (if u.nendBits.toNat < n then _ else _) = _ <$> (if u.nendBits.toNat < n then _ else _)
  split
  · exact refillLoop_withCoder m val rng ext rem offs d 4 u
  · rfl

/-- `RawBits` neither reads nor writes the coded-bit registers, and only adds to the counter (R108, R110). -/
theorem rawBits_withCoder (n : Nat) (u : RdUnit) :
    rawBits m n (u.withCoder val rng ext rem offs d) =
      (fun xu => (xu.1, xu.2.withCoder val rng ext rem offs d)) <$> rawBits m n u := by
  unfold rawBits
  rw [refill_withCoder]
  cases refill m n u with
  | error e => rfl
  | ok v =>
    refine congrArg Except.ok ?_
    simp only [RdUnit.withCoder, add_right_comm v.nbitsTotal d (BitVec.ofNat 32 n)]

theorem State.withCoder_rd (s : State) :
    (s.withCoder val rng ext rem offs d).rd = s.rd.withCoder val rng ext rem offs d := rfl

/-- `RD.BITS` neither reads nor writes the coded-bit registers, and only adds to the counter (R110). -/
theorem exec_rdBits_withCoder (n : Word) (s : State) :
    exec (.rdBits n) (s.withCoder val rng ext rem offs d) =
      mapNext (State.withCoder val rng ext rem offs d) (exec (.rdBits n) s) := by
  refine conclude_map (fun _ _ _ => rfl) rfl ?_
  simp only [map_bind, bind_map_left, State.withCoder_rd, rawBits_withCoder]
  rfl

end

/-- Settles O36: every operation of the one side commutes with a change of the registers of the other, up to the counter. -/
theorem rawAndCodedBitsDoNotMeet : Obligations.RawAndCodedBitsDoNotMeet :=
  ⟨fun _ s a w k d h => exec_withRawReader a w k d h s,
    fun n s val rng ext rem offs d => exec_rdBits_withCoder val rng ext rem offs d n s⟩

end Sys2Proof.Machine

namespace Sys2Proof.Machine

/-!
The tell commands (O40, O41, O42) and what the queries leave unchanged (O57).
-/

/-! ### The fraction of the logarithm -/

/-- Three turns append three bits (R122). -/
theorem frac3View_lt_eight {r : Nat} (hlow : 32768 ≤ r) (hhigh : r < 65536) : frac3View r < 8 :=
  (squareLoop_bounds (k := 3) (f := 0) hlow hhigh).2

/-- The fraction steps from `j` to `j + 1` right after entry `j` of the correction table (R122, R124). -/
theorem frac3View_steps_after_correction : ∀ j < 7,
    (32768 ≤ correction j ∧ correction j + 1 < 65536) ∧
      frac3View (correction j) = j ∧ frac3View (correction j + 1) = j + 1 := by decide

/-- The fraction exceeds `j` when the view exceeds entry `j` of the correction table: it never decreases, and it steps
there (R122, R124). -/
theorem lt_frac3View_iff {j r : Nat} (hj : j < 7) (hlow : 32768 ≤ r) (hhigh : r < 65536) :
    j < frac3View r ↔ correction j < r := by
  obtain ⟨⟨hclow, hchigh⟩, hbefore, hafter⟩ := frac3View_steps_after_correction j hj
  constructor
  · intro hlt
    by_contra hle
    have hmono := frac3View_mono hlow (Nat.le_of_not_lt hle) (by omega)
    omega
  · intro hlt
    have hmono := frac3View_mono (by omega) (show correction j + 1 ≤ r from hlt) hhigh
    omega

theorem length_filter_range_seven : ∀ k < 8, ((List.range 7).filter (· < k)).length = k := by decide

/-- The fraction is how many of the seven thresholds the view exceeds (R122). -/
theorem frac3View_eq_count {r : Nat} (hlow : 32768 ≤ r) (hhigh : r < 65536) :
    frac3View r = ([35733, 38967, 42495, 46340, 50535, 55109, 60097].filter (· < r)).length := by
  have hcongr : (List.range 7).filter (fun j => correction j < r) = (List.range 7).filter (· < frac3View r) :=
    List.filter_congr fun j hj =>
      decide_eq_decide.2 (lt_frac3View_iff (List.mem_range.1 hj) hlow hhigh).symm
  calc frac3View r = ((List.range 7).filter (· < frac3View r)).length :=
        (length_filter_range_seven _ (frac3View_lt_eight hlow hhigh)).symm
    _ = (((List.range 7).map correction).filter (· < r)).length := by
        rw [← hcongr, List.filter_map, List.length_map]
        rfl

/-- The fraction at the two ends of the views with the same top four bits (R124). -/
theorem frac3View_of_top_bits : ∀ b < 8,
    frac3View (4096 * (b + 8)) = b ∧ frac3View (4096 * (b + 8) + 4095) ≤ b + 1 := by decide

/-- The first guess is the fraction or one less, and the correction table says which (R124, R125). -/
theorem frac3FastView_eq {r : Nat} (hlow : 32768 ≤ r) (hhigh : r < 65536) : frac3FastView r = frac3View r := by
  have hguess : r >>> 12 = r / 4096 := Nat.shiftRight_eq_div_pow r 12
  rw [frac3FastView, hguess]
  have hb : r / 4096 - 8 < 8 := by omega
  have hfrom : 4096 * (r / 4096 - 8 + 8) ≤ r := by omega
  have hto : r ≤ 4096 * (r / 4096 - 8 + 8) + 4095 := by omega
  generalize r / 4096 - 8 = b at *
  obtain ⟨hfirst, hlast⟩ := frac3View_of_top_bits b hb
  have hge := frac3View_mono (by omega) hfrom hhigh
  have hle := frac3View_mono hlow hto (by omega)
  obtain hb7 | rfl : b < 7 ∨ b = 7 := by omega
  · have hiff := lt_frac3View_iff hb7 hlow hhigh
    split <;> omega
  · have hlt := frac3View_lt_eight hlow hhigh
    have hcorr : correction 7 = 65535 := rfl
    rw [if_neg (by omega)]
    omega

/-- The two fractions agree on every normalized `rng` (R125). -/
theorem frac3Fast_eq_frac3 {rng : Nat} (h : rngNormalized rng) : frac3Fast rng = frac3 rng :=
  frac3FastView_eq (view16_bounds h).1 (view16_bounds h).2

theorem correction_eq_getD : ∀ b < 8,
    correction b = [35733, 38967, 42495, 46340, 50535, 55109, 60097, 65535].getD b 0 := by decide

/-- The fast fraction with its table as a list (R124). -/
theorem frac3FastView_eq_table {r : Nat} (hhigh : r < 65536) :
    frac3FastView r =
      if [35733, 38967, 42495, 46340, 50535, 55109, 60097, 65535].getD (r / 4096 - 8) 0 < r
        then r / 4096 - 8 + 1 else r / 4096 - 8 := by
  rw [← correction_eq_getD _ (by omega), frac3FastView, Nat.shiftRight_eq_div_pow]

theorem view16_eq_div (rng : Nat) : view16 rng = rng / 2 ^ (Nat.log2 rng - 15) := Nat.shiftRight_eq_div_pow _ _

/-! ### The tell commands -/

/-- The RD unit of an initialised decoder has a logarithm to subtract (R84, R120). -/
theorem Inv.rngNormalized {s : State} (hs : Inv s) (hinit : s.rd.phase ≠ .idle) : rngNormalized s.rd.rng.toNat :=
  ⟨(hs.rd hinit).rngLow, (hs.rd hinit).rngHigh⟩

theorem rngNormalized_of_requireTellable {s : State} (h : requireTellable s = .ok ()) :
    rngNormalized s.rd.rng.toNat := by
  obtain ⟨_, -, hrng⟩ := bind_eq_ok.1 h
  exact require_eq_ok.1 hrng

/-- The two commands make the same checks, and where these pass the fractions agree (R125). -/
theorem execRdTellff_eq_execRdTellf (s : State) : execRdTellff s = execRdTellf s := by
  unfold execRdTellff execRdTellf
  cases hcheck : requireTellable s with
  | error e => rfl
  | ok _ => rw [frac3Fast_eq_frac3 (rngNormalized_of_requireTellable hcheck)]

/-- Settles O40: what the invariant says of `rng` is what the command checks, and the exponent of its highest bit is unique. -/
theorem rdTellCountsWholeBits : Obligations.RdTellCountsWholeBits := by
  refine fun s => ⟨fun hidle => conclude_tell_idle (not_not.2 hidle), fun hs hinit l hle hlt => ?_⟩
  obtain rfl := log2_eq_of_bounds hle hlt
  exact conclude_tell hinit (hs.rngNormalized hinit) rfl

/-- Settles O41: the squaring loop counts the thresholds below the view (`frac3View_eq_count`). -/
theorem rdTellfCountsEighths : Obligations.RdTellfCountsEighths := by
  refine fun s => ⟨fun hidle => conclude_tell_idle (not_not.2 hidle), fun hs hinit l hle hlt => ?_⟩
  obtain rfl := log2_eq_of_bounds hle hlt
  have hrng := hs.rngNormalized hinit
  obtain ⟨hlow, hhigh⟩ := view16_bounds hrng
  rw [← view16_eq_div, ← frac3View_eq_count hlow hhigh]
  exact conclude_tell hinit hrng rfl

/-- Settles O42: the guess corrected by the table is the fraction of the squaring loop (`frac3FastView_eq`). -/
theorem rdTellffAgreesWithTellf : Obligations.RdTellffAgreesWithTellf := by
  refine fun s => ⟨execRdTellff_eq_execRdTellf s, fun hs hinit l hle hlt => ?_⟩
  obtain rfl := log2_eq_of_bounds hle hlt
  have hrng := hs.rngNormalized hinit
  simp only [← view16_eq_div, ← frac3FastView_eq_table (view16_bounds hrng).2]
  exact conclude_tell hinit hrng rfl

/-! ### What the queries leave unchanged -/

/-- A command that completes with the state it found differs from it in its responses only: so does a refusal (R64). -/
theorem exec_answers_only {i : Instr} {s t : State} (hwrites : ∀ r u, mayWrite i s r u → u = s)
    (h : exec i s = .next t) : t = { s with responses := t.responses } ∧ SameSurroundings s t := by
  refine ⟨?_, exec_sameSurroundings h⟩
  rcases exec_cases i s t h with ⟨r, u, rfl, hu⟩ | ⟨st, -, rfl⟩
  · rw [hwrites r u hu]
    rfl
  · rfl

/-- Settles O57: of a query `mayWrite` says that it completes with the state it found. -/
theorem frameOfTheQueries : Obligations.FrameOfTheQueries := fun _ _ _ =>
  ⟨exec_answers_only fun _ _ ⟨_, _, _, hu, _⟩ => hu, exec_answers_only fun _ _ ⟨_, _, _, hu, _⟩ => hu,
    exec_answers_only fun _ _ ⟨_, _, _, hu, _⟩ => hu, exec_answers_only fun _ _ ⟨_, _, hu⟩ => hu⟩

end Sys2Proof.Machine

namespace Sys2Proof.Machine

/-!
The TOC byte (O44, O45), the length code (O46), and a parse of codes 0, 1 and 2 (O47, O48).
-/

/-! ### The TOC byte -/

theorem toNat_append_eq_add {w v : Nat} (x : BitVec w) (y : BitVec v) :
    (x ++ y).toNat = x.toNat * 2 ^ v + y.toNat := by
  rw [BitVec.toNat_append, ← Nat.shiftLeft_add_eq_or_of_lt y.isLt, Nat.shiftLeft_eq]

/-- The fields of the descriptor word stand side by side (R144). -/
theorem descriptor_toNat (mode : Mode) (bw : Bandwidth) (dur : Duration) (st : Bool) (code : BitVec 2)
    (scheme : BitVec 3) :
    (descriptor mode bw dur st code scheme).toNat = mode.code.toNat + 4 * bw.code.toNat + 32 * dur.code.toNat +
      256 * st.toNat + 512 * code.toNat + 2048 * scheme.toNat := by
  simp only [descriptor, toNat_append_eq_add, BitVec.toNat_ofBool, BitVec.toNat_ofNat]
  omega

theorem tocCode_toNat (toc : Byte) : (tocCode toc).toNat = toc.toNat % 4 := by
  rw [tocCode, BitVec.extractLsb'_toNat, Nat.shiftRight_zero]

theorem tocCfg_eq_ofNat (toc : Byte) : tocCfg toc = BitVec.ofNat 5 (toc.toNat / 8) := by
  apply BitVec.eq_of_toNat_eq
  rw [tocCfg, BitVec.extractLsb'_toNat, BitVec.toNat_ofNat, Nat.shiftRight_eq_div_pow]

theorem tocStereo_eq_decide (toc : Byte) : tocStereo toc = decide (toc.toNat / 4 % 2 = 1) := by
  rw [tocStereo, BitVec.getLsbD, Nat.testBit_eq_decide_div_mod_eq]

theorem tocStereo_toNat (toc : Byte) : (tocStereo toc).toNat = toc.toNat / 4 % 2 := by
  rw [tocStereo_eq_decide]
  rcases Nat.mod_two_eq_zero_or_one (toc.toNat / 4) with h | h <;> rw [h] <;> rfl

/-- The descriptor word of a TOC byte and a scheme as a sum (R144). -/
theorem tocDescriptor_toNat (toc : Byte) (scheme : BitVec 3) :
    (tocDescriptor toc scheme).toNat =
      (tocDecode (tocCfg toc)).mode.code.toNat + 4 * (tocDecode (tocCfg toc)).bw.code.toNat +
        32 * (tocDecode (tocCfg toc)).dur.code.toNat + 256 * (toc.toNat / 4 % 2) + 512 * (toc.toNat % 4) +
        2048 * scheme.toNat := by
  rw [tocDescriptor, descriptor_toNat, tocStereo_toNat, tocCode_toNat]

/-- Settles O44: the operand is its own low byte, and the descriptor of that byte is the sum of its fields. -/
theorem ppTocDecodesTheByte : Obligations.PpTocDecodesTheByte := by
  refine fun toc s => ⟨fun hbig => conclude_check_fails (Nat.not_le.2 hbig), fun hle => ?_⟩
  have hbyte : (toc.setWidth 8).toNat = toc.toNat := by
    rw [BitVec.toNat_setWidth, Nat.mod_eq_of_lt (by omega)]
  have hcfg : tocCfg (toc.setWidth 8) = BitVec.ofNat 5 (toc.toNat / 8) := by rw [tocCfg_eq_ofNat, hbyte]
  have hdesc := tocDescriptor_toNat (toc.setWidth 8) 0
  rw [hcfg, hbyte] at hdesc
  have hexec : exec (.ppToc toc) s = .next (s.answer .ok
      { r0 := tocDescriptor (toc.setWidth 8) 0, r1 := (tocDecode (tocCfg (toc.setWidth 8))).dur.tenths }) :=
    congrArg (conclude s) (require_bind hle)
  rw [hexec, hcfg, ← BitVec.setWidth_eq (tocDescriptor _ _), ← BitVec.ofNat_toNat, hdesc]
  rfl

/-- Settles O45: the 32 rows are evaluated. -/
theorem tocTable : Obligations.TocTable := by
  unfold Obligations.TocTable
  decide

/-! ### The length code -/

/-- A length takes one byte exactly when it is at most 251 (R145). -/
theorem varint_used_iff {m : ByteSpace} {p n : Nat} {c : LengthCode} (hin : p + n ≤ m.size)
    (h : varint m p n = .ok c) : (c.used = 1 ∨ c.used = 2) ∧ (c.used = 1 ↔ c.value ≤ 251) := by
  obtain ⟨h1, hn, h2, -⟩ := varint_ok_bounds h
  by_cases hv : (m.bytes.read p).toNat ≤ 251
  · cases (varint_short hin (by omega) hv).symm.trans h
    exact ⟨.inl rfl, iff_of_true rfl hv⟩
  · by_cases hn2 : 2 ≤ n
    · cases (varint_long hin hn2 (by omega)).symm.trans h
      exact ⟨.inr rfl, iff_of_false (show ¬2 = 1 by decide) (show ¬(_ + _ ≤ 251) by omega)⟩
    · cases (varint_missing hin (.inr ⟨by omega, by omega⟩)).symm.trans h

/-- Settles O46: the three cases of the code by its first byte, and what a code that was read satisfies. -/
theorem lengthCode : Obligations.LengthCode := by
  refine ⟨fun m p n hin => ⟨fun hn => varint_missing hin (.inl hn), fun hn hv => varint_short hin hn hv,
    fun hn hv => varint_missing hin (.inr ⟨hn, by omega⟩), fun hn hv => varint_long hin hn (by omega),
    fun c hc => ?_⟩, fun x v w hlow hhigh => by omega⟩
  obtain ⟨-, -, -, hmax⟩ := varint_ok_bounds hc
  exact ⟨hmax, varint_used_iff hin hc⟩

/-! ### From the parse of a code to the command -/

section
variable {base len : Word} {s : State}

@[simp] theorem State.parsed_pp (s : State) (toc : Byte) (y : Layout) : (s.parsed toc y).pp = commitUnit toc y := rfl

theorem lastResponse_parsed (s : State) (toc : Byte) (y : Layout) :
    (s.parsed toc y).lastResponse = some { status := .ok, results := commitResults toc y } :=
  lastResponse_answer _ .ok _

/-- A parse that completes is committed (R147, R156). -/
theorem exec_ppParse_of_parsePacket_ok {toc : Byte} {y : Layout} (hview : viewLegal base len s.pkt.size)
    (h : parsePacket s.pkt (padBytes s.params.padCont) base.toNat len.toNat = .ok (toc, y)) :
    exec (.ppParse base len) s = .next (s.parsed toc y) := by
  show execPpParse base len s = _
  rw [execPpParse, requireOperand, require_bind hview, h]
  rfl

/-- A parse that fails is answered with its status and writes nothing (R147, R192). -/
theorem exec_ppParse_of_parsePacket_error {st : Status} (hview : viewLegal base len s.pkt.size)
    (h : parsePacket s.pkt (padBytes s.params.padCont) base.toNat len.toNat = .error (.answer st)) :
    exec (.ppParse base len) s = .next (s.refuse st) := by
  show execPpParse base len s = _
  rw [execPpParse, requireOperand, require_bind hview, h]
  rfl

/-- A view that is not empty is parsed by the code of its first byte (R147). -/
theorem parsePacket_eq {m : ByteSpace} {cont base len : Nat} (hin : base + len ≤ m.size) (hne : len ≠ 0) :
    parsePacket m cont base len =
      (fun y => (m.bytes.read base, y)) <$> parseCode m cont (tocCode (m.bytes.read base)) (base + 1) (len - 1) := by
  rw [parsePacket, requireLength, require_bind hne, ByteSpace.get_inside (by omega), ok_bind]
  rfl

section
variable (hview : viewLegal base len s.pkt.size) (hne : len.toNat ≠ 0)
include hview hne

theorem exec_ppParse_of_parseCode_ok {y : Layout}
    (h : parseCode s.pkt (padBytes s.params.padCont) (tocCode (s.pkt.bytes.read base.toNat)) (base.toNat + 1)
      (len.toNat - 1) = .ok y) :
    exec (.ppParse base len) s = .next (s.parsed (s.pkt.bytes.read base.toNat) y) :=
  exec_ppParse_of_parsePacket_ok hview (by rw [parsePacket_eq hview.2 hne, h]; rfl)

theorem exec_ppParse_of_parseCode_error {st : Status}
    (h : parseCode s.pkt (padBytes s.params.padCont) (tocCode (s.pkt.bytes.read base.toNat)) (base.toNat + 1)
      (len.toNat - 1) = .error (.answer st)) :
    exec (.ppParse base len) s = .next (s.refuse st) :=
  exec_ppParse_of_parsePacket_error hview (by rw [parsePacket_eq hview.2 hne, h]; rfl)

end

end

section
variable {m : ByteSpace} {cont p n : Nat} {toc : Byte}

theorem parseCode_zero (h : toc.toNat % 4 = 0) : parseCode m cont (tocCode toc) p n = parseCode0 p n := by
  simp only [parseCode, tocCode_toNat, h]

theorem parseCode_one (h : toc.toNat % 4 = 1) : parseCode m cont (tocCode toc) p n = parseCode1 p n := by
  simp only [parseCode, tocCode_toNat, h]

theorem parseCode_two (h : toc.toNat % 4 = 2) : parseCode m cont (tocCode toc) p n = parseCode2 m p n := by
  simp only [parseCode, tocCode_toNat, h]

theorem parseCode_three (h : toc.toNat % 4 = 3) : parseCode m cont (tocCode toc) p n = parseCode3 m cont p n := by
  simp only [parseCode, tocCode_toNat, h]

end

/-! ### Codes 0, 1 and 2 -/

/-- Settles O47: each code makes one check. -/
theorem parseOfCodes0And1 : Obligations.ParseOfCodes0And1 := by
  refine fun base len s hview hne => ⟨fun hcode hn => ?_, fun hcode hn => ?_, fun hcode heven hn => ?_,
    fun hcode hn => ?_⟩
  · refine exec_ppParse_of_parseCode_ok hview hne ?_
    rw [parseCode_zero hcode]
    exact require_bind (p := _ ≤ maxFrame) hn
  · refine exec_ppParse_of_parseCode_error hview hne ?_
    rw [parseCode_zero hcode]
    exact require_bind_not (p := _ ≤ maxFrame) (Nat.not_le.2 hn)
  · refine exec_ppParse_of_parseCode_ok hview hne ?_
    rw [parseCode_one hcode]
    exact require_bind (p := _ ∧ _ ≤ 2 * maxFrame) ⟨heven, hn⟩
  · refine exec_ppParse_of_parseCode_error hview hne ?_
    rw [parseCode_one hcode]
    exact require_bind_not (p := _ ∧ _ ≤ 2 * maxFrame) (by rw [show maxFrame = 1275 from rfl]; omega)

section
variable {m : ByteSpace} {p n : Nat}

/-- Code 2 after its first two checks is a length code that must fit what follows it (R150). -/
theorem parseCode2_eq (hin : p + n ≤ m.size) (hn : 1 ≤ n) (hb : m.bytes.read p ≠ 0) :
    parseCode2 m p n = (do
      let c ← varint m p n
      requireLength (c.value ≤ n - c.used)
      .ok { scheme := .doubleExplicit, arg := c.value, lpBase := 0, lpLen := 0, payBase := p + c.used,
            payLen := n - c.used }) := by
  rw [parseCode2, requireLength, require_bind hn, ByteSpace.get_inside (by omega), ok_bind, require_bind hb]

/-- A zero first length byte is `DTX`, before every other check of the bytes after it (R150). -/
theorem parseCode2_dtx (hin : p + n ≤ m.size) (hn : 1 ≤ n) (hb : m.bytes.read p = 0) :
    parseCode2 m p n = .error (.answer .dtx) := by
  rw [parseCode2, requireLength, require_bind hn, ByteSpace.get_inside (by omega), ok_bind,
    require_bind_not (not_not.2 hb)]

end

/-- Settles O48: the checks of code 2 in their order. -/
theorem parseOfCode2 : Obligations.ParseOfCode2 := by
  intro base len s hview hne hcode
  have hin : base.toNat + 1 + (len.toNat - 1) ≤ s.pkt.size := by have := hview.2; omega
  have hfail : ∀ {st}, parseCode2 s.pkt (base.toNat + 1) (len.toNat - 1) = .error (.answer st) →
      exec (.ppParse base len) s = .next (s.refuse st) := fun h =>
    exec_ppParse_of_parseCode_error hview hne (by rw [parseCode_two hcode, h])
  refine ⟨fun hn => hfail (require_bind_not (by omega)), fun hn hb => hfail (parseCode2_dtx hin hn hb),
    fun hn hb => ?_⟩
  rw [parseCode2_eq hin hn hb] at hfail
  refine ⟨fun e he => hfail ?_, fun c hc => ⟨fun hlong => hfail ?_, fun hfits => ?_⟩⟩
  · rw [(varint_cases hin).resolve_right fun ⟨c, hc⟩ => nomatch hc.symm.trans he]
    rfl
  · rw [hc]
    exact require_bind_not (Nat.not_le.2 hlong)
  · refine exec_ppParse_of_parseCode_ok hview hne ?_
    rw [parseCode_two hcode, parseCode2_eq hin hn hb, hc]
    exact require_bind hfits

end Sys2Proof.Machine

namespace Sys2Proof.Machine

/-!
Code 3: the header, the padding and the lengths (O49 to O51).
-/

/-! ### The header byte -/

theorem headerCount_eq (h : Byte) : headerCount h = h.toNat % 64 := by
  rw [headerCount, BitVec.extractLsb'_toNat, Nat.shiftRight_zero]

theorem headerPad_eq_decide (h : Byte) : headerPad h = decide (h.toNat / 64 % 2 = 1) := by
  rw [headerPad, BitVec.getLsbD, Nat.testBit_eq_decide_div_mod_eq]

theorem headerVbr_eq_decide (h : Byte) : headerVbr h = decide (h.toNat / 128 = 1) := by
  have hbyte := h.isLt
  rw [headerVbr, BitVec.getLsbD, Nat.testBit_eq_decide_div_mod_eq]
  exact decide_eq_decide.2 (by omega)

section
variable {m : ByteSpace} {cont p n : Nat}

/-- Code 3 after its first two checks: the padding, then the lengths (R151). -/
theorem parseCode3_eq (hin : p + n ≤ m.size) (hn : 1 ≤ n) (hcnt : (m.bytes.read p).toNat % 64 ≠ 0) :
    parseCode3 m cont p n = (do
      let (q, k) ← afterPadding m cont (m.bytes.read p) (p + 1) (n - 1)
      parseLengths m (m.bytes.read p) q k) := by
  rw [← headerCount_eq] at hcnt
  rw [parseCode3, requireLength, require_bind hn, ByteSpace.get_inside (by omega), ok_bind, require_bind hcnt]

/-- A frame count of 0 is `INVALID_FORMAT`, before every check of the bytes after it (R151). -/
theorem parseCode3_no_frames (hin : p + n ≤ m.size) (hn : 1 ≤ n) (hcnt : (m.bytes.read p).toNat % 64 = 0) :
    parseCode3 m cont p n = .error (.answer .invalidFormat) := by
  rw [← headerCount_eq] at hcnt
  rw [parseCode3, requireLength, require_bind hn, ByteSpace.get_inside (by omega), ok_bind,
    require_bind_not (not_not.2 hcnt)]

theorem afterPadding_of_pad {h : Byte} (hpad : h.toNat / 64 % 2 = 1) :
    afterPadding m cont h p n = stripPadding m cont p n := by
  rw [afterPadding, if_pos (by rw [headerPad_eq_decide]; exact decide_eq_true hpad)]

theorem afterPadding_of_no_pad {h : Byte} (hpad : h.toNat / 64 % 2 = 0) : afterPadding m cont h p n = .ok (p, n) := by
  rw [afterPadding, if_neg]
  rw [headerPad_eq_decide, decide_eq_true_eq]
  omega

/-- What the padding leaves when its chain ends within the data: the check is on the sum (R152). -/
theorem stripPadding_eq {j : Nat} (hj : j < n) (hin : p + n ≤ m.size)
    (hall : ∀ i, i < j → m.bytes.read (p + i) = 255) (hend : m.bytes.read (p + j) ≠ 255) :
    stripPadding m cont p n = (do
      requireLength (j * cont + (m.bytes.read (p + j)).toNat ≤ n - j - 1)
      .ok (p + j + 1, n - j - 1 - (j * cont + (m.bytes.read (p + j)).toNat))) := by
  rw [stripPadding, padChain_ends hj hin hall hend, Nat.zero_add]
  rfl

end

/-- The padding of a code-3 packet leaves its body (R151 to R153). -/
theorem Code3Body.afterPadding_eq {m : ByteSpace} {cont base len q k : Nat} (h : Code3Body m cont base len q k)
    (hin : base + len ≤ m.size) (h2 : 2 ≤ len) :
    afterPadding m cont (m.bytes.read (base + 1)) (base + 2) (len - 2) = .ok (q, k) := by
  rcases h with ⟨hpad, rfl, rfl⟩ | ⟨hpad, j, hj, hall, hend, hfits, rfl, rfl⟩
  · exact afterPadding_of_no_pad hpad
  · rw [afterPadding_of_pad hpad, stripPadding_eq (j := j) (by omega) (by omega) hall hend, requireLength,
      require_bind (show j * cont + (m.bytes.read (base + 2 + j)).toNat ≤ len - 2 - j - 1 by omega)]
    congr 2 <;> omega

/-! ### The failures before the lengths -/

/-- Settles O49: the checks of the view, the header byte, the frame count and the padding in their order. -/
theorem headerAndPaddingFailures : Obligations.HeaderAndPaddingFailures := by
  refine fun base len s hview => ⟨fun h0 => ?_, fun hne hcode => ?_⟩
  · exact exec_ppParse_of_parsePacket_error hview (require_bind_not (not_not.2 h0))
  have hin : base.toNat + 1 + (len.toNat - 1) ≤ s.pkt.size := by have := hview.2; omega
  have hfail : ∀ {st}, parseCode3 s.pkt (padBytes s.params.padCont) (base.toNat + 1) (len.toNat - 1) =
      .error (.answer st) → exec (.ppParse base len) s = .next (s.refuse st) := fun h =>
    exec_ppParse_of_parseCode_error hview hne (by rw [parseCode_three hcode, h])
  refine ⟨fun h1 => hfail (require_bind_not (by omega)), fun h2 =>
    ⟨fun hcnt => hfail (parseCode3_no_frames hin (by omega) hcnt), fun hcnt hpad j hall => ?_⟩⟩
  rw [parseCode3_eq hin (by omega) hcnt, afterPadding_of_pad hpad] at hfail
  refine ⟨fun hj => hfail ?_, fun hj hend hlong => hfail ?_⟩
  · rw [stripPadding, padChain_runs_off (by omega) fun i hi => hall i (by omega)]
    rfl
  · rw [stripPadding_eq (j := j) (by omega) (by omega) hall hend, requireLength, require_bind_not]
    · rfl
    · show ¬_ + (s.pkt.bytes.read (base.toNat + 2 + j)).toNat ≤ _
      omega

/-! ### The lengths -/

section
variable {m : ByteSpace} {h : Byte} {q k : Nat}

theorem parseLengths_of_vbr (hvbr : h.toNat / 128 = 1) :
    parseLengths m h q k = parseVbr m q k (h.toNat % 64) := by
  rw [parseLengths, if_pos (by rw [headerVbr_eq_decide]; exact decide_eq_true hvbr), headerCount_eq]

theorem parseLengths_of_cbr (hcbr : h.toNat / 128 = 0) : parseLengths m h q k = parseCbr q k (h.toNat % 64) := by
  rw [parseLengths, if_neg, headerCount_eq]
  rw [headerVbr_eq_decide, decide_eq_true_eq]
  omega

/-- Length codes that stand at the front of the body: the check is on their sum (R154). -/
theorem parseVbr_of_codesAt {cnt used : Nat} {ls : List Nat} (hlen : ls.length = cnt - 1)
    (h : CodesAt m q k ls used) :
    parseVbr m q k cnt = (do
      requireLength (ls.sum ≤ k - used)
      .ok { scheme := .vbr, arg := 0, lpBase := q, lpLen := used, payBase := q + used, payLen := k - used }) := by
  rw [parseVbr, ← hlen, vbrCodes_of_codesAt h, ok_bind]
  simp only [Nat.zero_add, Nat.add_sub_cancel_left]

/-- A length code that is missing (R146, R154). -/
theorem parseVbr_of_no_codes {cnt : Nat} (hin : q + k ≤ m.size)
    (h : ¬∃ (ls : List Nat) (used : Nat), ls.length = cnt - 1 ∧ CodesAt m q k ls used) :
    parseVbr m q k cnt = .error (.answer .invalidLength) := by
  have hmissing : ¬∃ r, vbrCodes m (cnt - 1) q k 0 = .ok r := fun ⟨r, hr⟩ => by
    obtain ⟨ls, used, hlen, hat, -⟩ := vbrCodes_ok hr
    exact h ⟨ls, used, hlen, hat⟩
  rw [parseVbr, (vbrCodes_cases hin).resolve_right hmissing]
  rfl

end

/-- The body of a code-3 packet ends inside the view (R147, R153). -/
theorem Code3Body.inside {m : ByteSpace} {cont base len q k : Nat} (h : Code3Body m cont base len q k) (h2 : 2 ≤ len) :
    q + k ≤ base + len := by
  rcases h with ⟨-, rfl, rfl⟩ | ⟨-, j, hj, -, -, -, rfl, rfl⟩ <;> omega

/-- A code-3 packet is parsed by the lengths of its body (R151). -/
theorem parseCode_of_code3Body {m : ByteSpace} {cont base len q k : Nat} (hbody : Code3Body m cont base len q k)
    (hin : base + len ≤ m.size) (h2 : 2 ≤ len) (hcode : (m.bytes.read base).toNat % 4 = 3)
    (hcnt : (m.bytes.read (base + 1)).toNat % 64 ≠ 0) :
    parseCode m cont (tocCode (m.bytes.read base)) (base + 1) (len - 1) =
      parseLengths m (m.bytes.read (base + 1)) q k := by
  rw [parseCode_three hcode, parseCode3_eq (by omega) (by omega) hcnt]
  exact congrArg (· >>= _) (hbody.afterPadding_eq hin h2)

/-- Settles O50: the codes are those the loop reads, and there are codes when it completes. -/
theorem parseOfVbr : Obligations.ParseOfVbr := by
  intro base len s q k hview h2 toc h hcode hcnt hvbr hbody
  have hparse := parseCode_of_code3Body hbody hview.2 h2 hcode hcnt
  rw [parseLengths_of_vbr hvbr] at hparse
  refine ⟨fun ls used hlen hat => ⟨fun hfits => ?_, fun hlong => ?_⟩, fun hnone => ?_⟩
  · rw [parseVbr_of_codesAt hlen hat] at hparse
    exact exec_ppParse_of_parseCode_ok hview (by omega) (hparse.trans (require_bind hfits))
  · rw [parseVbr_of_codesAt hlen hat] at hparse
    exact exec_ppParse_of_parseCode_error hview (by omega) (hparse.trans (require_bind_not (Nat.not_le.2 hlong)))
  · have hinside : q + k ≤ s.pkt.size := (hbody.inside h2).trans hview.2
    rw [parseVbr_of_no_codes hinside hnone] at hparse
    exact exec_ppParse_of_parseCode_error hview (by omega) hparse

/-- Settles O51: the two checks of the equal frames. -/
theorem parseOfCbr : Obligations.ParseOfCbr := by
  intro base len s q k hview h2 toc h hcode hcnt hcbr hbody
  have hparse := parseCode_of_code3Body hbody hview.2 h2 hcode hcnt
  rw [parseLengths_of_cbr hcbr, parseCbr] at hparse
  refine ⟨fun hdvd hmax => ?_, fun hbad => ?_⟩
  · rw [requireLength, require_bind hdvd, requireLength, require_bind (p := _ ≤ maxFrame) hmax] at hparse
    exact exec_ppParse_of_parseCode_ok hview (by omega) hparse
  · refine exec_ppParse_of_parseCode_error hview (by omega) (hparse.trans ?_)
    by_cases hdvd : k % ((s.pkt.bytes.read (base.toNat + 1)).toNat % 64) = 0
    · have hbig := hbad.resolve_left (not_not.2 hdvd)
      rw [requireLength, require_bind hdvd, requireLength, require_bind_not (p := _ ≤ maxFrame) (Nat.not_le.2 hbig)]
    · rw [requireLength, require_bind_not hdvd]

end Sys2Proof.Machine

namespace Sys2Proof.Machine

/-!
A parse that completes: what is committed (O52) and that it fits the view (O53).
-/

/-! ### A `PP.PARSE` answered `OK` -/

/-- A parse failure is a status other than `OK` (R192). -/
theorem ParseFailure.eq_answer {e : Halt} (h : ParseFailure e) : ∃ st, e = .answer st ∧ st ≠ .ok := by
  rcases h with rfl | rfl | rfl <;> exact ⟨_, rfl, nofun⟩

/-- A completed parse of bytes inside the memory has read the TOC byte and made the checks of R157. -/
theorem layoutOk_of_parsePacket_ok {m : ByteSpace} {cont base len : Nat} {toc : Byte} {y : Layout}
    (hin : base + len ≤ m.size) (h : parsePacket m cont base len = .ok (toc, y)) :
    toc = m.bytes.read base ∧ len ≠ 0 ∧ LayoutOk m (base + 1) (base + len) y := by
  rcases parsePacket_cases (cont := cont) hin with ⟨e, he, -⟩ | ⟨y', hy', hne, hok⟩
  · cases h.symm.trans he
  · cases h.symm.trans hy'
    exact ⟨rfl, hne, hok⟩

/-- A `PP.PARSE` answered `OK` has a legal view and has committed the layout its parse completed with (R147, R156). -/
theorem exec_ppParse_answered_ok {base len : Word} {s t : State} {r : Response}
    (ht : exec (.ppParse base len) s = .next t) (hr : t.lastResponse = some r) (hok : r.status = .ok) :
    viewLegal base len s.pkt.size ∧ ∃ y,
      parsePacket s.pkt (padBytes s.params.padCont) base.toNat len.toNat = .ok (s.pkt.bytes.read base.toNat, y) ∧
      r.results = commitResults (s.pkt.bytes.read base.toNat) y ∧ t = s.parsed (s.pkt.bytes.read base.toNat) y := by
  obtain ⟨st, results⟩ := r
  obtain rfl : st = .ok := hok
  obtain ⟨hview, -⟩ := check_of_answered_ok (s := s) ht hr nofun
  refine ⟨hview, ?_⟩
  rcases parsePacket_cases (cont := padBytes s.params.padCont) hview.2 with ⟨e, h, he⟩ | ⟨y, h, -, -⟩
  · obtain ⟨st, rfl, hst⟩ := he.eq_answer
    cases ht.symm.trans (exec_ppParse_of_parsePacket_error hview h)
    cases (lastResponse_refuse s st).symm.trans hr
    exact absurd rfl hst
  · cases ht.symm.trans (exec_ppParse_of_parsePacket_ok hview h)
    cases (lastResponse_parsed s _ y).symm.trans hr
    exact ⟨y, h, rfl, rfl⟩

/-! ### The numbers committed -/

section
variable {m : ByteSpace} {lo hi : Nat} {y : Layout} (h : LayoutOk m lo hi y) (hhi : hi ≤ m.size)
  (hmax : m.size ≤ maxView)
include h hhi hmax

/-- The numbers of a completed parse fit their registers (R32 to R34). -/
theorem LayoutOk.lt_two_pow : y.payBase < 2 ^ 25 ∧ y.payLen < 2 ^ 25 ∧ y.arg < 2 ^ 25 ∧ y.lpBase < 2 ^ 25 ∧
    y.lpLen < 2 ^ 25 := by
  have hmv : maxView = 16777216 := rfl
  have hmf : maxFrame = 1275 := rfl
  have hpay := h.payHigh
  have harg := h.argSmall
  refine ⟨by omega, by omega, by omega, ?_⟩
  by_cases hs : y.scheme = .vbr
  · obtain ⟨-, hend, -⟩ := h.codesFit hs
    omega
  · obtain ⟨hbase, hlen⟩ := h.noCodes hs
    omega

/-- The registers after a completed parse hold its numbers (R156). -/
theorem LayoutOk.commitUnit_toNat (toc : Byte) :
    (commitUnit toc y).payBase.toNat = y.payBase ∧ (commitUnit toc y).payLen.toNat = y.payLen ∧
    (commitUnit toc y).arg.toNat = y.arg ∧ (commitUnit toc y).lpBase.toNat = y.lpBase ∧
    (commitUnit toc y).lpLen.toNat = y.lpLen := by
  obtain ⟨hbase, hlen, harg, hlpBase, hlpLen⟩ := h.lt_two_pow hhi hmax
  exact ⟨ofNat25_toNat hbase, ofNat25_toNat hlen, ofNat25_toNat harg, ofNat25_toNat hlpBase, ofNat25_toNat hlpLen⟩

/-- The response of a completed parse holds its numbers (R156). -/
theorem LayoutOk.commitResults_toNat (toc : Byte) :
    (commitResults toc y).r1.toNat = y.payBase ∧ (commitResults toc y).r2.toNat = y.payLen ∧
    (commitResults toc y).r3.toNat = if y.scheme = .vbr then y.lpLen else y.arg := by
  obtain ⟨hbase, hlen, harg, -, hlpLen⟩ := h.lt_two_pow hhi hmax
  have hword : ∀ {x : Nat}, x < 2 ^ 25 → (BitVec.ofNat 32 x).toNat = x := fun hx => by
    rw [BitVec.toNat_ofNat, Nat.mod_eq_of_lt (by omega)]
  refine ⟨hword hbase, hword hlen, hword ?_⟩
  split
  · exact hlpLen
  · exact harg

end

/-- Settles O52: the committed registers and the response hold the numbers of the same layout, and the fields of the TOC
byte are those of its number. -/
theorem ppParseCommits : Obligations.PpParseCommits := by
  intro base len s t r hs ht hr hok toc
  obtain ⟨hview, y, hparse, hres, rfl⟩ := exec_ppParse_answered_ok ht hr hok
  obtain ⟨-, -, hy⟩ := layoutOk_of_parsePacket_ok hview.2 hparse
  obtain ⟨hbase, hlen, harg, -, hlpLen⟩ := hy.commitUnit_toNat hview.2 hs.pkt.sizeMax (s.pkt.bytes.read base.toNat)
  obtain ⟨h1, h2, h3⟩ := hy.commitResults_toNat hview.2 hs.pkt.sizeMax (s.pkt.bytes.read base.toNat)
  simp only [hres, State.parsed_pp, toc, ← tocCfg_eq_ofNat, hbase, hlen, harg, hlpLen]
  exact ⟨rfl, rfl, rfl, rfl, tocStereo_eq_decide _, tocDescriptor_toNat _ _, h1, h2, h3, rfl⟩

/-! ### The frames of a completed parse -/

/-- Codes that stand within some bytes stand within those they take. -/
theorem CodesAt.shrink {m : ByteSpace} : ∀ {ls : List Nat} {p n used : Nat}, CodesAt m p n ls used →
    CodesAt m p used ls used := by
  intro ls
  induction ls with
  | nil => exact id
  | cons l ls ih =>
    rintro p n used ⟨c, hc, hl, hu, hrest⟩
    exact ⟨c, varint_shrink hc hu, hl, hu, ih hrest⟩

/-- How many frames a completed parse announces fit its payload, by scheme, where `LayoutOk` does not say it (R148, R151,
R154, R155): one frame of at most 1275 bytes; 1 to 63 equal ones; at most 62 whole length codes, none of them before `lo`. -/
def Layout.FramesFit (m : ByteSpace) (lo : Nat) (y : Layout) : Prop :=
  match y.scheme with
  | .single => y.payLen ≤ maxFrame
  | .doubleEqual | .doubleExplicit => True
  | .cbr => ∃ cnt, 1 ≤ cnt ∧ cnt ≤ 63 ∧ cnt * y.arg = y.payLen
  | .vbr => lo ≤ y.lpBase ∧ ∃ ls, CodesAt m y.lpBase y.lpLen ls y.lpLen ∧ ls.length ≤ 62 ∧ ls.sum ≤ y.payLen

section
variable {m : ByteSpace} {p n lo : Nat} {y : Layout}

theorem parseCode0_framesFit (h : parseCode0 p n = .ok y) : y.FramesFit m lo := by
  obtain ⟨_, hn, h⟩ := bind_eq_ok.1 h
  have hn := require_eq_ok.1 hn
  cases h
  exact hn

theorem parseCode1_framesFit (h : parseCode1 p n = .ok y) : y.FramesFit m lo := by
  obtain ⟨_, -, h⟩ := bind_eq_ok.1 h
  cases h
  trivial

theorem parseCode2_framesFit (h : parseCode2 m p n = .ok y) : y.FramesFit m lo := by
  obtain ⟨_, -, h⟩ := bind_eq_ok.1 h
  obtain ⟨b, -, h⟩ := bind_eq_ok.1 h
  obtain ⟨_, -, h⟩ := bind_eq_ok.1 h
  obtain ⟨c, -, h⟩ := bind_eq_ok.1 h
  obtain ⟨_, -, h⟩ := bind_eq_ok.1 h
  cases h
  trivial

theorem parseVbr_framesFit {cnt : Nat} (hlo : lo ≤ p) (hcnt : cnt ≤ 63) (h : parseVbr m p n cnt = .ok y) :
    y.FramesFit m lo := by
  obtain ⟨r, hr, h⟩ := bind_eq_ok.1 h
  obtain ⟨ls, used, hlen, hat, rfl⟩ := vbrCodes_ok hr
  obtain ⟨_, hsum, h⟩ := bind_eq_ok.1 h
  have hsum := require_eq_ok.1 hsum
  rw [Nat.zero_add] at hsum
  rw [Nat.add_sub_cancel_left] at h
  cases h
  exact ⟨hlo, ls, hat.shrink, by omega, hsum⟩

theorem parseCbr_framesFit {cnt : Nat} (hpos : 1 ≤ cnt) (hcnt : cnt ≤ 63) (h : parseCbr p n cnt = .ok y) :
    y.FramesFit m lo := by
  obtain ⟨_, hdvd, h⟩ := bind_eq_ok.1 h
  obtain ⟨_, -, h⟩ := bind_eq_ok.1 h
  cases h
  exact ⟨cnt, hpos, hcnt, Nat.mul_div_cancel' (Nat.dvd_of_mod_eq_zero (require_eq_ok.1 hdvd))⟩

theorem parseCode3_framesFit {cont : Nat} (hin : p + n ≤ m.size) (h : parseCode3 m cont p n = .ok y) :
    y.FramesFit m (p + 1) := by
  obtain ⟨_, hn, h⟩ := bind_eq_ok.1 h
  have hn := require_eq_ok.1 hn
  obtain ⟨b, -, h⟩ := bind_eq_ok.1 h
  obtain ⟨_, hcnt, h⟩ := bind_eq_ok.1 h
  have hcnt := require_eq_ok.1 hcnt
  rw [headerCount_eq] at hcnt
  obtain ⟨⟨q, k⟩, hqk, h⟩ := bind_eq_ok.1 h
  have hq : p + 1 ≤ q := by
    rcases afterPadding_cases (m := m) (cont := cont) (h := b) (p := p + 1) (n := n - 1) (by omega) with
      ⟨e, he, -⟩ | ⟨q', k', hok, hq, -⟩
    · cases hqk.symm.trans he
    · cases hqk.symm.trans hok
      exact hq
  simp only [parseLengths, headerCount_eq] at h
  split at h
  · exact parseVbr_framesFit hq (by omega) h
  · exact parseCbr_framesFit (by omega) (by omega) h

theorem parsePacket_framesFit {cont base len : Nat} {toc : Byte} (hin : base + len ≤ m.size)
    (h : parsePacket m cont base len = .ok (toc, y)) : y.FramesFit m (base + 2) := by
  obtain ⟨_, hne, h⟩ := bind_eq_ok.1 h
  have hne := require_eq_ok.1 hne
  obtain ⟨b, -, h⟩ := bind_eq_ok.1 h
  obtain ⟨y', hy, h⟩ := bind_eq_ok.1 h
  cases h
  unfold parseCode at hy
  split at hy
  · exact parseCode0_framesFit hy
  · exact parseCode1_framesFit hy
  · exact parseCode2_framesFit hy
  · exact parseCode3_framesFit (by omega) hy

end

/-- Settles O53: the clauses on one scheme are those of `LayoutOk` and `FramesFit`. -/
theorem aParsedPacketStaysInItsView : Obligations.AParsedPacketStaysInItsView := by
  intro base len s t r hs ht hr hok
  obtain ⟨hview, y, hparse, -, rfl⟩ := exec_ppParse_answered_ok ht hr hok
  obtain ⟨-, -, hy⟩ := layoutOk_of_parsePacket_ok hview.2 hparse
  have hfit := parsePacket_framesFit hview.2 hparse
  obtain ⟨hbase, hlen, harg, hlpBase, hlpLen⟩ :=
    hy.commitUnit_toNat hview.2 hs.pkt.sizeMax (s.pkt.bytes.read base.toNat)
  have hscheme : (commitUnit (s.pkt.bytes.read base.toNat) y).scheme = y.scheme := rfl
  rw [State.parsed_pp, hscheme, hbase, hlen, harg, hlpBase, hlpLen]
  unfold Layout.FramesFit at hfit
  refine ⟨hy.payLow, hy.payHigh, fun hsch => ?_, hy.equalHalves, hy.explicitFits, fun hsch => ?_, fun hsch => ?_⟩
  · rw [hsch] at hfit
    exact hfit
  · rw [hsch] at hfit
    exact ⟨hy.argSmall, hfit⟩
  · rw [hsch] at hfit
    exact ⟨hfit.1, (hy.codesFit hsch).2.1, hfit.2⟩

end Sys2Proof.Machine

namespace Sys2Proof.Machine

/-!
The parse reads the bytes of its view only (O54): the same operation on the same bytes at two places goes the same way, and the
addresses in what it answers lie as far apart as the two places.
-/

/-! ### The same bytes at two places -/

/-- The `n` bytes from `p` on in `m` and those from `p'` on in `m'` lie inside the memories and are the same, and `p` and `p'`
lie as far apart as `base` and `base'`. -/
structure SameBytes (m m' : ByteSpace) (base base' p p' n : Nat) : Prop where
  inside : p + n ≤ m.size
  inside' : p' + n ≤ m'.size
  apart : p' + base = p + base'
  bytes : ∀ i, i < n → m'.bytes.read (p' + i) = m.bytes.read (p + i)

/-- Two operations go the same way: they end early alike, or complete with results that `R` relates. -/
def Agree {α : Type} (R : α → α → Prop) : Except Halt α → Except Halt α → Prop
  | .ok a, .ok a' => R a a'
  | .error e, .error e' => e' = e
  | _, _ => False

section
variable {α β : Type} {R : α → α → Prop} {S : β → β → Prop}

theorem Agree.ok {x x' : Except Halt α} {a : α} (h : Agree R x x') (hx : x = .ok a) : ∃ a', x' = .ok a' ∧ R a a' := by
  subst hx
  cases x' with
  | error e => exact h.elim
  | ok a' => exact ⟨a', rfl, h⟩

theorem Agree.error {x x' : Except Halt α} {e : Halt} (h : Agree R x x') (hx : x = .error e) : x' = .error e := by
  subst hx
  cases x' with
  | error e' => exact congrArg Except.error h
  | ok a' => exact h.elim

theorem Agree.bind {x x' : Except Halt α} {f f' : α → Except Halt β} (hx : Agree R x x')
    (hf : ∀ a a', R a a' → Agree S (f a) (f' a')) : Agree S (x >>= f) (x' >>= f') := by
  cases x with
  | error e =>
    rw [hx.error rfl]
    exact rfl
  | ok a =>
    obtain ⟨a', rfl, hR⟩ := hx.ok rfl
    exact hf a a' hR

theorem Agree.check {p p' : Prop} [Decidable p] [Decidable p'] {h : Halt} {f f' : Unit → Except Halt β} (hp : p' ↔ p)
    (hf : p → Agree S (f ()) (f' ())) : Agree S (require p h >>= f) (require p' h >>= f') := by
  by_cases hpos : p
  · rw [require_bind hpos, require_bind (hp.2 hpos)]
    exact hf hpos
  · rw [require_bind_not hpos, require_bind_not (mt hp.1 hpos)]
    exact rfl

end

/-- Two layouts differ in their addresses only, which lie as far apart as `base` and `base'`; `lpb` is an address where there
are length codes (R159). -/
structure Layout.Moved (base base' : Nat) (y y' : Layout) : Prop where
  scheme : y'.scheme = y.scheme
  arg : y'.arg = y.arg
  lpLen : y'.lpLen = y.lpLen
  payLen : y'.payLen = y.payLen
  payBase : y'.payBase + base = y.payBase + base'
  lpBaseVbr : y.scheme = .vbr → y'.lpBase + base = y.lpBase + base'
  lpBaseOther : y.scheme ≠ .vbr → y'.lpBase = y.lpBase

section
variable {m m' : ByteSpace} {base base' p p' n : Nat}

/-- Part of the same bytes. -/
theorem SameBytes.part (h : SameBytes m m' base base' p p' n) {j k : Nat} (hjk : j + k ≤ n) :
    SameBytes m m' base base' (p + j) (p' + j) k := by
  obtain ⟨hin, hin', hapart, hbytes⟩ := h
  refine ⟨by omega, by omega, by omega, fun i hi => ?_⟩
  rw [Nat.add_assoc, Nat.add_assoc]
  exact hbytes (j + i) (by omega)

theorem SameBytes.get_first (h : SameBytes m m' base base' p p' n) (hn : 1 ≤ n) :
    m.get p = .ok (m.bytes.read p) ∧ m'.get p' = .ok (m.bytes.read p) := by
  obtain ⟨hin, hin', -, hbytes⟩ := h
  rw [ByteSpace.get_inside (by omega), ByteSpace.get_inside (by omega), show m'.bytes.read p' = m.bytes.read p from
    hbytes 0 hn]
  exact ⟨rfl, rfl⟩

/-! ### The parser's operations at two places -/

theorem SameBytes.varint_eq (h : SameBytes m m' base base' p p' n) : varint m' p' n = varint m p n := by
  rcases Nat.eq_zero_or_pos n with rfl | hn
  · rw [varint_missing h.inside (.inl rfl), varint_missing h.inside' (.inl rfl)]
  have hfirst : m'.bytes.read p' = m.bytes.read p := h.bytes 0 hn
  by_cases hv : (m.bytes.read p).toNat ≤ 251
  · rw [varint_short h.inside hn hv, varint_short h.inside' hn (hfirst ▸ hv), hfirst]
  · have hv : 251 < (m.bytes.read p).toNat := by omega
    by_cases h2 : 2 ≤ n
    · rw [varint_long h.inside h2 hv, varint_long h.inside' h2 (hfirst ▸ hv), hfirst, h.bytes 1 h2]
    · have h1 : n = 1 := by omega
      rw [varint_missing h.inside (.inr ⟨h1, hv⟩), varint_missing h.inside' (.inr ⟨h1, hfirst ▸ hv⟩)]

/-- A length code agrees with itself, and what follows it are the same bytes again. -/
theorem SameBytes.varint_agree (h : SameBytes m m' base base' p p' n) :
    Agree (fun c c' => c' = c ∧ SameBytes m m' base base' (p + c.used) (p' + c.used) (n - c.used))
      (varint m p n) (varint m' p' n) := by
  rw [h.varint_eq]
  cases hc : varint m p n with
  | error e => exact rfl
  | ok c =>
    obtain ⟨-, hused, -⟩ := varint_ok_bounds hc
    exact ⟨rfl, h.part (by omega)⟩

theorem parseCode0_agree (hapart : p' + base = p + base') :
    Agree (Layout.Moved base base') (parseCode0 p n) (parseCode0 p' n) :=
  .check Iff.rfl fun _ => ⟨rfl, rfl, rfl, rfl, hapart, nofun, fun _ => rfl⟩

theorem parseCode1_agree (hapart : p' + base = p + base') :
    Agree (Layout.Moved base base') (parseCode1 p n) (parseCode1 p' n) :=
  .check Iff.rfl fun _ => ⟨rfl, rfl, rfl, rfl, hapart, nofun, fun _ => rfl⟩

theorem parseCbr_agree (cnt : Nat) (hapart : p' + base = p + base') :
    Agree (Layout.Moved base base') (parseCbr p n cnt) (parseCbr p' n cnt) :=
  .check Iff.rfl fun _ => .check Iff.rfl fun _ => ⟨rfl, rfl, rfl, rfl, hapart, nofun, fun _ => rfl⟩

theorem SameBytes.parseCode2_agree (h : SameBytes m m' base base' p p' n) :
    Agree (Layout.Moved base base') (parseCode2 m p n) (parseCode2 m' p' n) := by
  refine .check Iff.rfl fun hn => ?_
  obtain ⟨hget, hget'⟩ := h.get_first hn
  rw [hget, hget']
  refine .check Iff.rfl fun _ => h.varint_agree.bind ?_
  rintro c _ ⟨rfl, hrest⟩
  exact .check Iff.rfl fun _ => ⟨rfl, rfl, rfl, rfl, hrest.apart, nofun, fun _ => rfl⟩

/-- The padding chain (R152). -/
theorem SameBytes.padChain_agree (cont : Nat) : ∀ {n p p' tp : Nat}, SameBytes m m' base base' p p' n →
    Agree (fun c c' => c'.total = c.total ∧ c'.left = c.left ∧ SameBytes m m' base base' c.next c'.next c.left)
      (padChain m cont n p tp) (padChain m' cont n p' tp) := by
  intro n
  induction n with
  | zero => exact fun _ => rfl
  | succ n ih =>
    intro p p' tp h
    obtain ⟨hget, hget'⟩ := h.get_first (by omega)
    have hrest : SameBytes m m' base base' (p + 1) (p' + 1) n := h.part (by omega)
    rw [padChain, padChain, hget, hget', ok_bind, ok_bind]
    split
    · exact ih hrest
    · exact ⟨rfl, rfl, hrest⟩

/-- The padding (R151, R152). -/
theorem SameBytes.afterPadding_agree (h : SameBytes m m' base base' p p' n) (cont : Nat) (b : Byte) :
    Agree (fun a a' => a'.2 = a.2 ∧ SameBytes m m' base base' a.1 a'.1 a.2)
      (afterPadding m cont b p n) (afterPadding m' cont b p' n) := by
  unfold afterPadding
  split
  · refine (h.padChain_agree cont).bind ?_
    rintro c c' ⟨htotal, hleft, hrest⟩
    rw [htotal, hleft]
    exact .check Iff.rfl fun _ => ⟨rfl, hrest.part (j := 0) (by omega)⟩
  · exact ⟨rfl, h⟩

/-- The length codes (R154). -/
theorem SameBytes.vbrCodes_agree : ∀ {k p p' n sum : Nat}, SameBytes m m' base base' p p' n →
    Agree (fun r r' => r'.sum = r.sum ∧ r'.left = r.left ∧ r'.next + base = r.next + base')
      (vbrCodes m k p n sum) (vbrCodes m' k p' n sum) := by
  intro k
  induction k with
  | zero => exact fun h => ⟨rfl, rfl, h.apart⟩
  | succ k ih =>
    intro p p' n sum h
    refine h.varint_agree.bind ?_
    rintro c _ ⟨rfl, hrest⟩
    exact ih hrest

theorem SameBytes.parseVbr_agree (h : SameBytes m m' base base' p p' n) (cnt : Nat) :
    Agree (Layout.Moved base base') (parseVbr m p n cnt) (parseVbr m' p' n cnt) := by
  refine h.vbrCodes_agree.bind ?_
  rintro r r' ⟨hsum, hleft, hnext⟩
  have hapart := h.apart
  rw [hsum, hleft]
  exact .check Iff.rfl fun _ => {
    scheme := rfl
    arg := rfl
    lpLen := show r'.next - p' = r.next - p by omega
    payLen := rfl
    payBase := hnext
    lpBaseVbr := fun _ => hapart
    lpBaseOther := fun hne => absurd rfl hne }

theorem SameBytes.parseCode3_agree (h : SameBytes m m' base base' p p' n) (cont : Nat) :
    Agree (Layout.Moved base base') (parseCode3 m cont p n) (parseCode3 m' cont p' n) := by
  refine .check Iff.rfl fun hn => ?_
  obtain ⟨hget, hget'⟩ := h.get_first hn
  rw [hget, hget']
  refine .check Iff.rfl fun _ => ((h.part (j := 1) (by omega)).afterPadding_agree cont _).bind ?_
  rintro ⟨q, k⟩ ⟨q', _⟩ ⟨rfl, hrest⟩
  simp only [parseLengths]
  split
  · exact hrest.parseVbr_agree _
  · exact parseCbr_agree _ hrest.apart

/-- The whole parse: the same TOC byte, and the layout moved (R159). -/
theorem SameBytes.parsePacket_agree (h : SameBytes m m' base base' p p' n) (cont : Nat) :
    Agree (fun a a' => a'.1 = a.1 ∧ a.2.Moved base base' a'.2) (parsePacket m cont p n) (parsePacket m' cont p' n) := by
  refine .check Iff.rfl fun hne => ?_
  obtain ⟨hget, hget'⟩ := h.get_first (by omega)
  have hrest : SameBytes m m' base base' (p + 1) (p' + 1) (n - 1) := h.part (by omega)
  rw [hget, hget', ok_bind, ok_bind]
  refine Agree.bind (R := Layout.Moved base base') ?_ fun y y' hy => ⟨rfl, hy⟩
  unfold parseCode
  split
  · exact parseCode0_agree hrest.apart
  · exact parseCode1_agree hrest.apart
  · exact hrest.parseCode2_agree
  · exact hrest.parseCode3_agree cont

end

/-- The registers of a moved layout differ in the addresses only (R156, R159). -/
theorem Layout.Moved.commitUnit_eq {base base' : Nat} {y y' : Layout} (h : y.Moved base base' y') (toc : Byte) :
    commitUnit toc y' =
      { commitUnit toc y with payBase := (commitUnit toc y').payBase, lpBase := (commitUnit toc y').lpBase } := by
  simp only [commitUnit, h.scheme, h.arg, h.lpLen, h.payLen]

/-- The response of a moved layout differs in the address only (R156, R159). -/
theorem Layout.Moved.commitResults_eq {base base' : Nat} {y y' : Layout} (h : y.Moved base base' y') (toc : Byte) :
    (commitResults toc y').r0 = (commitResults toc y).r0 ∧ (commitResults toc y').r2 = (commitResults toc y).r2 ∧
    (commitResults toc y').r3 = (commitResults toc y).r3 := by
  simp only [commitResults, h.scheme, h.arg, h.lpLen, h.payLen, and_self]

/-- Settles O54: the two parses agree (`SameBytes.parsePacket_agree`), so both fail alike or both commit, the one layout
being the other moved. -/
theorem ppParseReadsOnlyItsView : Obligations.PpParseReadsOnlyItsView := by
  intro base base' len s s' hpkt hpkt' hview hview' hpad hbytes
  have hagree := SameBytes.parsePacket_agree ⟨hview.2, hview'.2, Nat.add_comm base'.toNat base.toNat, hbytes⟩
    (padBytes s.params.padCont)
  rcases parsePacket_cases (cont := padBytes s.params.padCont) hview.2 with ⟨e, hparse, he⟩ | ⟨y, hparse, -, hy⟩
  · obtain ⟨st, rfl, hst⟩ := he.eq_answer
    have hparse' := hagree.error hparse
    rw [← hpad] at hparse'
    exact ⟨_, _, _, _, exec_ppParse_of_parsePacket_error hview hparse, exec_ppParse_of_parsePacket_error hview' hparse',
      lastResponse_refuse s st, lastResponse_refuse s' st, rfl, rfl, rfl, rfl, fun hok => absurd hok hst⟩
  · obtain ⟨⟨toc', y'⟩, hparse', rfl, hmoved⟩ := hagree.ok hparse
    rw [← hpad] at hparse'
    obtain ⟨-, -, hy'⟩ := layoutOk_of_parsePacket_ok hview'.2 hparse'
    generalize s.pkt.bytes.read base.toNat = toc at *
    replace hmoved : y.Moved base.toNat base'.toNat y' := hmoved
    obtain ⟨hr0, hr2, hr3⟩ := hmoved.commitResults_eq toc
    obtain ⟨hbase, -, -, hlpBase, -⟩ := hy.commitUnit_toNat hview.2 hpkt.sizeMax toc
    obtain ⟨hbase', -, -, hlpBase', -⟩ := hy'.commitUnit_toNat hview'.2 hpkt'.sizeMax toc
    obtain ⟨hr1, -, -⟩ := hy.commitResults_toNat hview.2 hpkt.sizeMax toc
    obtain ⟨hr1', -, -⟩ := hy'.commitResults_toNat hview'.2 hpkt'.sizeMax toc
    refine ⟨_, _, _, _, exec_ppParse_of_parsePacket_ok hview hparse, exec_ppParse_of_parsePacket_ok hview' hparse',
      lastResponse_parsed s toc y, lastResponse_parsed s' toc y', rfl, hr0, hr2, hr3, fun _ => ?_⟩
    simp only [State.parsed_pp, hbase, hbase', hlpBase, hlpBase', hr1, hr1']
    exact ⟨hmoved.payBase, hmoved.commitUnit_eq toc, hmoved.payBase, hmoved.lpBaseVbr,
      fun hne => congrArg (BitVec.ofNat 25) (hmoved.lpBaseOther hne)⟩

end Sys2Proof.Machine

namespace Sys2Proof.Machine

/-!
The frame iterator (O55, O56): what one `PP.NEXT` does, said once, and the run of them that hands out a Packet.
-/

/-! ### The length of the next frame, scheme by scheme -/

section
variable {m : ByteSpace} {u : PpUnit}

theorem nextLength_single (h : u.scheme = .single) : nextLength m u = .ok (u.payLen.toNat, u) := by
  simp only [nextLength, h]

theorem nextLength_doubleEqual (h : u.scheme = .doubleEqual) :
    nextLength m u = .ok (u.payLen.toNat / 2, { u with scheme := .single }) := by
  simp only [nextLength, h]

theorem nextLength_doubleExplicit (h : u.scheme = .doubleExplicit) :
    nextLength m u = .ok (u.arg.toNat, { u with scheme := .single }) := by
  simp only [nextLength, h]

theorem nextLength_cbr (h : u.scheme = .cbr) : nextLength m u = .ok (u.arg.toNat, u) := by
  simp only [nextLength, h]

theorem nextLength_vbr_last (h : u.scheme = .vbr) (h0 : u.lpLen.toNat = 0) :
    nextLength m u = .ok (u.payLen.toNat, u) := by
  simp only [nextLength, h, if_pos h0]

theorem nextLength_vbr_code {c : LengthCode} (h : u.scheme = .vbr) (h0 : u.lpLen.toNat ≠ 0)
    (hc : varint m u.lpBase.toNat u.lpLen.toNat = .ok c) :
    nextLength m u = .ok (c.value, { u with
      lpBase := BitVec.ofNat 25 (u.lpBase.toNat + c.used)
      lpLen := BitVec.ofNat 25 (u.lpLen.toNat - c.used) }) := by
  simp only [nextLength, nextLengthCode, h, if_neg h0, hc, ok_bind]

/-- The codes of a held VBR Packet begin with a whole one (R34, R154). -/
theorem PpUnit.Held.exists_code (hu : u.Held m) (h : u.scheme = .vbr) (h0 : u.lpLen.toNat ≠ 0) :
    ∃ c, varint m u.lpBase.toNat u.lpLen.toNat = .ok c := by
  obtain ⟨-, ls, hls, -⟩ := hu.codesFit h
  obtain ⟨c, -, hc, -⟩ := lengthCodes_head hls h0
  exact ⟨c, hc⟩

end

/-! ### One `PP.NEXT` -/

/-- The response that names the first `size` bytes of the payload of `u` (R171). -/
def frameView (u : PpUnit) (size : Nat) : Results :=
  { r0 := BitVec.ofNat 32 u.payBase.toNat, r1 := BitVec.ofNat 32 size }

/-- `s` after a `PP.NEXT` that hands out `size` bytes, where `w` are the registers as the scheme rewrote them (R171). -/
def State.handedOut (s : State) (size : Nat) (w : PpUnit) : State :=
  { s with pp := { w with
      payBase := BitVec.ofNat 25 (s.pp.payBase.toNat + size)
      payLen := BitVec.ofNat 25 (s.pp.payLen.toNat - size) } }.answer .ok (frameView s.pp size)

@[simp] theorem State.handedOut_responses (s : State) (size : Nat) (w : PpUnit) :
    (s.handedOut size w).responses = s.responses ++ [{ status := .ok, results := frameView s.pp size }] := rfl

theorem frameView_r0_toNat (u : PpUnit) (size : Nat) : (frameView u size).r0.toNat = u.payBase.toNat := by
  have h := u.payBase.isLt
  show (BitVec.ofNat 32 _).toNat = _
  rw [BitVec.toNat_ofNat, Nat.mod_eq_of_lt (by omega)]

theorem frameView_r1_toNat {u : PpUnit} {size : Nat} (h : size ≤ u.payLen.toNat) :
    (frameView u size).r1.toNat = size := by
  have hlen := u.payLen.isLt
  show (BitVec.ofNat 32 _).toNat = _
  rw [BitVec.toNat_ofNat, Nat.mod_eq_of_lt (by omega)]

section
variable {s : State}

theorem exec_ppNext_idle (h : s.pp.phase ≠ .parsed) : exec .ppNext s = .next (s.refuse .protocol) :=
  conclude_check_fails h

/-- The empty payload is answered before the scheme is looked at (R173). -/
theorem exec_ppNext_ended (hparsed : s.pp.phase = .parsed) (hempty : s.pp.payLen.toNat = 0) :
    exec .ppNext s = .next (s.refuse .ended) := by
  show execPpNext s = _
  rw [execPpNext, requireParsed, require_bind hparsed]
  exact conclude_check_fails (not_not.2 hempty)

/-- A length that fits the payload is handed out (R171). -/
theorem exec_ppNext_of_nextLength {size : Nat} {w : PpUnit} (hparsed : s.pp.phase = .parsed)
    (hne : s.pp.payLen.toNat ≠ 0) (hlen : nextLength s.pkt s.pp = .ok (size, w)) (hfits : size ≤ s.pp.payLen.toNat) :
    exec .ppNext s = .next (s.handedOut size w) := by
  have hw := nextLength_frame hlen
  have hbase : w.payBase = s.pp.payBase := by rw [hw]
  have hpay : w.payLen = s.pp.payLen := by rw [hw]
  show execPpNext s = _
  rw [execPpNext, requireParsed, require_bind hparsed, require_bind hne, hlen, ok_bind]
  simp only
  rw [takeFrame_fits (by rw [hpay]; exact hfits), ok_bind, conclude_ok, hbase, hpay, ← BitVec.ofNat_toNat]
  rfl

variable (hs : Inv s) (hparsed : s.pp.phase = .parsed) (hne : s.pp.payLen.toNat ≠ 0)
include hs hparsed hne

/-- Everything `PP.NEXT` does with a held Packet whose payload is not empty: it hands out the frame whose length its scheme
gives (R171, R172). -/
theorem exec_ppNext_hands_out : ∃ size w, nextLength s.pkt s.pp = .ok (size, w) ∧
    exec .ppNext s = .next (s.handedOut size w) ∧ FrameTaken s.pkt s.pp size (s.handedOut size w).pp := by
  obtain ⟨size, w, v, hlen, htake, htaken⟩ := nextLength_takeFrame (hs.pp hparsed) hs.pkt.sizeMax hne
  have hw := nextLength_frame hlen
  have hv : v = (s.handedOut size w).pp := by
    rw [(takeFrame_eq_ok.1 htake).2, show w.payBase = s.pp.payBase by rw [hw], show w.payLen = s.pp.payLen by rw [hw]]
    rfl
  exact ⟨size, w, hlen, exec_ppNext_of_nextLength hparsed hne hlen htaken.fits, hv ▸ htaken⟩

/-- The frame handed out is the one of a known length (R171). -/
theorem exec_ppNext_hands_out_of_nextLength {size : Nat} {w : PpUnit} (hlen : nextLength s.pkt s.pp = .ok (size, w)) :
    size ≤ s.pp.payLen.toNat ∧ exec .ppNext s = .next (s.handedOut size w) := by
  obtain ⟨size', w', hlen', hexec, htaken⟩ := exec_ppNext_hands_out hs hparsed hne
  cases hlen.symm.trans hlen'
  exact ⟨htaken.fits, hexec⟩

end

/-- Settles O55: with a held Packet whose payload is not empty the frame is the one `nextLength` gives in each scheme. -/
theorem ppNextHandsOutTheNextFrame : Obligations.PpNextHandsOutTheNextFrame := by
  refine fun s => ⟨exec_ppNext_idle, exec_ppNext_ended, fun hs hparsed hne => ?_⟩
  have hheld := hs.pp hparsed
  intro frame
  have hframe : ∀ {size w}, nextLength s.pkt s.pp = .ok (size, w) → frame size w :=
    exec_ppNext_hands_out_of_nextLength hs hparsed hne
  refine ⟨fun h => hframe (nextLength_single h),
    fun h => ⟨(hheld.equalHalves h).1, hframe (nextLength_doubleEqual h)⟩,
    fun h => hframe (nextLength_doubleExplicit h), fun h => hframe (nextLength_cbr h),
    fun h h0 => hframe (nextLength_vbr_last h h0), fun h h0 => ?_⟩
  obtain ⟨c, hc⟩ := hheld.exists_code h h0
  exact ⟨c, hc, hframe (nextLength_vbr_code h h0 hc)⟩

/-! ### The run of `PP.NEXT` over a Packet -/

/-- From `s`, `k` commands `PP.NEXT` hand out the whole payload with the responses `rs`, and leave the Packet of `t`, whose
payload is empty (R174, R175). -/
structure HandsOutAll (s : State) (k : Nat) (t : State) (rs : List Response) : Prop where
  bound : k ≤ s.pp.payLen.toNat + s.pp.lpLen.toNat
  run : runNext k s = .next t
  responses : t.responses = s.responses ++ rs
  count : rs.length = k
  tiles : Tiles s.pp.payBase.toNat s.pp.payLen.toNat rs
  parsed : t.pp.phase = .parsed
  drained : t.pp.payLen.toNat = 0

theorem runNext_succ {s t : State} {k : Nat} (h : exec .ppNext s = .next t) : runNext (k + 1) s = runNext k t := by
  rw [runNext, h]

theorem HandsOutAll.nil {s : State} (hparsed : s.pp.phase = .parsed) (hempty : s.pp.payLen.toNat = 0) :
    HandsOutAll s 0 s [] :=
  { bound := Nat.zero_le _, run := rfl, responses := (List.append_nil _).symm, count := rfl, tiles := hempty,
    parsed := hparsed, drained := hempty }

/-- A frame in front of the frames of what it leaves. -/
theorem HandsOutAll.cons {s t : State} {size k : Nat} {w : PpUnit} {rs : List Response}
    (hexec : exec .ppNext s = .next (s.handedOut size w)) (htaken : FrameTaken s.pkt s.pp size (s.handedOut size w).pp)
    (h : HandsOutAll (s.handedOut size w) k t rs) :
    HandsOutAll s (k + 1) t ({ status := .ok, results := frameView s.pp size } :: rs) where
  bound := h.bound.trans_lt htaken.shrinks
  run := (runNext_succ hexec).trans h.run
  responses := by rw [h.responses, State.handedOut_responses, List.append_assoc, List.singleton_append]
  count := congrArg (· + 1) h.count
  tiles := by
    have htiles := h.tiles
    have hsize := frameView_r1_toNat htaken.fits
    rw [htaken.nextBase, htaken.nextLen, ← hsize] at htiles
    exact ⟨rfl, frameView_r0_toNat s.pp size, hsize.trans_le htaken.fits, htiles⟩
  parsed := h.parsed
  drained := h.drained

/-- By induction on the bytes left of the payload and of the length codes, which every frame lowers (R174). -/
theorem exists_handsOutAll {s : State} (hs : Inv s) (hparsed : s.pp.phase = .parsed) :
    ∃ k t rs, HandsOutAll s k t rs := by
  induction hleft : s.pp.payLen.toNat + s.pp.lpLen.toNat using Nat.strong_induction_on generalizing s with
  | h left ih =>
    by_cases hempty : s.pp.payLen.toNat = 0
    · exact ⟨0, s, [], .nil hparsed hempty⟩
    · obtain ⟨size, w, -, hexec, htaken⟩ := exec_ppNext_hands_out hs hparsed hempty
      obtain ⟨u, hu, hinv⟩ := exec_keeps_inv hs .ppNext
      cases hexec.symm.trans hu
      obtain ⟨k, t, rs, h⟩ := ih _ (hleft ▸ htaken.shrinks) hinv (htaken.phase.trans hparsed) rfl
      exact ⟨k + 1, t, _, h.cons hexec htaken⟩

/-- After the last frame every further `PP.NEXT` answers `END` and changes nothing (R174). -/
theorem runNext_ended {j : Nat} {t : State} (hparsed : t.pp.phase = .parsed) (hempty : t.pp.payLen.toNat = 0) :
    runNext j t = .next { t with
      responses := t.responses ++ List.replicate j { status := .ended, results := .zero } } := by
  induction j generalizing t with
  | zero => rw [List.replicate_zero, List.append_nil]; rfl
  | succ j ih =>
    rw [runNext_succ (exec_ppNext_ended hparsed hempty), ih (t := t.refuse .ended) hparsed hempty,
      State.refuse_responses, List.append_assoc, List.singleton_append, ← List.replicate_succ]
    rfl

/-- Settles O56: the run that hands out the whole payload (`exists_handsOutAll`), and `END` after it. -/
theorem framesTileThePayload : Obligations.FramesTileThePayload := by
  intro s hs hparsed
  obtain ⟨k, t, rs, h⟩ := exists_handsOutAll hs hparsed
  exact ⟨k, t, rs, h.bound, h.run, h.responses, h.count, h.tiles, exec_ppNext_ended h.parsed h.drained,
    fun _ => runNext_ended h.parsed h.drained⟩

end Sys2Proof.Machine

namespace Sys2Proof.Machine

/-!
Under the invariant nothing stops the machine (O10): the half of `step_keeps_inv` that says the step answers.
-/

/-- Settles O10: under the invariant every operation of every command answers (`exec_keeps_inv`), and a word that is no
command is refused, so the step has a next state (`step_keeps_inv`). -/
theorem everyStepAnswers : Obligations.EveryStepAnswers := by
  intro s hs
  obtain ⟨t, ht, -⟩ := step_keeps_inv hs
  exact ⟨t, ht⟩

end Sys2Proof.Machine

namespace Sys2Proof.Machine

/-!
The two commands that set up a unit write all its registers from the view and the packet memory (O20): what each leaves
is in closed form (`execRdInit_eq`, `State.parsed`), and no register of the unit stands in it.
-/

/-- `RD.INIT` of a legal view writes every RD register and reads none (R80, R212). -/
theorem execRdInit_with_rd {base len : Word} {s : State} (h : viewLegal base len s.pkt.size) (u : RdUnit) :
    execRdInit base len { s with rd := u } = execRdInit base len s :=
  (execRdInit_eq (s := { s with rd := u }) h).trans (execRdInit_eq h).symm

/-- A committed Packet has overwritten every PP register (R156). -/
theorem State.parsed_with_pp (s : State) (v : PpUnit) (toc : Byte) (y : Layout) :
    { s with pp := v }.parsed toc y = s.parsed toc y := rfl

/-- Settles O20: `RD.INIT` by its closed form; a `PP.PARSE` answered `OK` by the parse it committed, which reads the view
and the parameters only and so completes the same from other PP registers. -/
theorem reinitialisationForgetsTheUnit : Obligations.ReinitialisationForgetsTheUnit := by
  refine ⟨fun _ _ _ u hview => execRdInit_with_rd hview u, fun base len s t v r ht hr hok => ?_⟩
  obtain ⟨hview, y, hparse, -, rfl⟩ := exec_ppParse_answered_ok ht hr hok
  exact (exec_ppParse_of_parsePacket_ok (s := { s with pp := v }) hview hparse).trans
    (congrArg Host.Outcome.next (State.parsed_with_pp s v _ y))

end Sys2Proof.Machine
